-- ==== Sys2Proof/Word.lean ====
section
/-! DEFINITION. The two widths ORC's data has: the byte (00_scope.md R12) and the 32-bit host word (30_encoding.md R63). -/

namespace Sys2Proof

/-- A byte, "8-bit unsigned" (R12). -/
abbrev Byte := BitVec 8

/-- A command word or a host register word (R63, R51). -/
abbrev Word := BitVec 32

end Sys2Proof
end

