-- ==== Sys2Proof/Syntax.lean ====
section
/-! DEFINITION. The thirteen commands of ORC command set 1 (30_encoding.md R66), and the assembler
statements of R73 and R74 that stand for them. -/

namespace Sys2Proof

/-- A command, one constructor per row of the opcode map (R66). The operand types are the operand
fields of R65, so every term is a well-formed command: "Operand values are never illegal by
themselves" (R69). -/
inductive Instr where
  /-- NOP (R149). -/
  | nop
  /-- SRST, software reset (R150). -/
  | srst
  /-- KEYCLR, empty the raw key (R88). -/
  | keyclr
  /-- KEYB byte, append one key byte (R89). -/
  | keyb (byte : BitVec 8)
  /-- KWIN off, emit the key window at `off` (R90). -/
  | kwin (off : BitVec 24)
  /-- SETBS size, set the block size (R105). -/
  | setbs (size : BitVec 16)
  /-- SETFILL byte, set the filler byte (R106). -/
  | setfill (byte : BitVec 8)
  /-- IVCLR, clear the fixed IV (R107). -/
  | ivclr
  /-- IVB byte, append one fixed-IV byte (R108). -/
  | ivb (byte : BitVec 8)
  /-- ENC chain, ivsel: open an encryption (R123). -/
  | enc (chain ivsel : Bool)
  /-- DEC chain: open a decryption (R126). -/
  | dec (chain : Bool)
  /-- DATA byte, the next stream byte (R110). -/
  | data (byte : BitVec 8)
  /-- FIN, end of the stream (R111). -/
  | fin
  deriving DecidableEq, Repr

/-- The name the opcode map gives a command (R66). -/
def Instr.mnemonic : Instr → String
  | .nop => "NOP"
  | .srst => "SRST"
  | .keyclr => "KEYCLR"
  | .keyb _ => "KEYB"
  | .kwin _ => "KWIN"
  | .setbs _ => "SETBS"
  | .setfill _ => "SETFILL"
  | .ivclr => "IVCLR"
  | .ivb _ => "IVB"
  | .enc _ _ => "ENC"
  | .dec _ => "DEC"
  | .data _ => "DATA"
  | .fin => "FIN"

/-- The flag word of ENC and DEC that names the chaining setting (R73). -/
inductive ChainWord where
  | ecb
  | cbc
  deriving DecidableEq, Repr

/-- The flag word of ENC that names the IV source (R73). -/
inductive IvWord where
  | fresh
  | fixed
  deriving DecidableEq, Repr

/-- An assembler statement: a command with its operands as the plain numbers the text holds (R73),
or a pseudo-command (R74). A number may be out of its field's range: `AsmStmt.wellFormed` checks it. -/
inductive AsmStmt where
  | nop
  | srst
  | keyclr
  | keyb (b : Nat)
  | kwin (off : Nat)
  | setbs (n : Nat)
  | setfill (b : Nat)
  | ivclr
  | ivb (b : Nat)
  | enc (mode : ChainWord) (src : IvWord)
  | dec (mode : ChainWord)
  | data (b : Nat)
  | fin
  /-- `KEY b0, ..., bk`. -/
  | key (bs : List Nat)
  /-- `IV b0, ..., bk`. -/
  | iv (bs : List Nat)
  /-- `STREAM b0, ..., bk`, or `STREAM` alone. -/
  | stream (bs : List Nat)
  /-- `ENCRYPT mode, src, b0, ..., bk`. -/
  | encrypt (mode : ChainWord) (src : IvWord) (bs : List Nat)
  /-- `DECRYPT mode, b0, ..., bk`. -/
  | decrypt (mode : ChainWord) (bs : List Nat)
  deriving DecidableEq, Repr

end Sys2Proof
end

