-- ==== Sys2Proof/Config.lean ====
section
/-! DEFINITION. The build parameters of ORC (00_scope.md R10) and the free values of the model. -/

namespace Sys2Proof

/-- A byte sequence of length `n`: an operand of the block transform (R94). -/
abbrev Block (n : Nat) := { l : List Byte // l.length = n }

/-- Which block transform the hardware was built with (R94: "selected at construction time").
`xor` is the reference transform of R97. `other` is any other lawful transform, the opaque
`Config.otherTransform` (log entry 2). -/
inductive Xform where
  | xor
  | other
  deriving DecidableEq, Repr

/-- The parameters a model of ORC takes as arguments (R10). They are carried by the state as a
field no step writes, so that a claim about every state is a claim about every build (DESIGN
CHOICE, log entry 1). OUT_DEPTH affects timing only and has no place in a model (R10, R194). -/
structure Config where
  /-- `BS_MAX`, the largest legal block size in bytes. -/
  bsMax : Nat
  /-- `KEY_MAX`, the capacity of the raw key memory in bytes. -/
  keyMax : Nat
  /-- `FILLER_RESET`, the reset value of the filler byte. -/
  fillerReset : Byte
  /-- `XFORM`, the block transform. -/
  xform : Xform
  deriving DecidableEq, Repr

/-- The reference values of R10: BS_MAX = 64, KEY_MAX = 256, FILLER_RESET = 0x00, XFORM = byte-wise XOR. -/
def Config.reference : Config :=
  { bsMax := 64, keyMax := 256, fillerReset := 0x00#8, xform := .xor }

/-- FREE VALUE (log entry 2): a lawful block transform nothing else is known of. The inverse law
(R95) and length preservation (R96), at every length and under every key block, say exactly that
`forward` under one key block permutes the byte sequences of that length and that `inverse` is the
inverse permutation; so a lawful transform is a family of permutations. -/
opaque Config.otherTransform (n : Nat) (keyBlock : Block n) : Equiv.Perm (Block n)

/-- FREE VALUE (log entry 3): the byte number `n` the fresh-IV source delivers, counted from the
first byte ever taken. "The spec puts no law on these bytes" (R118). -/
opaque Config.freshIvByte : Nat → Byte

/-- FREE VALUE (log entry 18): bits 7:3 (OUTV, DONE, IVSEL, CHAIN, DIR) of the STATUS word a host reads
while ORC is stalled inside ENC, for the host's read number `n`: "an intermediate state the spec does not
define" (93_implementation_defined.md U12). -/
opaque Config.stallFlags : Nat → BitVec 5

/-- FREE VALUE (log entry 18): the ERR field of that word. Codes above 5 are never produced (U11). -/
opaque Config.stallErr : Nat → Fin 6

/-- FREE VALUE (log entry 18): what OFFSET shows of OFF in such a read. -/
opaque Config.stallOffset : Nat → BitVec 24

/-- FREE VALUE (log entry 18): what FILLCNT shows of FILL in such a read. -/
opaque Config.stallFill : Nat → BitVec 16

end Sys2Proof
end

