-- ==== Sys2Proof/WellFormed.lean ====
section
/-! DEFINITION. What is well formed: an assembler statement whose operands fit their fields
(30_encoding.md R73), and build parameters within their constraints (00_scope.md R10). A term of
`Instr` is well formed by its types (R69). -/

namespace Sys2Proof

/-- An operand of format B fits when it is at most 255 (R73). -/
def fitsByte (b : Nat) : Bool := b ≤ 255

/-- An operand of format H fits when it is at most 65535 (R73). -/
def fitsSize (n : Nat) : Bool := n ≤ 65535

/-- An operand of format O fits when it is at most 16777215 (R73). -/
def fitsOff (off : Nat) : Bool := off ≤ 16777215

/-- "An operand out of its field's range (b > 255, n > 65535, off > 16777215) is an assembly error,
not a word" (R73). KEY and IV take at least one byte (R74); ENCRYPT and DECRYPT may have none, as
the STREAM they expand to may (DESIGN CHOICE, log entry 15). -/
def AsmStmt.wellFormed : AsmStmt → Bool
  | .nop => true
  | .srst => true
  | .keyclr => true
  | .keyb b => fitsByte b
  | .kwin off => fitsOff off
  | .setbs n => fitsSize n
  | .setfill b => fitsByte b
  | .ivclr => true
  | .ivb b => fitsByte b
  | .enc _ _ => true
  | .dec _ => true
  | .data b => fitsByte b
  | .fin => true
  | .key bs => !bs.isEmpty && bs.all fitsByte
  | .iv bs => !bs.isEmpty && bs.all fitsByte
  | .stream bs => bs.all fitsByte
  | .encrypt _ _ bs => bs.all fitsByte
  | .decrypt _ bs => bs.all fitsByte

/-- The constraints of R10: 1 <= BS_MAX <= 65535, 1 <= KEY_MAX <= 65535, KEY_MAX * BS_MAX <= 2^24.
(XFORM's laws, R95 and R96, hold of every `Xform` by construction.) -/
def Config.legal (c : Config) : Bool :=
  1 ≤ c.bsMax && c.bsMax ≤ 65535 && 1 ≤ c.keyMax && c.keyMax ≤ 65535 &&
    c.keyMax * c.bsMax ≤ 16777216

end Sys2Proof
end

