-- ==== Sys2Proof/Decode.lean ====
section
/-! DEFINITION. Decoding and encoding of command words (30_encoding.md R63 to R68), the opcode map
as data (R66), and the assembler of R73 and R74. -/

namespace Sys2Proof

/-- `OPC`, bits 31:24 of a command word (R63). -/
def opcodeOf (w : Word) : BitVec 8 := w.extractLsb' 24 8

/-- Why a word is illegal (R68): (a) its opcode is none of the thirteen, or (b) a bit the format
calls "zero" is 1. -/
inductive Illegal where
  | unusedOpcode (opc : BitVec 8)
  | nonzeroBits (opc : BitVec 8)
  deriving DecidableEq, Repr

/-- The instruction, if the bits its format calls "zero" are all 0 (R68 b). -/
def ifZero {n : Nat} (w : Word) (zeros : BitVec n) (i : Instr) : Except Illegal Instr :=
  if zeros = 0 then .ok i else .error (.nonzeroBits (opcodeOf w))

/-- Format Z: bits 23:0 zero (R64). -/
def decodeZ (w : Word) (i : Instr) : Except Illegal Instr :=
  ifZero w (w.extractLsb' 0 24) i

/-- Format B: bits 23:8 zero, `byte` in bits 7:0 (R64, R65). -/
def decodeB (w : Word) (f : BitVec 8 → Instr) : Except Illegal Instr :=
  ifZero w (w.extractLsb' 8 16) (f (w.extractLsb' 0 8))

/-- Format H: bits 23:16 zero, `size` in bits 15:0 (R64, R65). -/
def decodeH (w : Word) (f : BitVec 16 → Instr) : Except Illegal Instr :=
  ifZero w (w.extractLsb' 16 8) (f (w.extractLsb' 0 16))

/-- Decoding (R67), total on every word: exactly one command, or illegal by name. The operand
fields are those of R65. -/
def decode (w : Word) : Except Illegal Instr :=
  match (opcodeOf w).toNat with
  | 0x00 => decodeZ w .nop
  | 0x01 => decodeZ w .srst
  | 0x10 => decodeZ w .keyclr
  | 0x11 => decodeB w .keyb
  | 0x12 => .ok (.kwin (w.extractLsb' 0 24))
  | 0x20 => decodeH w .setbs
  | 0x21 => decodeB w .setfill
  | 0x22 => decodeZ w .ivclr
  | 0x23 => decodeB w .ivb
  | 0x30 => ifZero w (w.extractLsb' 2 22) (.enc (w.getLsbD 0) (w.getLsbD 1))
  | 0x31 => ifZero w (w.extractLsb' 1 23) (.dec (w.getLsbD 0))
  | 0x40 => decodeB w .data
  | 0x41 => decodeZ w .fin
  | _ => .error (.unusedOpcode (opcodeOf w))

/-- The word of a format Z command (R64). -/
def wordZ (opc : BitVec 8) : Word := opc ++ 0#24

/-- The word of a format B command (R64). -/
def wordB (opc byte : BitVec 8) : Word := opc ++ 0#16 ++ byte

/-- The word of a format H command (R64). -/
def wordH (opc : BitVec 8) (size : BitVec 16) : Word := opc ++ 0#8 ++ size

/-- The word of a command (R64, R66). -/
def encode : Instr → Word
  | .nop => wordZ 0x00#8
  | .srst => wordZ 0x01#8
  | .keyclr => wordZ 0x10#8
  | .keyb byte => wordB 0x11#8 byte
  | .kwin off => 0x12#8 ++ off
  | .setbs size => wordH 0x20#8 size
  | .setfill byte => wordB 0x21#8 byte
  | .ivclr => wordZ 0x22#8
  | .ivb byte => wordB 0x23#8 byte
  | .enc chain ivsel => 0x30#8 ++ 0#22 ++ BitVec.ofBool ivsel ++ BitVec.ofBool chain
  | .dec chain => 0x31#8 ++ 0#23 ++ BitVec.ofBool chain
  | .data byte => wordB 0x40#8 byte
  | .fin => wordZ 0x41#8

/-- A row of the opcode map (R66): a word `w` is the command exactly when `w AND mask = pattern`. -/
structure OpcodeRow where
  mnemonic : String
  pattern : Word
  mask : Word
  deriving DecidableEq, Repr

/-- The opcode map as R66 prints it (its column "match" is `pattern` here). `decode` does not use
it: that the two agree is a claim. -/
def opcodeRows : List OpcodeRow :=
  [ { mnemonic := "NOP",     pattern := 0x00000000#32, mask := 0xFFFFFFFF#32 },
    { mnemonic := "SRST",    pattern := 0x01000000#32, mask := 0xFFFFFFFF#32 },
    { mnemonic := "KEYCLR",  pattern := 0x10000000#32, mask := 0xFFFFFFFF#32 },
    { mnemonic := "KEYB",    pattern := 0x11000000#32, mask := 0xFFFFFF00#32 },
    { mnemonic := "KWIN",    pattern := 0x12000000#32, mask := 0xFF000000#32 },
    { mnemonic := "SETBS",   pattern := 0x20000000#32, mask := 0xFFFF0000#32 },
    { mnemonic := "SETFILL", pattern := 0x21000000#32, mask := 0xFFFFFF00#32 },
    { mnemonic := "IVCLR",   pattern := 0x22000000#32, mask := 0xFFFFFFFF#32 },
    { mnemonic := "IVB",     pattern := 0x23000000#32, mask := 0xFFFFFF00#32 },
    { mnemonic := "ENC",     pattern := 0x30000000#32, mask := 0xFFFFFFFC#32 },
    { mnemonic := "DEC",     pattern := 0x31000000#32, mask := 0xFFFFFFFE#32 },
    { mnemonic := "DATA",    pattern := 0x40000000#32, mask := 0xFFFFFF00#32 },
    { mnemonic := "FIN",     pattern := 0x41000000#32, mask := 0xFFFFFFFF#32 } ]

/-- The instruction the decoder reads from a word numbered as spec/opcode_table.json numbers it:
every command is one 32-bit word and the table's bit numbers are the word's own (R63). Bits at and
above `nbits` are 0; a number that needs more than 32 bits is no command word. -/
def decodeTableWord (nbits w : Nat) : Option Instr :=
  if w % 2 ^ nbits < 2 ^ 32 then
    match decode (BitVec.ofNat 32 (w % 2 ^ nbits)) with
    | .ok i => some i
    | .error _ => none
  else none

/-- `chain` of a flag word: `cbc` is 1, `ecb` is 0 (R73). -/
def ChainWord.bit : ChainWord → Bool
  | .ecb => false
  | .cbc => true

/-- `ivsel` of a flag word: `fixed` is 1, `fresh` is 0 (R73). -/
def IvWord.bit : IvWord → Bool
  | .fresh => false
  | .fixed => true

/-- The KEYB, IVB or DATA commands of a list of bytes, in order (R74). -/
def eachByte (f : BitVec 8 → Instr) (bs : List Nat) : List Instr :=
  bs.map fun b => f (BitVec.ofNat 8 b)

/-- The commands a statement stands for, in order (R73, R74). -/
def AsmStmt.expand : AsmStmt → List Instr
  | .nop => [.nop]
  | .srst => [.srst]
  | .keyclr => [.keyclr]
  | .keyb b => eachByte .keyb [b]
  | .kwin off => [.kwin (BitVec.ofNat 24 off)]
  | .setbs n => [.setbs (BitVec.ofNat 16 n)]
  | .setfill b => eachByte .setfill [b]
  | .ivclr => [.ivclr]
  | .ivb b => eachByte .ivb [b]
  | .enc mode src => [.enc mode.bit src.bit]
  | .dec mode => [.dec mode.bit]
  | .data b => eachByte .data [b]
  | .fin => [.fin]
  | .key bs => .keyclr :: eachByte .keyb bs
  | .iv bs => .ivclr :: eachByte .ivb bs
  | .stream bs => eachByte .data bs ++ [.fin]
  | .encrypt mode src bs => .enc mode.bit src.bit :: (eachByte .data bs ++ [.fin])
  | .decrypt mode bs => .dec mode.bit :: (eachByte .data bs ++ [.fin])

/-- Assembly of one statement: its words, or none for an assembly error (R73). -/
def assemble (a : AsmStmt) : Option (List Word) :=
  if a.wellFormed then some (a.expand.map encode) else none

end Sys2Proof
end

