-- ==== Sys2Proof/Machine/State.lean ====
section
/-! DEFINITION. The state of ORC (10_state.md R15 to R33) as plain data, the reasons a step can stop,
and the state after reset (R43). -/

namespace Sys2Proof.Machine

/-- A byte array (KEY, IVFIX, BUF, PREV) as (index, byte) pairs in one canonical form: indices
strictly rising, no entry equal to what an unlisted index reads as. The operations are in Ops.lean. -/
abbrev Memory := List Host.Cell

/-- `PHASE`, the sequencer's phase (R27). The values 5, 6, 7 are "never held" and have no constructor. -/
inductive Phase where
  | idle
  | ivseed
  | drop
  | main
  | drain
  deriving DecidableEq, Repr

/-- `DIR` (R22): 0 = encrypt, 1 = decrypt. -/
inductive Dir where
  | encrypt
  | decrypt
  deriving DecidableEq, Repr

/-- The five error kinds (R157, R158). -/
inductive ErrKind where
  | invalidKey
  | blockLengthMismatch
  | invalidBlockSize
  | shortCipher
  | illegalCommand
  deriving DecidableEq, Repr

/-- A token of the output queue (R33): `Byte(b)` or `End`. -/
inductive Token where
  | byte (b : Byte)
  | endMark
  deriving DecidableEq, Repr

/-- What the world outside does to ORC through its ports (R35, R36, R179): a bus write of `bytes`
bytes at byte offset `addr` of the host register window, a bus read, or the hardware reset input. -/
inductive HostEvent where
  | write (addr bytes : Nat) (value : Word)
  | read (addr bytes : Nat)
  | hardReset
  deriving DecidableEq, Repr

/-- The fresh-IV source at port IVIN (R34, R118), seen from ORC. It is not ORC's state: ORC "keeps no
buffer of undelivered IV bytes". `offered` are the bytes it is known to offer next, in order;
`thenFree` says whether it goes on after those, with free bytes, or never offers another byte (U15);
`taken` counts the bytes ORC has taken so far (log entries 3, 4). -/
structure IvPort where
  offered : List Byte
  thenFree : Bool
  taken : Nat
  deriving DecidableEq, Repr

/-- The state. The first seventeen fields are the spec's, each under its own name (R16 to R33); the
last four are the model's own (log entries 1, 3, 7, 8). -/
structure State where
  /-- `KEY[0..KEY_MAX)`, the raw key memory (R16). -/
  key : Memory
  /-- `KLEN`, the raw key length, 16 bits (R17). -/
  klen : BitVec 16
  /-- `BS`, the block size in bytes, 16 bits (R18). -/
  bs : BitVec 16
  /-- `FILLER`, the filler byte (R19). -/
  filler : Byte
  /-- `IVFIX[0..BS_MAX)`, the fixed IV (R20). -/
  ivfix : Memory
  /-- `IVLEN`, the number of fixed-IV bytes loaded, 16 bits (R21). -/
  ivlen : BitVec 16
  /-- `DIR` (R22). -/
  dir : Dir
  /-- `CHAIN`, the CBC/ECB selector: true = 1 = chaining (R23). -/
  chain : Bool
  /-- `IVSEL`: false = 0 = fresh IV, true = 1 = fixed IV (R24). -/
  ivsel : Bool
  /-- `BUF[0..BS_MAX)`, the slice accumulation buffer (R25). -/
  buf : Memory
  /-- `PREV[0..BS_MAX)`, the chain state (R26). -/
  prev : Memory
  /-- `PHASE` (R27). -/
  phase : Phase
  /-- `FILL`, the bytes of the current slice already in BUF, 16 bits (R28). -/
  fill : BitVec 16
  /-- `OFF`, the key-window offset modulo TLEN, 24 bits (R29). -/
  off : BitVec 24
  /-- `DONE` (R31). -/
  done : Bool
  /-- `ERR`: none is code 0, otherwise the last error raised (R32, R158). -/
  err : Option ErrKind
  /-- `OUT`, the output queue, head first (R33). -/
  out : List Token
  /-- The build parameters (R10), fixed. -/
  cfg : Config
  /-- The port IVIN (R34). -/
  ivin : IvPort
  /-- The host's accesses not yet served, oldest first: the port CMD and the register window (R35, R36);
  the hardware reset input among them (R179). -/
  inbox : List HostEvent
  /-- The words returned to the host's reads so far, oldest first (R36). -/
  replies : List Word
  deriving DecidableEq, Repr

/-- Why the machine stops. -/
inductive Fault where
  /-- Raised by a step, never by an instruction: ORC is stuck inside ENC in phase IVSEED because the
  source at IVIN never offers the bytes it needs, the host has nothing for it but words CMD does not
  accept, and no hardware reset is to come (93_implementation_defined.md U15, R118, R190). Safe: the
  hardware takes no further step either. -/
  | ivSourceSilent
  deriving DecidableEq, Repr

/-- Why the model gives an input no meaning. -/
inductive Refusal where
  /-- Raised by `exec` for an instruction without a meaning (no instruction of this model). Safe. -/
  | notModelled (mnemonic : String)
  /-- Raised by a host access to the register window that is not an aligned 32-bit one: "a model
  refuses it" (R53, U13). Safe: nothing is concluded about such an access. -/
  | badHostAccess (addr bytes : Nat)
  deriving DecidableEq, Repr

/-- The outcome of a command or of a step. -/
abbrev Result := Host.Outcome State Fault Refusal

/-- The reset table (R43, R180) for a build with parameters `c`. KEY, BUF and PREV are "unspecified" in
the table; nothing listed, every byte 0x00, is the model's value (DESIGN CHOICE, log entry 5). -/
def State.resetOf (c : Config) : State where
  key := []
  klen := 0#16
  bs := 8#16
  filler := c.fillerReset
  ivfix := []
  ivlen := 0#16
  dir := .encrypt
  chain := false
  ivsel := false
  buf := []
  prev := []
  phase := .idle
  fill := 0#16
  off := 0#24
  done := false
  err := none
  out := []
  cfg := c
  ivin := { offered := [], thenFree := true, taken := 0 }
  inbox := []
  replies := []

/-- The machine right after reset, built with the reference parameters (R10, R43). -/
def State.reset : State := State.resetOf Config.reference

end Sys2Proof.Machine
end

