-- ==== Sys2Proof/Machine/Ops.lean ====
section
/-! DEFINITION. The named operations over ORC's byte arrays, registers, queues and ports: each is used
by every command that needs it. Raising an error (60_exceptions.md R165) stands here, and beside it
the clearing of the flags that recovery consists of (R168). -/

namespace Sys2Proof.Machine

/-! ### Byte arrays (20_memory.md R44, R47, R55) -/

/-- What an index that is not listed reads as: 0x00. It is the reset value of IVFIX (R43); for KEY,
BUF and PREV it is the model's choice (log entry 5). -/
def Memory.blank : Byte := 0x00#8

/-- `X[i]`, read of one byte (R13, R55). -/
def Memory.read : Memory → Nat → Byte
  | [], _ => Memory.blank
  | (a, b) :: m, i => if a = i then b else Memory.read m i

/-- `X[i] <- v`, write of one byte (R13, R55), keeping the canonical form. -/
def Memory.write : Memory → Nat → Byte → Memory
  | [], i, v => if v = Memory.blank then [] else [(i, v)]
  | (a, b) :: m, i, v =>
    if i < a then
      if v = Memory.blank then (a, b) :: m else (i, v) :: (a, b) :: m
    else if i = a then
      if v = Memory.blank then m else (i, v) :: m
    else (a, b) :: Memory.write m i v

/-- `X[i..i+len) <- s`, write of a run of bytes (R13). -/
def Memory.writeRun : Memory → Nat → List Byte → Memory
  | m, _, [] => m
  | m, i, v :: vs => Memory.writeRun (Memory.write m i v) (i + 1) vs

/-- `X[0..n)`, read of a run of bytes (R13). -/
def Memory.readRun (m : Memory) (n : Nat) : List Byte :=
  (List.range n).map fun j => Memory.read m j

/-- The canonical form, below a bound on the head: every listed index is at least `lo`, the indices
rise strictly, and no entry equals what an unlisted index reads as. -/
def Memory.wfFrom : Nat → Memory → Bool
  | _, [] => true
  | lo, (a, b) :: m => lo ≤ a && b ≠ Memory.blank && Memory.wfFrom (a + 1) m

/-- The canonical form of a byte array. -/
def Memory.wf (m : Memory) : Bool := Memory.wfFrom 0 m

/-- Every listed index is below `n`: the array holds nothing outside its capacity. -/
def Memory.below (m : Memory) (n : Nat) : Bool := m.all fun c => c.1 < n

/-! ### Bytes (R12, R103 a) -/

/-- `u ^ v` on two sequences of the same length: the sequence of byte-wise XORs (R12). -/
def xorBytes (u v : List Byte) : List Byte := List.zipWith (fun a b => a ^^^ b) u v

/-! ### Errors (60_exceptions.md) -/

/-- `raise E` (R165): write the code of E to ERR, overwriting what it held, and apply E's entry
action. InvalidKey (R159), InvalidBlockSize (R160) and IllegalCommand (R163): nothing more.
ShortCipher (R162) and BlockLengthMismatch (R161): PHASE to IDLE and FILL to 0. The rest of the
command is abandoned by the caller, which answers with this state. -/
def raise (e : ErrKind) (s : State) : State :=
  match e with
  | .invalidKey => { s with err := some .invalidKey }
  | .invalidBlockSize => { s with err := some .invalidBlockSize }
  | .illegalCommand => { s with err := some .illegalCommand }
  | .shortCipher => { s with err := some .shortCipher, phase := .idle, fill := 0#16 }
  | .blockLengthMismatch => { s with err := some .blockLengthMismatch, phase := .idle, fill := 0#16 }

/-- `ERR <- 0; DONE <- 0`: what ENC, DEC and KWIN do when they are accepted in IDLE, before their
checks (R31, R32). There is no return instruction: recovery from an error is this (R168). -/
def clearFlags (s : State) : State := { s with err := none, done := false }

/-- `StartChecks()` (R124): the first check that fails, block size before key (R167). -/
def startCheck (s : State) : Option ErrKind :=
  if s.bs = 0#16 ∨ s.cfg.bsMax < s.bs.toNat then some .invalidBlockSize
  else if s.klen = 0#16 then some .invalidKey
  else none

/-! ### The output queue (R33) -/

/-- `emit s` for a byte sequence: append its bytes in order at the tail of OUT (R13, R50). -/
def emitBytes (bytes : List Byte) (s : State) : State :=
  { s with out := s.out ++ bytes.map Token.byte }

/-- `emit End`. -/
def emitEnd (s : State) : State := { s with out := s.out ++ [Token.endMark] }

/-! ### Chain state and slice buffer (R25, R26) -/

/-- `PREV[0..n) <- block` with n the block's length. -/
def setPrev (block : List Byte) (s : State) : State :=
  { s with prev := Memory.writeRun s.prev 0 block }

/-- `BUF[FILL] <- byte; FILL <- FILL + 1` (R110). -/
def bufferByte (byte : Byte) (s : State) : State :=
  { s with buf := Memory.write s.buf s.fill.toNat byte, fill := s.fill + 1#16 }

/-! ### The fresh-IV port (42_segmentation_iv.md R118) -/

/-- Whether the source will offer `n` more bytes. -/
def IvPort.canSupply (p : IvPort) (n : Nat) : Bool := p.thenFree || n ≤ p.offered.length

/-- The byte the source offers `j` bytes from now: a listed one, or a free value. -/
def IvPort.byteAt (p : IvPort) (j : Nat) : Byte :=
  match p.offered[j]? with
  | some b => b
  | none => Config.freshIvByte (p.taken + j)

/-- The port after ORC has taken `n` bytes. -/
def IvPort.advance (p : IvPort) (n : Nat) : IvPort :=
  { p with offered := p.offered.drop n, taken := p.taken + n }

/-- The state after `n` `IvDraw()`s (R13). -/
def takeIv (n : Nat) (s : State) : State := { s with ivin := IvPort.advance s.ivin n }

/-- ORC is waiting inside ENC for an IV byte the source does not offer: PHASE stands at IVSEED between two
steps only then (R27, R190, U15). -/
def stalled (s : State) : Bool := s.phase = .ivseed

/-! ### Reset (70_reset_and_hazards.md R179, R180) -/

/-- "every register, array and queue <- its reset value" (R150). The build, the fresh-IV source, the
host's pending accesses and what the host has read are not ORC's state and stay. -/
def resetState (s : State) : State :=
  { State.resetOf s.cfg with ivin := s.ivin, inbox := s.inbox, replies := s.replies }

/-! ### The host's read data (R36) -/

/-- The word returned to a host read. -/
def reply (w : Word) (s : State) : State := { s with replies := s.replies ++ [w] }

end Sys2Proof.Machine
end

