-- ==== Sys2Proof/Machine/Operands.lean ====
section
/-! DEFINITION. What a command operates on: the key window, ORC's one addressing mode (40_key_material.md
R83 to R86, R92, R93), the slice and chain blocks (43_chaining_engine.md R129 to R131), and the IV
block (42_segmentation_iv.md R116, R117). -/

namespace Sys2Proof.Machine

/-- `TLEN = KLEN * BS`, an exact product (R83). -/
def tlen (s : State) : Nat := s.klen.toNat * s.bs.toNat

/-- `Tiled(a) = KEY[a mod KLEN]` (R84). -/
def tiled (s : State) (a : Nat) : Byte := Memory.read s.key (a % s.klen.toNat)

/-- `Window(o, n)` (R85): the source's windowAt(o), cut to n bytes; it wraps byte by byte at TLEN. -/
def window (s : State) (o n : Nat) : List Byte :=
  (List.range n).map fun j => tiled s ((o % tlen s + j) % tlen s)

/-- `BUF[0..n)`, the slice (R128). -/
def sliceBytes (s : State) (n : Nat) : List Byte := Memory.readRun s.buf n

/-- `PREV[0..n)`, the chain block cut to the slice length (R100, R131). -/
def prevBytes (s : State) (n : Nat) : List Byte := Memory.readRun s.prev n

/-- The input of `forward` in the encryption arm: the slice, XORed with the chain block when CHAIN
is 1 (R129). -/
def chainIn (s : State) (n : Nat) : List Byte :=
  if s.chain then xorBytes (sliceBytes s n) (prevBytes s n) else sliceBytes s n

/-- The output of the decryption arm: the result of `inverse`, XORed with the chain block when
CHAIN is 1 (R130). -/
def chainOut (s : State) (y : List Byte) : List Byte :=
  if s.chain then xorBytes y (prevBytes s y.length) else y

/-- `IvBlock(ivsel)` (R116): byte j is the j-th fresh byte from now, or `IVFIX[j]`. -/
def ivBlock (ivsel : Bool) (s : State) : List Byte :=
  (List.range s.bs.toNat).map fun j =>
    if ivsel then Memory.read s.ivfix j else IvPort.byteAt s.ivin j

/-- `rep(FILLER, BS) ^ iv` (R117): the block the IV-seed step hands to `forward`, in both settings
of `chain`. -/
def seedBlock (ivsel : Bool) (s : State) : List Byte :=
  xorBytes (List.replicate s.bs.toNat s.filler) (ivBlock ivsel s)

/-- How many bytes an accepted ENC takes from IVIN: BS with `ivsel = 0`, none otherwise (R116). -/
def ivDraws (ivsel : Bool) (s : State) : Nat := if ivsel then 0 else s.bs.toNat

/-- `OFF <- BS mod TLEN`: the key offset of the first data slice (R125, R127). -/
def firstOffset (s : State) : State :=
  { s with off := BitVec.ofNat 24 (s.bs.toNat % tlen s) }

/-- `OFF <- (OFF + BS) mod TLEN`, by BS also after a tail (R128). -/
def advanceOffset (s : State) : State :=
  { s with off := BitVec.ofNat 24 ((s.off.toNat + s.bs.toNat) % tlen s) }

end Sys2Proof.Machine
end

