-- ==== Sys2Proof/Machine/KeyMaterial.lean ====
section
/-! DEFINITION. The key-material unit's commands KEYCLR, KEYB, KWIN (40_key_material.md R88 to R90). -/

namespace Sys2Proof.Machine

/-- KEYCLR (R88): the bytes of KEY are not erased, only made unreachable. -/
def execKeyclr (s : State) : Result :=
  if s.phase ≠ .idle then .next (raise .illegalCommand s)
  else .next { s with klen := 0#16 }

/-- KEYB byte (R89). -/
def execKeyb (byte : BitVec 8) (s : State) : Result :=
  if s.phase ≠ .idle then .next (raise .illegalCommand s)
  else if s.klen.toNat = s.cfg.keyMax then .next (raise .illegalCommand s)
  else .next { s with key := Memory.write s.key s.klen.toNat byte, klen := s.klen + 1#16 }

/-- KWIN off (R90): `off` is reduced modulo TLEN inside the window. -/
def execKwin (off : BitVec 24) (s : State) : Result :=
  if s.phase ≠ .idle then .next (raise .illegalCommand s)
  else
    match startCheck (clearFlags s) with
    | some e => .next (raise e (clearFlags s))
    | none =>
      .next { emitEnd (emitBytes (window s off.toNat s.bs.toNat) (clearFlags s)) with done := true }

end Sys2Proof.Machine
end

