-- ==== Sys2Proof/Machine/Transform.lean ====
section
/-! DEFINITION. The block-transform unit BTU (41_block_transform.md R94 to R101): `forward` and
`inverse` with the unit's own check of the operand lengths. -/

namespace Sys2Proof.Machine

/-- `forward(data, keyBlock)` (R94). Unequal lengths raise BlockLengthMismatch (R99). The reference
transform is byte-wise XOR (R97). -/
def forward (x : Xform) (data keyBlock : List Byte) : Except ErrKind (List Byte) :=
  if h : keyBlock.length = data.length then
    match x with
    | .xor => .ok (xorBytes data keyBlock)
    | .other => .ok (Config.otherTransform data.length ⟨keyBlock, h⟩ ⟨data, rfl⟩).val
  else .error .blockLengthMismatch

/-- `inverse(data, keyBlock)` (R94), with the same check (R99); XOR is its own inverse (R97). -/
def inverse (x : Xform) (data keyBlock : List Byte) : Except ErrKind (List Byte) :=
  if h : keyBlock.length = data.length then
    match x with
    | .xor => .ok (xorBytes data keyBlock)
    | .other => .ok ((Config.otherTransform data.length ⟨keyBlock, h⟩).symm ⟨data, rfl⟩).val
  else .error .blockLengthMismatch

end Sys2Proof.Machine
end

