-- ==== Sys2Proof/Machine/Sequencer.lean ====
section
/-! DEFINITION. The chaining sequencer SEQ (43_chaining_engine.md R123 to R131): the IV-seed step, the
drop step, the block step with its two arms, and the commands ENC and DEC. A step that can raise
answers `.ok` with the state to go on from, or `.error` with the state the raised error leaves. -/

namespace Sys2Proof.Machine

/-- The rest of the IV-seed step once `forward` has answered `c0` (R125): emit c0, PREV, OFF. -/
def seedWith (c0 : List Byte) (s : State) : State := firstOffset (setPrev c0 (emitBytes c0 s))

/-- `IvSeedStep(ivsel)` (R125), with the draws of R116. A length mismatch, which the lengths rule
out (R101), would be raised as in a block step (log entry 16). -/
def ivSeedStep (ivsel : Bool) (s : State) : Except State State :=
  match forward s.cfg.xform (seedBlock ivsel s) (window s 0 s.bs.toNat) with
  | .ok c0 => .ok (seedWith c0 (takeIv (ivDraws ivsel s) s))
  | .error e => .error (raise e (takeIv (ivDraws ivsel s) s))

/-- `DropStep()` (R127). -/
def dropStep (s : State) : State :=
  { firstOffset (setPrev (sliceBytes s s.bs.toNat) s) with phase := .main }

/-- `EncArm(n, kb)` (R129): PREV takes the new ciphertext, in both settings of CHAIN. -/
def encArm (n : Nat) (kb : List Byte) (s : State) : Except State State :=
  match forward s.cfg.xform (chainIn s n) kb with
  | .ok y => .ok (setPrev y (emitBytes y s))
  | .error e => .error (raise e s)

/-- `DecArm(n, kb)` (R130): the XOR uses the old PREV; PREV takes the cipher slice, not the result. -/
def decArm (n : Nat) (kb : List Byte) (s : State) : Except State State :=
  match inverse s.cfg.xform (sliceBytes s n) kb with
  | .ok y => .ok (setPrev (sliceBytes s n) (emitBytes (chainOut s y) s))
  | .error e => .error (raise e s)

/-- The arm DIR selects (R128). -/
def blockArm (n : Nat) (kb : List Byte) (s : State) : Except State State :=
  match s.dir with
  | .encrypt => encArm n kb s
  | .decrypt => decArm n kb s

/-- `BlockStep(n)` (R128): the key block is cut to the slice length (R93); OFF advances by BS. -/
def blockStep (n : Nat) (s : State) : Except State State :=
  match blockArm n (window s s.off.toNat n) s with
  | .ok s' => .ok (advanceOffset s')
  | .error s' => .error s'

/-- `DIR <- 0; CHAIN <- chain; IVSEL <- ivsel; FILL <- 0; PHASE <- IVSEED` (R123). -/
def openEncrypt (chain ivsel : Bool) (s : State) : State :=
  { s with dir := .encrypt, chain := chain, ivsel := ivsel, fill := 0#16, phase := .ivseed }

/-- ENC when the source will not offer BS bytes: ORC takes those it is offered, one `IvDraw()` after the
other, and waits for the next in phase IVSEED, inside `IvSeedStep` (R118, R123, R190, U15; log entry 4). -/
def waitForIv (chain ivsel : Bool) (s : State) : State :=
  takeIv s.ivin.offered.length (openEncrypt chain ivsel s)

/-- ENC chain, ivsel (R123). -/
def execEnc (chain ivsel : Bool) (s : State) : Result :=
  if s.phase ≠ .idle then .next (raise .illegalCommand s)
  else
    match startCheck (clearFlags s) with
    | some e => .next (raise e (clearFlags s))
    | none =>
      if IvPort.canSupply s.ivin (ivDraws ivsel s) then
        match ivSeedStep ivsel (openEncrypt chain ivsel (clearFlags s)) with
        | .ok s' => .next { s' with phase := .main }
        | .error s' => .next s'
      else .next (waitForIv chain ivsel (clearFlags s))

/-- DEC chain (R126). IVSEL is not written. -/
def execDec (chain : Bool) (s : State) : Result :=
  if s.phase ≠ .idle then .next (raise .illegalCommand s)
  else
    match startCheck (clearFlags s) with
    | some e => .next (raise e (clearFlags s))
    | none =>
      .next { clearFlags s with dir := .decrypt, chain := chain, fill := 0#16, off := 0#24, phase := .drop }

end Sys2Proof.Machine
end

