-- ==== Sys2Proof/Machine/Segmentation.lean ====
section
/-! DEFINITION. The segmentation and IV front-end SEG (42_segmentation_iv.md R105 to R111): the
configuration commands SETBS, SETFILL, IVCLR, IVB and the stream commands DATA, FIN. -/

namespace Sys2Proof.Machine

/-- SETBS size (R105): any 16-bit value, unchecked. -/
def execSetbs (size : BitVec 16) (s : State) : Result :=
  if s.phase ≠ .idle then .next (raise .illegalCommand s)
  else .next { s with bs := size }

/-- SETFILL byte (R106). -/
def execSetfill (byte : BitVec 8) (s : State) : Result :=
  if s.phase ≠ .idle then .next (raise .illegalCommand s)
  else .next { s with filler := byte }

/-- IVCLR (R107): every byte of IVFIX becomes 0x00, which is what an unlisted index reads as. -/
def execIvclr (s : State) : Result :=
  if s.phase ≠ .idle then .next (raise .illegalCommand s)
  else .next { s with ivfix := [], ivlen := 0#16 }

/-- IVB byte (R108). -/
def execIvb (byte : BitVec 8) (s : State) : Result :=
  if s.phase ≠ .idle then .next (raise .illegalCommand s)
  else if s.ivlen.toNat = s.cfg.bsMax then .next (raise .illegalCommand s)
  else .next { s with ivfix := Memory.write s.ivfix s.ivlen.toNat byte, ivlen := s.ivlen + 1#16 }

/-- What DATA does when the slice is complete (R110): the drop step or a block step, then FILL <- 0. -/
def completeSlice (s : State) : Result :=
  if s.phase = .drop then .next { dropStep s with fill := 0#16 }
  else
    match blockStep s.bs.toNat s with
    | .ok s' => .next { s' with fill := 0#16 }
    | .error s' => .next s'

/-- DATA byte (R110). -/
def execData (byte : BitVec 8) (s : State) : Result :=
  if s.phase ≠ .drop ∧ s.phase ≠ .main then .next (raise .illegalCommand s)
  else if (bufferByte byte s).fill = s.bs then completeSlice (bufferByte byte s)
  else .next (bufferByte byte s)

/-- `emit End; DONE <- 1; PHASE <- IDLE` (R111, R133). -/
def closeOutput (s : State) : State := { emitEnd s with done := true, phase := .idle }

/-- FIN (R111): ShortCipher in DROP; otherwise the tail step if FILL > 0, at the tail's own length. -/
def execFin (s : State) : Result :=
  if s.phase ≠ .drop ∧ s.phase ≠ .main then .next (raise .illegalCommand s)
  else if s.phase = .drop then .next (raise .shortCipher s)
  else if s.fill = 0#16 then .next (closeOutput { s with phase := .drain })
  else
    match blockStep s.fill.toNat { s with phase := .drain } with
    | .ok s' => .next (closeOutput { s' with fill := 0#16 })
    | .error s' => .next s'

end Sys2Proof.Machine
end

