-- ==== Sys2Proof/Machine/System.lean ====
section
/-! DEFINITION. The system commands NOP and SRST (44_system_commands.md R149, R150). -/

namespace Sys2Proof.Machine

/-- NOP (R149): nothing; it does not clear ERR or DONE. -/
def execNop (s : State) : Result := .next s

/-- SRST (R150): exactly the effect of hardware reset, legal in every phase. -/
def execSrst (s : State) : Result := .next (resetState s)

end Sys2Proof.Machine
end

