-- ==== Sys2Proof/Machine/Dispatch.lean ====
section
/-! DEFINITION. One arm per command of 30_encoding.md R66: the meaning of each. -/

namespace Sys2Proof.Machine

def exec (i : Instr) (s : State) : Host.Outcome State Fault Refusal :=
  match i with
  | .nop => Sys2Proof.Machine.execNop s
  | .srst => Sys2Proof.Machine.execSrst s
  | .keyclr => Sys2Proof.Machine.execKeyclr s
  | .keyb byte => Sys2Proof.Machine.execKeyb byte s
  | .kwin off => Sys2Proof.Machine.execKwin off s
  | .setbs size => Sys2Proof.Machine.execSetbs size s
  | .setfill byte => Sys2Proof.Machine.execSetfill byte s
  | .ivclr => Sys2Proof.Machine.execIvclr s
  | .ivb byte => Sys2Proof.Machine.execIvb byte s
  | .enc chain ivsel => Sys2Proof.Machine.execEnc chain ivsel s
  | .dec chain => Sys2Proof.Machine.execDec chain s
  | .data byte => Sys2Proof.Machine.execData byte s
  | .fin => Sys2Proof.Machine.execFin s

end Sys2Proof.Machine
end

