-- ==== Sys2Proof/Machine/Flags.lean ====
section
/-! DEFINITION. The numeric codes of phases and errors and the words of the host-readable registers
(10_state.md R27, R37 to R41; 60_exceptions.md R158). -/

namespace Sys2Proof.Machine

/-- The value of PHASE (R27). -/
def Phase.code : Phase → BitVec 3
  | .idle => 0
  | .ivseed => 1
  | .drop => 2
  | .main => 3
  | .drain => 4

/-- The value of DIR (R22). -/
def Dir.bit : Dir → BitVec 1
  | .encrypt => 0
  | .decrypt => 1

/-- The code of an error (R158). -/
def ErrKind.code : ErrKind → BitVec 4
  | .invalidKey => 1
  | .blockLengthMismatch => 2
  | .invalidBlockSize => 3
  | .shortCipher => 4
  | .illegalCommand => 5

/-- The value of ERR: 0 when no error was raised (R32, R158). -/
def errCode : Option ErrKind → BitVec 4
  | none => 0
  | some e => e.code

/-- STATUS.OUTV: 1 when OUT is not empty (R37). -/
def outValid (s : State) : Bool := !s.out.isEmpty

/-- The STATUS word (R37): ERR 11:8, OUTV 7, DONE 6, IVSEL 5, CHAIN 4, DIR 3, PHASE 2:0. -/
def statusWord (s : State) : Word :=
  0#20 ++ errCode s.err ++ BitVec.ofBool (outValid s) ++ BitVec.ofBool s.done ++
    BitVec.ofBool s.ivsel ++ BitVec.ofBool s.chain ++ s.dir.bit ++ s.phase.code

/-- The STATUS word in a stall inside ENC: PHASE reads 1, bits 31:12 read 0, the other fields are the
free values of the host's read number `n` (U11, U12, log entry 18). -/
def stallStatusWord (n : Nat) : Word :=
  0#20 ++ BitVec.ofNat 4 (Config.stallErr n).val ++ Config.stallFlags n ++ Phase.ivseed.code

/-- The CONFIG word (R38): FILLER 23:16, BS 15:0. -/
def configWord (s : State) : Word := 0#8 ++ s.filler ++ s.bs

/-- The LENGTHS word (R39): IVLEN 31:16, KLEN 15:0. -/
def lengthsWord (s : State) : Word := s.ivlen ++ s.klen

/-- The OFFSET word (R40): OFF 23:0. -/
def offsetWord (s : State) : Word := 0#8 ++ s.off

/-- The FILLCNT word (R40): FILL 15:0. -/
def fillcntWord (s : State) : Word := 0#16 ++ s.fill

/-- A token as the host reads it from OUT (R41, R72): VALID 31, END 8, byte 7:0. -/
def Token.word : Token → Word
  | .byte b => 1#1 ++ 0#23 ++ b
  | .endMark => 1#1 ++ 0#22 ++ 1#1 ++ 0#8

end Sys2Proof.Machine
end

