-- ==== Sys2Proof/Machine/HostWindow.lean ====
section
/-! DEFINITION. The host register window and the port CMD (10_state.md R35 to R41, 30_encoding.md R67,
44_system_commands.md R151 to R156): what one access of the host does. -/

namespace Sys2Proof.Machine

/-- One command word (R67, R71): the decoded command, or IllegalCommand for an illegal word (R68). -/
def runWord (w : Word) (s : State) : Result :=
  match decode w with
  | .ok i => exec i s
  | .error _ => .next (raise .illegalCommand s)

/-- `ReadOUT` (R41, R155): pops the head token when one is present. -/
def readOut (s : State) : Word × State :=
  match s.out with
  | [] => (0#32, s)
  | t :: rest => (t.word, { s with out := rest })

/-- The word STATUS reads (R37, R151; U12 in a stall). -/
def statusRead (s : State) : Word :=
  if stalled s then stallStatusWord s.replies.length else statusWord s

/-- The word OFFSET reads (R40, R154; in a stall log entry 18). -/
def offsetRead (s : State) : Word :=
  if stalled s then 0#8 ++ Config.stallOffset s.replies.length else offsetWord s

/-- The word FILLCNT reads (R40, R154; in a stall log entry 18). -/
def fillcntRead (s : State) : Word :=
  if stalled s then 0#16 ++ Config.stallFill s.replies.length else fillcntWord s

/-- A read of the word at byte offset `addr` (R36, R151 to R156): the word returned and the state
after it. CMD and the reserved word read 0. -/
def readWindow (addr : Nat) (s : State) : Word × State :=
  match addr with
  | 0x04 => (statusRead s, s)
  | 0x08 => (configWord s, s)
  | 0x0C => (lengthsWord s, s)
  | 0x10 => readOut s
  | 0x14 => (offsetRead s, s)
  | 0x18 => (fillcntRead s, s)
  | _ => (0#32, s)

/-- A write of a word at byte offset `addr` (R36, R156): at 0x00 it issues the command word; at any
other offset of the window it is ignored. -/
def writeWindow (addr : Nat) (value : Word) (s : State) : Result :=
  match addr with
  | 0x00 => runWord value s
  | _ => .next s

/-- The accesses this interface defines: aligned and 32 bits wide (R53). -/
def accessDefined (addr bytes : Nat) : Bool := bytes = 4 && addr % 4 = 0

/-- An access beyond offset 0x1F is outside ORC, which "sees nothing" of it (U14, log entry 9). -/
def inWindow (addr : Nat) : Bool := addr < 0x20

/-- One access of the world outside (R35, R36, R179). -/
def serve (e : HostEvent) (s : State) : Result :=
  match e with
  | .hardReset => .next (resetState s)
  | .write addr bytes value =>
    if !inWindow addr then .next s
    else if accessDefined addr bytes then writeWindow addr value s
    else .refused (.badHostAccess addr bytes)
  | .read addr bytes =>
    if !inWindow addr then .next s
    else if accessDefined addr bytes then
      .next (reply (readWindow addr s).1 (readWindow addr s).2)
    else .refused (.badHostAccess addr bytes)

/-- A word written to CMD. -/
def isCommandWord (e : HostEvent) : Bool :=
  match e with
  | .write addr bytes _ => addr = 0x00 && bytes = 4
  | .read _ _ => false
  | .hardReset => false

/-- ORC is stalled inside ENC and the host's next access is a command word, which "the CMD port accepts
... while a command is running" no more than any other, SRST included (U15); or the host has none. -/
def blocked (s : State) : Bool :=
  stalled s &&
    match s.inbox with
    | [] => true
    | e :: _ => isCommandWord e

/-- The accesses without the oldest hardware reset, if there is one. -/
def withoutReset : List HostEvent → Option (List HostEvent)
  | [] => none
  | .hardReset :: rest => some rest
  | e :: rest => (withoutReset rest).map fun l => e :: l

/-- Blocked, ORC waits for the hardware reset input, which alone ends the stall (R190, U15); the accesses
the host has not had served stay. With no reset to come ORC is stuck. -/
def awaitReset (s : State) : Result :=
  match withoutReset s.inbox with
  | some rest => .next (resetState { s with inbox := rest })
  | none => .fault .ivSourceSilent

/-- The access that issues a command word: an aligned 32-bit write of CMD (R35, R36). -/
def cmdWrite (w : Word) : HostEvent := .write 0x00 4 w

/-- The host issues commands: their words wait at CMD, in order, before what it does later (R59). -/
def issue (is : List Instr) (s : State) : State :=
  { s with inbox := is.map (fun i => cmdWrite (encode i)) ++ s.inbox }

end Sys2Proof.Machine
end

