-- ==== Sys2Proof/Machine/Step.lean ====
section
/-! DEFINITION. One step: ORC serves the oldest access the host has not had served (R59), or waits (R180);
stalled inside ENC it waits for the hardware reset input (R190). -/

namespace Sys2Proof.Machine

/-- One step. With no access pending ORC waits for one: nothing changes (log entry 7). Stalled
inside ENC it still serves the host's reads, and no command word (log entry 4). -/
def step (s : State) : Host.Outcome State Fault Refusal :=
  if blocked s then awaitReset s
  else
    match s.inbox with
    | [] => .next s
    | e :: rest => serve e { s with inbox := rest }

/-- `s` with a command word as the very next thing the host does: the write of CMD the next step
serves (log entry 11). ORC fetches nothing (R30); "the host delivers each command word". A
stalled ORC accepts no word (U15), this one neither. -/
def State.withFetchWord (s : State) (nbits w : Nat) : State :=
  { s with inbox := cmdWrite (BitVec.ofNat 32 (w % 2 ^ nbits)) :: s.inbox }

end Sys2Proof.Machine
end

