-- ==== Sys2Proof/Machine/Assembler.lean ====
section
/-! DEFINITION. The text of the assembler (30_encoding.md R73, R74): one line, as a list of characters,
read as a statement. Outside the machine: no step uses it. The lexical details R73 leaves open are
log entry 15. -/

namespace Sys2Proof.Machine

/-- "a `;` starts a comment" (R73). -/
def stripComment (line : List Char) : List Char := line.takeWhile fun ch => ch ≠ ';'

/-- Blanks: the space and the tab. -/
def isBlank (ch : Char) : Bool := ch = ' ' || ch = '\t'

/-- A text without the blanks before and after it. -/
def trim (t : List Char) : List Char :=
  ((t.dropWhile isBlank).reverse.dropWhile isBlank).reverse

/-- The operands, "separated by commas" (R73), each trimmed. -/
def operands : List Char → List (List Char)
  | [] => [[]]
  | ch :: rest =>
    match operands rest with
    | [] => [[]]
    | first :: more => if ch = ',' then [] :: first :: more else (ch :: first) :: more

/-- A decimal or hexadecimal digit. -/
def digitValue (base : Nat) (ch : Char) : Option Nat :=
  let v :=
    if '0' ≤ ch && ch ≤ '9' then some (ch.toNat - 48)
    else if 'a' ≤ ch && ch ≤ 'f' then some (ch.toNat - 87)
    else if 'A' ≤ ch && ch ≤ 'F' then some (ch.toNat - 55)
    else none
  v.bind fun d => if d < base then some d else none

/-- Digits after the value `acc` of those before. -/
def digits (base : Nat) : Nat → List Char → Option Nat
  | acc, [] => some acc
  | acc, ch :: rest => (digitValue base ch).bind fun d => digits base (acc * base + d) rest

/-- "numbers are decimal or `0x` hexadecimal" (R73). -/
def number : List Char → Option Nat
  | [] => none
  | '0' :: 'x' :: h :: hs => digits 16 0 (h :: hs)
  | ch :: rest => digits 10 0 (ch :: rest)

/-- A run of numbers. -/
def numbers : List (List Char) → Option (List Nat)
  | [] => some []
  | t :: ts => (number t).bind fun n => (numbers ts).map fun ns => n :: ns

/-- `cbc` or `ecb` (R73). -/
def chainWord (t : List Char) : Option ChainWord :=
  if t = "ecb".toList then some .ecb else if t = "cbc".toList then some .cbc else none

/-- `fresh` or `fixed` (R73). -/
def ivWord (t : List Char) : Option IvWord :=
  if t = "fresh".toList then some .fresh else if t = "fixed".toList then some .fixed else none

/-- A statement that takes no operand. -/
def noOperand (a : AsmStmt) : List (List Char) → Option AsmStmt
  | [] => some a
  | _ :: _ => none

/-- A statement that takes one number. -/
def oneNumber (f : Nat → AsmStmt) : List (List Char) → Option AsmStmt
  | [t] => (number t).map f
  | _ => none

/-- The statement of a mnemonic, "in capitals", and its operands (R73, R74). -/
def statement (m : List Char) (ops : List (List Char)) : Option AsmStmt :=
  if m = "NOP".toList then noOperand .nop ops
  else if m = "SRST".toList then noOperand .srst ops
  else if m = "KEYCLR".toList then noOperand .keyclr ops
  else if m = "KEYB".toList then oneNumber .keyb ops
  else if m = "KWIN".toList then oneNumber .kwin ops
  else if m = "SETBS".toList then oneNumber .setbs ops
  else if m = "SETFILL".toList then oneNumber .setfill ops
  else if m = "IVCLR".toList then noOperand .ivclr ops
  else if m = "IVB".toList then oneNumber .ivb ops
  else if m = "ENC".toList then
    match ops with
    | [a, b] => (chainWord a).bind fun c => (ivWord b).map fun v => .enc c v
    | _ => none
  else if m = "DEC".toList then
    match ops with
    | [a] => (chainWord a).map .dec
    | _ => none
  else if m = "DATA".toList then oneNumber .data ops
  else if m = "FIN".toList then noOperand .fin ops
  else if m = "KEY".toList then (numbers ops).map .key
  else if m = "IV".toList then (numbers ops).map .iv
  else if m = "STREAM".toList then (numbers ops).map .stream
  else if m = "ENCRYPT".toList then
    match ops with
    | a :: b :: rest =>
      (chainWord a).bind fun c => (ivWord b).bind fun v => (numbers rest).map fun bs => .encrypt c v bs
    | _ => none
  else if m = "DECRYPT".toList then
    match ops with
    | a :: rest => (chainWord a).bind fun c => (numbers rest).map fun bs => .decrypt c bs
    | _ => none
  else none

/-- The words one line stands for: none of them for a line with nothing but blanks and a comment;
`none` for a line that is no statement or an assembly error (R73). -/
def assembleLine (line : List Char) : Option (List Word) :=
  let text := trim (stripComment line)
  let m := text.takeWhile fun ch => !isBlank ch
  let rest := trim (text.dropWhile fun ch => !isBlank ch)
  if text = [] then some []
  else (statement m (if rest = [] then [] else (operands rest).map trim)).bind assemble

end Sys2Proof.Machine
end

