-- ==== Sys2Proof/Machine/Stream.lean ====
section
/-! DEFINITION. The call-level contract (43_chaining_engine.md R136): encryption and decryption as
functions of whole byte sequences, independent of the sequencer's registers. Outside R136's preconditions
(a raw key of at least one byte, a block size of at least 1, an IV of bs bytes, a cipher stream of at least
bs bytes) the spec gives them no value; the errors they answer there are the model's choice (log entry 17). -/

namespace Sys2Proof.Machine

/-- `W(o, n) = [K[(o + j) mod L] for j in 0..n-1]` (R136). -/
def keyWindow (K : List Byte) (o n : Nat) : List Byte :=
  (List.range n).map fun j => K.getD ((o + j) % K.length) 0#8

/-- The slices of `S` (R112): `S[i*bs .. (i+1)*bs)` for i = 0, 1, ... while `i*bs < len(S)`, that is
ceil(len(S) / bs) of them; the last may be shorter. -/
def slices (bs : Nat) (S : List Byte) : List (List Byte) :=
  (List.range ((S.length + bs - 1) / bs)).map fun i => (S.drop (i * bs)).take bs

/-- The loop of `EncryptStream` (R136) over the remaining slices: `o` is the key offset of the next
one, `prev` the previous ciphertext block. -/
def encryptSlices (x : Xform) (K : List Byte) (c : Bool) (bs : Nat) :
    Nat → List Byte → List (List Byte) → Except ErrKind (List Byte)
  | _, _, [] => .ok []
  | o, prev, S :: rest =>
    match forward x (if c then xorBytes S (prev.take S.length) else S) (keyWindow K o S.length) with
    | .error e => .error e
    | .ok C =>
      match encryptSlices x K c bs (o + bs) C rest with
      | .error e => .error e
      | .ok out => .ok (C ++ out)

/-- What R136 asks of the key and the block size, in the order of R124: with a block size of 0 or an empty
key the call answers the error the command would raise (R157; the model's choice, log entry 17). -/
def callCheck (K : List Byte) (bs : Nat) : Option ErrKind :=
  if bs = 0 then some .invalidBlockSize
  else if K = [] then some .invalidKey
  else none

/-- The body of `EncryptStream` (R136). -/
def encryptBody (x : Xform) (P K : List Byte) (c : Bool) (bs : Nat) (f : Byte) (iv : List Byte) :
    Except ErrKind (List Byte) :=
  match forward x (xorBytes (List.replicate bs f) iv) (keyWindow K 0 bs) with
  | .error e => .error e
  | .ok C0 =>
    match encryptSlices x K c bs bs C0 (slices bs P) with
    | .error e => .error e
    | .ok out => .ok (C0 ++ out)

/-- `EncryptStream(P, K, c, bs, f, iv)` (R136), for the transform `x`. It requires a non-empty key, bs of at
least 1 and an IV of bs bytes. What it answers otherwise is the model's choice (log entry 17): InvalidKey,
InvalidBlockSize; for a shorter IV the transform's own BlockLengthMismatch; of a longer IV the first bytes. -/
def encryptStream (x : Xform) (P K : List Byte) (c : Bool) (bs : Nat) (f : Byte) (iv : List Byte) :
    Except ErrKind (List Byte) :=
  match callCheck K bs with
  | some e => .error e
  | none => encryptBody x P K c bs f iv

/-- The loop of `DecryptStream` (R136): `prev` is the raw cipher slice before. -/
def decryptSlices (x : Xform) (K : List Byte) (c : Bool) (bs : Nat) :
    Nat → List Byte → List (List Byte) → Except ErrKind (List Byte)
  | _, _, [] => .ok []
  | o, prev, S :: rest =>
    match inverse x S (keyWindow K o S.length) with
    | .error e => .error e
    | .ok Y =>
      match decryptSlices x K c bs (o + bs) S rest with
      | .error e => .error e
      | .ok out => .ok ((if c then xorBytes Y (prev.take S.length) else Y) ++ out)

/-- `DecryptStream(C, K, c, bs)` (R136), for the transform `x`. It requires a non-empty key, bs of at least 1
and `len(C) >= bs`. What it answers otherwise is the model's choice (log entry 17): InvalidKey,
InvalidBlockSize, and ShortCipher for a stream of fewer than bs bytes, as FIN raises it (R162), so that no
plaintext is invented for it (92_eei_decisions.md D11, 91_not_in_source.md N8). -/
def decryptStream (x : Xform) (C K : List Byte) (c : Bool) (bs : Nat) : Except ErrKind (List Byte) :=
  match callCheck K bs with
  | some e => .error e
  | none =>
    if C.length < bs then .error .shortCipher
    else decryptSlices x K c bs bs (C.take bs) (slices bs (C.drop bs))

end Sys2Proof.Machine
end

