-- ==== Sys2Proof/Safety.lean ====
section
/-! DEFINITION. What counts as a legal state and a safe run of ORC, and the tables of the spec that say
which command is accepted where. -/

namespace Sys2Proof.Machine

/-- The acceptance table of 30_encoding.md R70: whether a command is accepted in a phase. Only IDLE,
DROP and MAIN occur between commands; the two transient phases stand with "no", but for NOP and SRST. -/
def allowedIn (i : Instr) (p : Phase) : Bool :=
  match i with
  | .nop => true
  | .srst => true
  | .keyclr => p = .idle
  | .keyb _ => p = .idle
  | .kwin _ => p = .idle
  | .setbs _ => p = .idle
  | .setfill _ => p = .idle
  | .ivclr => p = .idle
  | .ivb _ => p = .idle
  | .enc _ _ => p = .idle
  | .dec _ => p = .idle
  | .data _ => p = .drop || p = .main
  | .fin => p = .drop || p = .main

/-- The preconditions of an operation hold (R124): a legal block size and a key. -/
def checksPass (s : State) : Bool :=
  1 ≤ s.bs.toNat && s.bs.toNat ≤ s.cfg.bsMax && 1 ≤ s.klen.toNat

/-- The source at IVIN will offer every byte the command asks for (R118): only ENC with a fresh IV asks. -/
def ivReady (i : Instr) (s : State) : Bool :=
  match i with
  | .enc _ ivsel => IvPort.canSupply s.ivin (ivDraws ivsel s)
  | .nop => true
  | .srst => true
  | .keyclr => true
  | .keyb _ => true
  | .kwin _ => true
  | .setbs _ => true
  | .setfill _ => true
  | .ivclr => true
  | .ivb _ => true
  | .dec _ => true
  | .data _ => true
  | .fin => true

/-- The phase after a command, by the transition table of 43_chaining_engine.md R135; IVSEED while ENC waits
for a source that never delivers (R190). -/
def phaseAfter (i : Instr) (s : State) : Phase :=
  match i with
  | .srst => .idle
  | .enc _ _ =>
    if s.phase = .idle ∧ checksPass s = true then
      if ivReady i s = true then .main else .ivseed
    else s.phase
  | .dec _ => if s.phase = .idle ∧ checksPass s = true then .drop else s.phase
  | .data _ => if s.phase = .drop ∧ s.fill.toNat + 1 = s.bs.toNat then .main else s.phase
  | .fin => if s.phase = .drop ∨ s.phase = .main then .idle else s.phase
  | .nop => s.phase
  | .keyclr => s.phase
  | .keyb _ => s.phase
  | .kwin _ => s.phase
  | .setbs _ => s.phase
  | .setfill _ => s.phase
  | .ivclr => s.phase
  | .ivb _ => s.phase

/-- Whether a command is one of those that clear ERR and DONE when accepted in IDLE: ENC, DEC, KWIN (R31, R32). -/
def clearsFlags : Instr → Bool
  | .nop => false
  | .srst => false
  | .keyclr => false
  | .keyb _ => false
  | .kwin _ => true
  | .setbs _ => false
  | .setfill _ => false
  | .ivclr => false
  | .ivb _ => false
  | .enc _ _ => true
  | .dec _ => true
  | .data _ => false
  | .fin => false

/-- Whether a command finds its array full: KEYB the key memory, IVB the fixed IV (R163 c, d). -/
def arrayFull (i : Instr) (s : State) : Bool :=
  match i with
  | .keyb _ => s.klen.toNat = s.cfg.keyMax
  | .ivb _ => s.ivlen.toNat = s.cfg.bsMax
  | .nop => false
  | .srst => false
  | .keyclr => false
  | .kwin _ => false
  | .setbs _ => false
  | .setfill _ => false
  | .ivclr => false
  | .enc _ _ => false
  | .dec _ => false
  | .data _ => false
  | .fin => false

/-- The error a well-formed command raises, by the priority list of 60_exceptions.md R167: the phase,
then a full array, then the block size, then the key; ShortCipher for FIN in DROP (R162). -/
def errorOf (i : Instr) (s : State) : Option ErrKind :=
  if allowedIn i s.phase = false then some .illegalCommand
  else if arrayFull i s = true then some .illegalCommand
  else if clearsFlags i = true ∧ (s.bs.toNat = 0 ∨ s.cfg.bsMax < s.bs.toNat) then some .invalidBlockSize
  else if clearsFlags i = true ∧ s.klen.toNat = 0 then some .invalidKey
  else if i = .fin ∧ s.phase = .drop then some .shortCipher
  else none

/-- ERR after a command (R32): the error raised; cleared by SRST and by ENC, DEC, KWIN; else as it was. -/
def errAfter (i : Instr) (s : State) : Option ErrKind :=
  match errorOf i s with
  | some e => some e
  | none => if i = .srst ∨ clearsFlags i = true then none else s.err

/-- DONE after a command (R31): cleared by ENC, DEC and KWIN accepted in IDLE, before their checks, and
by SRST; set by KWIN and FIN when they complete; else as it was. -/
def doneAfter (i : Instr) (s : State) : Bool :=
  match errorOf i s with
  | some _ => if clearsFlags i = true ∧ s.phase = .idle then false else s.done
  | none =>
    match i with
    | .kwin _ => true
    | .fin => true
    | .enc _ _ => false
    | .dec _ => false
    | .srst => false
    | .nop => s.done
    | .keyclr => s.done
    | .keyb _ => s.done
    | .setbs _ => s.done
    | .setfill _ => s.done
    | .ivclr => s.done
    | .ivb _ => s.done
    | .data _ => s.done

/-- A state ORC can be in between steps (10_state.md R16 to R32, the derived facts among them). -/
structure State.Inv (s : State) : Prop where
  /-- The build parameters keep R10's constraints. -/
  cfg_legal : s.cfg.legal = true
  key_wf : Memory.wf s.key = true
  /-- KEY holds nothing outside 0..KEY_MAX-1 (R16, R44). -/
  key_below : Memory.below s.key s.cfg.keyMax = true
  /-- KLEN is 0..KEY_MAX (R17). -/
  klen_le : s.klen.toNat ≤ s.cfg.keyMax
  ivfix_wf : Memory.wf s.ivfix = true
  /-- "bytes of IVFIX at indices >= IVLEN are 0x00" (R21). -/
  ivfix_below : Memory.below s.ivfix s.ivlen.toNat = true
  /-- IVLEN is 0..BS_MAX (R21). -/
  ivlen_le : s.ivlen.toNat ≤ s.cfg.bsMax
  buf_wf : Memory.wf s.buf = true
  /-- BUF holds nothing outside 0..BS_MAX-1 (R25, R44). -/
  buf_below : Memory.below s.buf s.cfg.bsMax = true
  prev_wf : Memory.wf s.prev = true
  /-- PREV holds nothing outside 0..BS_MAX-1 (R26, R44). -/
  prev_below : Memory.below s.prev s.cfg.bsMax = true
  /-- Between commands PHASE is IDLE, DROP or MAIN (R27); a step can end in IVSEED too, stalled inside ENC. -/
  phase_held : s.phase ≠ .drain
  /-- Only an encryption with a fresh IV stalls, its checks passed (R123), nothing collected, DONE cleared, and
  only at a source that never offers another byte (U15). -/
  stalled_enc : s.phase = .ivseed → s.dir = .encrypt ∧ s.ivsel = false ∧ s.fill = 0#16 ∧ s.done = false ∧
    checksPass s = true ∧ s.ivin.offered = [] ∧ s.ivin.thenFree = false
  /-- No slice is being collected in IDLE. -/
  fill_idle : s.phase = .idle → s.fill = 0#16
  /-- An open operation has a legal block size and a key (R124), 0 <= FILL < BS (R28), OFF below TLEN and
  a multiple of BS (R29), and DONE = 0 (R188). -/
  opened : s.phase = .drop ∨ s.phase = .main → 1 ≤ s.bs.toNat ∧ s.bs.toNat ≤ s.cfg.bsMax ∧ 1 ≤ s.klen.toNat ∧
    s.fill.toNat < s.bs.toNat ∧ s.off.toNat < tlen s ∧ s.bs.toNat ∣ s.off.toNat ∧ s.done = false
  /-- Only a decryption drops, and it starts at offset 0 (R126). -/
  dropping : s.phase = .drop → s.dir = .decrypt ∧ s.off = 0#24
  /-- BlockLengthMismatch is never raised (R101). -/
  err_reachable : s.err ≠ some .blockLengthMismatch

/-- Two states no host can tell apart: they differ at most in the bytes the spec leaves without a
value or never reads (93_implementation_defined.md U7, U8, U9): KEY at and above KLEN, BUF at and
above FILL, PREV outside MAIN and at and above BS. -/
structure State.SameSeen (s t : State) : Prop where
  key : ∀ i, i < s.klen.toNat → Memory.read s.key i = Memory.read t.key i
  klen : s.klen = t.klen
  bs : s.bs = t.bs
  filler : s.filler = t.filler
  ivfix : s.ivfix = t.ivfix
  ivlen : s.ivlen = t.ivlen
  dir : s.dir = t.dir
  chain : s.chain = t.chain
  ivsel : s.ivsel = t.ivsel
  buf : ∀ i, i < s.fill.toNat → Memory.read s.buf i = Memory.read t.buf i
  prev : s.phase = .main → ∀ i, i < s.bs.toNat → Memory.read s.prev i = Memory.read t.prev i
  phase : s.phase = t.phase
  fill : s.fill = t.fill
  off : s.off = t.off
  done : s.done = t.done
  err : s.err = t.err
  out : s.out = t.out
  cfg : s.cfg = t.cfg
  ivin : s.ivin = t.ivin
  inbox : s.inbox = t.inbox
  replies : s.replies = t.replies

end Sys2Proof.Machine
end

