-- ==== Sys2Proof/Certificates/Slice0/Obligations.lean ====
section
/-! DEFINITION. The statements about the model, from the numbered rules of spec/. None is proved here. -/

open Sys2Proof Sys2Proof.Machine

/-! ### Encoding -/

/-- R64 to R67: no operand bit is lost between encoding a command and decoding the word. -/
def Obligations.DecodeOfEncodeIsTheCommand : Prop :=
  ∀ i : Instr, decode (encode i) = .ok i

/-- R67, R68: a word that decodes is the encoding of its command; no other word stands for it. -/
def Obligations.EncodeOfDecodeIsTheWord : Prop :=
  ∀ (w : Word) (i : Instr), decode w = .ok i → encode i = w

/-- R66: the decoder and the opcode map's match and mask agree on every word, and no word matches two rows. -/
def Obligations.DecodeAgreesWithOpcodeMap : Prop :=
  (∀ (w : Word) (r : OpcodeRow), r ∈ opcodeRows →
    (w &&& r.mask = r.pattern ↔ ∃ i, decode w = .ok i ∧ i.mnemonic = r.mnemonic)) ∧
  (∀ (w : Word) (r r' : OpcodeRow), r ∈ opcodeRows → r' ∈ opcodeRows →
    w &&& r.mask = r.pattern → w &&& r'.mask = r'.pattern → r = r')

/-- R75: the worked encodings decode to their commands, and the words the rule calls illegal to none. -/
def Obligations.WorkedEncodingsDecode : Prop :=
  decode 0x11000003#32 = .ok (.keyb 0x03) ∧
  decode 0x20000002#32 = .ok (.setbs 2) ∧
  decode 0x20000008#32 = .ok (.setbs 8) ∧
  decode 0x12000012#32 = .ok (.kwin 18) ∧
  decode 0x30000001#32 = .ok (.enc true false) ∧
  decode 0x31000001#32 = .ok (.dec true) ∧
  decode 0x40000048#32 = .ok (.data 72) ∧
  decode 0x40000069#32 = .ok (.data 105) ∧
  decode 0x41000000#32 = .ok .fin ∧
  decode 0x02000000#32 = .error (.unusedOpcode 0x02) ∧
  decode 0x41000001#32 = .error (.nonzeroBits 0x41) ∧
  decode 0x30000004#32 = .error (.nonzeroBits 0x30) ∧
  decode 0xFFFFFFFF#32 = .error (.unusedOpcode 0xFF)

/-- R73: the word of each statement: its base word, plus the operand where it carries one; an operand out of
its field's range is an assembly error. R74: what each pseudo-command expands to. (That
ENCRYPT and DECRYPT with no bytes assemble is the model's choice: log entry 15.) -/
def Obligations.AssembledWordsAreTheTable : Prop :=
  (assemble .nop = some [0x00000000#32] ∧ assemble .srst = some [0x01000000#32] ∧
    assemble .keyclr = some [0x10000000#32] ∧ assemble .ivclr = some [0x22000000#32] ∧
    assemble .fin = some [0x41000000#32] ∧
    assemble (.enc .ecb .fresh) = some [0x30000000#32] ∧ assemble (.enc .cbc .fresh) = some [0x30000001#32] ∧
    assemble (.enc .ecb .fixed) = some [0x30000002#32] ∧ assemble (.enc .cbc .fixed) = some [0x30000003#32] ∧
    assemble (.dec .ecb) = some [0x31000000#32] ∧ assemble (.dec .cbc) = some [0x31000001#32]) ∧
  (∀ b : Nat, assemble (.keyb b) = if b ≤ 255 then some [BitVec.ofNat 32 (0x11000000 + b)] else none) ∧
  (∀ b : Nat, assemble (.kwin b) = if b ≤ 16777215 then some [BitVec.ofNat 32 (0x12000000 + b)] else none) ∧
  (∀ b : Nat, assemble (.setbs b) = if b ≤ 65535 then some [BitVec.ofNat 32 (0x20000000 + b)] else none) ∧
  (∀ b : Nat, assemble (.setfill b) = if b ≤ 255 then some [BitVec.ofNat 32 (0x21000000 + b)] else none) ∧
  (∀ b : Nat, assemble (.ivb b) = if b ≤ 255 then some [BitVec.ofNat 32 (0x23000000 + b)] else none) ∧
  (∀ b : Nat, assemble (.data b) = if b ≤ 255 then some [BitVec.ofNat 32 (0x40000000 + b)] else none) ∧
  (∀ bs : List Nat, bs ≠ [] → (∀ b ∈ bs, b ≤ 255) →
    assemble (.key bs) = some (0x10000000#32 :: bs.map fun b => BitVec.ofNat 32 (0x11000000 + b)) ∧
    assemble (.iv bs) = some (0x22000000#32 :: bs.map fun b => BitVec.ofNat 32 (0x23000000 + b))) ∧
  (∀ bs : List Nat, (∀ b ∈ bs, b ≤ 255) →
    assemble (.stream bs) = some ((bs.map fun b => BitVec.ofNat 32 (0x40000000 + b)) ++ [0x41000000#32]) ∧
    ∀ (mode : ChainWord) (src : IvWord),
      assemble (.encrypt mode src bs) =
        (assemble (.enc mode src)).bind (fun e => (assemble (.stream bs)).map fun d => e ++ d) ∧
      assemble (.decrypt mode bs) =
        (assemble (.dec mode)).bind (fun e => (assemble (.stream bs)).map fun d => e ++ d))

/-! ### A step and the host's accesses -/

/-- R35, R59, R67: unless ORC is stalled inside ENC, a step whose oldest pending access is a command word runs
the decoded command on the state that has the access behind it. (The queue of accesses is the model's: log entry 7.) -/
def Obligations.StepRunsTheDecodedCommand : Prop :=
  ∀ (s : State) (w : Word) (i : Instr) (rest : List HostEvent),
    s.phase ≠ .ivseed → s.inbox = .write 0 4 w :: rest → decode w = .ok i →
    step s = exec i { s with inbox := rest }

/-- R68, R163: an illegal word ORC accepts, in every phase it accepts words in (it accepts none stalled inside
ENC), writes 5 to ERR and changes nothing else. -/
def Obligations.IllegalWordWritesErrOnly : Prop :=
  ∀ (s : State) (w : Word) (f : Illegal) (rest : List HostEvent),
    s.phase ≠ .ivseed → s.inbox = .write 0 4 w :: rest → decode w = .error f →
    step s = .next { s with inbox := rest, err := some .illegalCommand } ∧
    errCode (some .illegalCommand) = 5#4

/-- The model's choice of how a program is placed (log entry 11): the step after `withFetchWord` runs the
word's command first, unless ORC is stalled inside ENC, where it accepts no word. -/
def Obligations.FetchWordRunsNext : Prop :=
  ∀ (s : State) (i : Instr), s.phase ≠ .ivseed → step (State.withFetchWord s 32 (encode i).toNat) = exec i s

/-- R43, R150, R179, R180: SRST leaves every register, array and queue at its reset value, and the
hardware reset input has the same effect. (KEY, BUF and PREV, which the table calls unspecified, are not
mentioned. That the build, the port and the host's own lists stay is the model's: log entries 1, 3, 7, 8.) -/
def Obligations.SrstAndHardResetRestoreTheResetTable : Prop :=
  ∀ s : State, ∃ t, exec .srst s = .next t ∧
    (∀ rest, s.inbox = .hardReset :: rest → step s = exec .srst { s with inbox := rest }) ∧
    t.klen = 0 ∧ t.bs = 8 ∧ t.filler = s.cfg.fillerReset ∧ (∀ j, Memory.read t.ivfix j = 0) ∧
    t.ivlen = 0 ∧ t.dir = .encrypt ∧ t.chain = false ∧ t.ivsel = false ∧ t.phase = .idle ∧ t.fill = 0 ∧
    t.off = 0 ∧ t.done = false ∧ t.err = none ∧ t.out = [] ∧
    t.cfg = s.cfg ∧ t.ivin = s.ivin ∧ t.inbox = s.inbox ∧ t.replies = s.replies

/-- R37, R151: a read of STATUS answers the fields at their bit positions and changes nothing else, PHASE by
the values of R27 and ERR by the codes of R158. In a stall inside ENC PHASE reads 1, bits 31:12 read 0, and
of the other fields nothing is said (U12).
(The access leaves the model's queue and the answer joins its list: log entries 7, 8.) -/
def Obligations.StatusReadHasItsFields : Prop :=
  ∀ (s : State) (rest : List HostEvent), s.inbox = .read 0x04 4 :: rest →
    ∃ w : Word, step s = .next { s with inbox := rest, replies := s.replies ++ [w] } ∧
      w.extractLsb' 12 20 = 0 ∧
      (s.phase = .idle → w.extractLsb' 0 3 = 0#3) ∧
      (s.phase = .ivseed → w.extractLsb' 0 3 = 1#3) ∧
      (s.phase = .drop → w.extractLsb' 0 3 = 2#3) ∧
      (s.phase = .main → w.extractLsb' 0 3 = 3#3) ∧
      (s.phase = .drain → w.extractLsb' 0 3 = 4#3) ∧
      (s.phase ≠ .ivseed →
        w.getLsbD 3 = decide (s.dir = .decrypt) ∧
        w.getLsbD 4 = s.chain ∧
        w.getLsbD 5 = s.ivsel ∧
        w.getLsbD 6 = s.done ∧
        w.getLsbD 7 = decide (s.out ≠ []) ∧
        (s.err = none → w.extractLsb' 8 4 = 0#4) ∧
        (s.err = some .invalidKey → w.extractLsb' 8 4 = 1#4) ∧
        (s.err = some .blockLengthMismatch → w.extractLsb' 8 4 = 2#4) ∧
        (s.err = some .invalidBlockSize → w.extractLsb' 8 4 = 3#4) ∧
        (s.err = some .shortCipher → w.extractLsb' 8 4 = 4#4) ∧
        (s.err = some .illegalCommand → w.extractLsb' 8 4 = 5#4))

/-- R38 to R40, R152 to R154: reads of CONFIG, LENGTHS, OFFSET and FILLCNT answer their fields, the
reserved bits 0, and change nothing else (but the model's lists of log entries 7, 8). In a stall inside ENC
OFF and FILL read as free values (log entry 18). -/
def Obligations.RegisterReadsHaveTheirFields : Prop :=
  ∀ (s : State) (rest : List HostEvent),
    (s.inbox = .read 0x08 4 :: rest →
      ∃ w : Word, step s = .next { s with inbox := rest, replies := s.replies ++ [w] } ∧
        w.extractLsb' 0 16 = s.bs ∧ w.extractLsb' 16 8 = s.filler ∧ w.extractLsb' 24 8 = 0) ∧
    (s.inbox = .read 0x0C 4 :: rest →
      ∃ w : Word, step s = .next { s with inbox := rest, replies := s.replies ++ [w] } ∧
        w.extractLsb' 0 16 = s.klen ∧ w.extractLsb' 16 16 = s.ivlen) ∧
    (s.inbox = .read 0x14 4 :: rest →
      ∃ w : Word, step s = .next { s with inbox := rest, replies := s.replies ++ [w] } ∧
        (s.phase ≠ .ivseed → w.extractLsb' 0 24 = s.off) ∧ w.extractLsb' 24 8 = 0) ∧
    (s.inbox = .read 0x18 4 :: rest →
      ∃ w : Word, step s = .next { s with inbox := rest, replies := s.replies ++ [w] } ∧
        (s.phase ≠ .ivseed → w.extractLsb' 0 16 = s.fill) ∧ w.extractLsb' 16 16 = 0)

/-- R41, R72, R155: a read of OUT pops the head token and answers its word; on an empty queue it answers
0 and removes nothing. No state but OUT changes (and the model's lists of log entries 7, 8). -/
def Obligations.OutReadPopsTheHead : Prop :=
  ∀ (s : State) (rest : List HostEvent), s.inbox = .read 0x10 4 :: rest →
    (∀ (b : Byte) (q : List Token), s.out = .byte b :: q →
      step s = .next { s with
        inbox := rest, out := q, replies := s.replies ++ [BitVec.ofNat 32 (0x80000000 + b.toNat)] }) ∧
    (∀ q : List Token, s.out = .endMark :: q →
      step s = .next { s with inbox := rest, out := q, replies := s.replies ++ [0x80000100#32] }) ∧
    (s.out = [] → step s = .next { s with inbox := rest, replies := s.replies ++ [0#32] })

/-- R36, R156: reads of CMD and of the reserved word answer 0 and change nothing; aligned word writes to
the offsets 0x04 to 0x1C are ignored. -/
def Obligations.OtherWindowAccessesChangeNothing : Prop :=
  ∀ (s : State) (rest : List HostEvent) (addr : Nat) (v : Word),
    ((addr = 0x00 ∨ addr = 0x1C) → s.inbox = .read addr 4 :: rest →
      step s = .next { s with inbox := rest, replies := s.replies ++ [0#32] }) ∧
    (0x04 ≤ addr → addr ≤ 0x1C → addr % 4 = 0 → s.inbox = .write addr 4 v :: rest →
      step s = .next { s with inbox := rest })

/-- R53: an access to the window that is not an aligned 32-bit one is refused by name. -/
def Obligations.OnlyAlignedWordAccessesAreDefined : Prop :=
  ∀ (s : State) (rest : List HostEvent) (addr bytes : Nat) (v : Word),
    addr < 0x20 → bytes ≠ 4 ∨ addr % 4 ≠ 0 →
    (s.inbox = .write addr bytes v :: rest → step s = .refused (.badHostAccess addr bytes)) ∧
    (s.inbox = .read addr bytes :: rest → step s = .refused (.badHostAccess addr bytes))

/-! ### Rules about every command -/

/-- R13, R56, R118, R190: every command issued between commands completes, in whatever state, back in IDLE,
DROP or MAIN, if the fresh-IV source offers the bytes it asks for. An accepted ENC with a fresh IV and a
source that never offers them takes what it is offered and stalls in IVSEED, its latches written, with
nothing emitted and PREV and OFF as they were (log entry 4). -/
def Obligations.CommandsCompleteUnlessTheIvSourceIsSilent : Prop :=
  (∀ (i : Instr) (s : State), s.phase ≠ .ivseed → s.phase ≠ .drain → ivReady i s = true →
    ∃ t, exec i s = .next t ∧ t.phase ≠ .ivseed ∧ t.phase ≠ .drain) ∧
  (∀ (c : Bool) (s : State), s.phase = .idle → checksPass s = true →
    s.ivin.thenFree = false → s.ivin.offered.length < s.bs.toNat →
    exec (.enc c false) s = .next { s with
      err := none, done := false, dir := .encrypt, chain := c, ivsel := false, fill := 0, phase := .ivseed,
      ivin := { s.ivin with offered := [], taken := s.ivin.taken + s.ivin.offered.length } })

/-- R190, R179, U15: stalled inside ENC, ORC accepts no command word, SRST included. A hardware reset, behind
whatever words wait, ends the stall with the effect of SRST, and the waiting accesses stay (log entry 12);
with no reset to come ORC is stuck (log entry 4). No other step leaves the stall. -/
def Obligations.OnlyHardwareResetEndsTheIvStall : Prop :=
  (∀ (s : State) (ws : List Word) (post : List HostEvent), s.phase = .ivseed →
    s.inbox = ws.map (fun w => .write 0 4 w) ++ .hardReset :: post →
    step s = exec .srst { s with inbox := ws.map (fun w => .write 0 4 w) ++ post }) ∧
  (∀ (s : State) (w : Word) (rest : List HostEvent), s.phase = .ivseed →
    s.inbox = .write 0 4 w :: rest → .hardReset ∉ rest → step s = .fault .ivSourceSilent) ∧
  (∀ s : State, s.phase = .ivseed → s.inbox = [] → step s = .fault .ivSourceSilent) ∧
  (∀ s t : State, s.phase = .ivseed → step s = .next t → t.phase ≠ .ivseed →
    ∃ pre post, s.inbox = pre ++ .hardReset :: post ∧ .hardReset ∉ pre ∧
      exec .srst { s with inbox := pre ++ post } = .next t)

/-- R163, R165, R166, R167: a command that raises reports the first error of the priority list and has no
effect but the error's entry action (and, for ENC, DEC and KWIN accepted in IDLE, DONE cleared). -/
def Obligations.ErrorsArePreciseAndOrdered : Prop :=
  ∀ (i : Instr) (s : State) (e : ErrKind), errorOf i s = some e →
    exec i s = .next { s with
      err := some e
      done := if e = .invalidBlockSize ∨ e = .invalidKey then false else s.done
      phase := if e = .shortCipher then .idle else s.phase
      fill := if e = .shortCipher then 0 else s.fill }

/-- R31, R32: ERR and DONE after every command. -/
def Obligations.FlagsAfterEveryCommand : Prop :=
  ∀ (i : Instr) (s t : State), exec i s = .next t → t.err = errAfter i s ∧ t.done = doneAfter i s

/-- R135: the phase after every command is the transition table's; IVSEED after an ENC that stalls (R190). -/
def Obligations.PhaseTransitionsFollowTheTable : Prop :=
  ∀ (i : Instr) (s t : State), s.Inv → exec i s = .next t → t.phase = phaseAfter i s

/-- R91, R134, R187: while an operation is open no command but SRST changes the key, the configuration or
the latched direction, selector and IV source. -/
def Obligations.KeyAndSelectorFixedDuringAnOperation : Prop :=
  ∀ (i : Instr) (s t : State), s.phase ≠ .idle → i ≠ .srst → exec i s = .next t →
    t.key = s.key ∧ t.klen = s.klen ∧ t.bs = s.bs ∧ t.filler = s.filler ∧ t.ivfix = s.ivfix ∧
    t.ivlen = s.ivlen ∧ t.dir = s.dir ∧ t.chain = s.chain ∧ t.ivsel = s.ivsel

/-- R33, R59, R155: no command but SRST removes or reorders a token of OUT, and a step removes at most the
head, unless it resets the machine (at once, or from a stall). -/
def Obligations.OutOnlyGrowsAtItsTail : Prop :=
  (∀ (i : Instr) (s t : State), i ≠ .srst → exec i s = .next t → ∃ new, t.out = s.out ++ new) ∧
  (∀ s t : State, step s = .next t →
    (∃ new, t.out = s.out ++ new) ∨ t.out = s.out.tail ∨
    (∃ rest, s.inbox = .hardReset :: rest) ∨ (s.phase = .ivseed ∧ .hardReset ∈ s.inbox) ∨ (∃ rest, s.inbox = .write 0 4 (encode .srst) :: rest))

/-- R59 d, R116, R15: an accepted ENC with a fresh IV takes BS bytes from IVIN (all that are offered, if the
source never offers that many); no other command takes any. No command changes the build or the host's own lists (log entries 1, 7, 8). -/
def Obligations.OnlyFreshEncTakesIvBytes : Prop :=
  ∀ (i : Instr) (s t : State), exec i s = .next t →
    t.cfg = s.cfg ∧ t.inbox = s.inbox ∧ t.replies = s.replies ∧
    t.ivin = (if (∃ c, i = .enc c false) ∧ s.phase = .idle ∧ checksPass s = true then
      { s.ivin with
        offered := s.ivin.offered.drop s.bs.toNat
        taken := s.ivin.taken +
          if s.ivin.thenFree then s.bs.toNat else min s.bs.toNat s.ivin.offered.length }
      else s.ivin)

/-- Every step keeps a legal state legal: the capacities (R16, R17, R20, R21, R25, R26), the phases
(R27, IVSEED only in a stall on a silent source, R190), FILL below BS (R28), OFF below TLEN and block-aligned (R29), the canonical form of the arrays
(log entry 5), no BlockLengthMismatch (R101). -/
def Obligations.StepKeepsTheInvariant : Prop :=
  ∀ s t : State, s.Inv → step s = .next t → t.Inv

/-- The state after reset is legal, for every legal build. -/
def Obligations.ResetStatesAreLegal : Prop :=
  State.reset.Inv ∧ ∀ c : Config, c.legal = true → (State.resetOf c).Inv

/-- R101: no command sequence makes ORC raise code 2: no command puts it into ERR, in any state, and no
step does. -/
def Obligations.BlockLengthMismatchIsNeverRaised : Prop :=
  (∀ (i : Instr) (s t : State), exec i s = .next t → s.err ≠ some .blockLengthMismatch →
    t.err ≠ some .blockLengthMismatch) ∧
  (∀ s t : State, step s = .next t → s.err ≠ some .blockLengthMismatch →
    t.err ≠ some .blockLengthMismatch)

/-- U7, U8, U9, R43: the bytes the spec leaves without a value are never observed. Two legal states that
differ in such bytes only step alike for ever, in outcome and in everything the host can read; so the
values the model chose for them (log entry 5) show nowhere. -/
def Obligations.UnreadBytesAreUnobservable : Prop :=
  ∀ s t : State, s.Inv → t.Inv → s.SameSeen t →
    (∀ s', step s = .next s' → ∃ t', step t = .next t' ∧ s'.SameSeen t') ∧
    (∀ f, step s = .fault f → step t = .fault f) ∧
    (∀ r, step s = .refused r → step t = .refused r)

/-- R15: an operation reads nothing an earlier one left. Two legal IDLE states with the same inputs (key,
block size, filler, fixed IV, the IV bytes to come) open an operation alike, whatever else differs. (An ENC stalled in IVSEED has not written OFF yet.) -/
def Obligations.OperationsStartFromTheirInputsOnly : Prop :=
  ∀ (s t : State) (i : Instr), s.Inv → t.Inv → s.phase = .idle → t.phase = .idle →
    (∃ c v, i = .enc c v) ∨ (∃ c, i = .dec c) → checksPass s = true →
    s.cfg = t.cfg → s.klen = t.klen → s.bs = t.bs → s.filler = t.filler → s.ivfix = t.ivfix →
    s.ivin = t.ivin → (∀ j, j < s.klen.toNat → Memory.read s.key j = Memory.read t.key j) →
    ∀ s', exec i s = .next s' → ∃ t' new, exec i t = .next t' ∧
      s'.out = s.out ++ new ∧ t'.out = t.out ++ new ∧
      s'.dir = t'.dir ∧ s'.chain = t'.chain ∧ s'.phase = t'.phase ∧ s'.fill = t'.fill ∧
      (s'.phase ≠ .ivseed → s'.off = t'.off) ∧ s'.done = t'.done ∧ s'.err = t'.err ∧ s'.ivin = t'.ivin ∧
      (s'.phase = .main → ∀ j, j < s'.bs.toNat → Memory.read s'.prev j = Memory.read t'.prev j)

/-! ### System, key-material and configuration commands -/

/-- R149: the word 0 is NOP, and NOP changes nothing, in every phase: ERR and DONE stay, and a stream is
neither split nor ended. -/
def Obligations.NopChangesNothing : Prop :=
  decode 0x00000000#32 = .ok .nop ∧ ∀ s : State, exec .nop s = .next s

/-- R88: KEYCLR in IDLE empties the raw key and changes nothing else; the bytes of KEY stay. Outside IDLE it
raises IllegalCommand. After it ENC, DEC and KWIN raise InvalidKey, the block size being legal. -/
def Obligations.KeyclrEmptiesTheKey : Prop :=
  decode 0x10000000#32 = .ok .keyclr ∧
  ∀ s : State,
    (s.phase = .idle → exec .keyclr s = .next { s with klen := 0 }) ∧
    (s.phase ≠ .idle → exec .keyclr s = .next { s with err := some .illegalCommand }) ∧
    ∀ (c v : Bool) (off : BitVec 24) (i : Instr), s.phase = .idle → 1 ≤ s.bs.toNat →
      s.bs.toNat ≤ s.cfg.bsMax → i = .enc c v ∨ i = .dec c ∨ i = .kwin off →
      exec i { s with klen := 0 } = .next { s with klen := 0, done := false, err := some .invalidKey }

/-- R89: KEYB in IDLE with room puts its byte at index KLEN, leaves every other byte of KEY, increments
KLEN without wrapping, and changes nothing else. On a full key memory, and outside IDLE, it raises
IllegalCommand and the key is unchanged. -/
def Obligations.KeybAppendsOneKeyByte : Prop :=
  ∀ (s : State) (b : Byte),
    decode (0x11#8 ++ 0#16 ++ b) = .ok (.keyb b) ∧
    (s.Inv → s.phase = .idle → s.klen.toNat < s.cfg.keyMax →
      ∃ t, exec (.keyb b) s = .next t ∧
        Memory.read t.key s.klen.toNat = b ∧
        (∀ j, j ≠ s.klen.toNat → Memory.read t.key j = Memory.read s.key j) ∧
        t.klen.toNat = s.klen.toNat + 1 ∧
        t = { s with key := t.key, klen := t.klen }) ∧
    (s.phase ≠ .idle ∨ s.klen.toNat = s.cfg.keyMax →
      exec (.keyb b) s = .next { s with err := some .illegalCommand })

/-- R90, R85, R86: KWIN in IDLE with its checks passed emits the BS bytes of the window at `off`, byte j
being KEY[(off + j) mod KLEN], then End, sets DONE, clears ERR, and changes nothing else. -/
def Obligations.KwinEmitsTheKeyWindow : Prop :=
  ∀ (s : State) (off : BitVec 24), s.phase = .idle → checksPass s = true →
    ∃ w : List Byte, w.length = s.bs.toNat ∧
      (∀ j, j < s.bs.toNat → w.getD j 0 = Memory.read s.key ((off.toNat + j) % s.klen.toNat)) ∧
      exec (.kwin off) s = .next { s with
        err := none, done := true, out := s.out ++ w.map Token.byte ++ [Token.endMark] }

/-- R105, R106, R107: SETBS, SETFILL and IVCLR in IDLE write their register, unchecked, and nothing else;
after IVCLR every byte of IVFIX is 0x00 and IVLEN is 0. Outside IDLE they raise IllegalCommand. -/
def Obligations.ConfigurationCommandsWriteTheirRegister : Prop :=
  ∀ (s : State) (n : BitVec 16) (b : Byte),
    (s.phase = .idle →
      exec (.setbs n) s = .next { s with bs := n } ∧
      exec (.setfill b) s = .next { s with filler := b } ∧
      ∃ t, exec .ivclr s = .next t ∧ (∀ j, Memory.read t.ivfix j = 0) ∧
        t = { s with ivfix := t.ivfix, ivlen := 0 }) ∧
    (s.phase ≠ .idle → ∀ i : Instr, i = .setbs n ∨ i = .setfill b ∨ i = .ivclr →
      exec i s = .next { s with err := some .illegalCommand }) ∧
    decode (0x20#8 ++ 0#8 ++ n) = .ok (.setbs n) ∧
    decode (0x21#8 ++ 0#16 ++ b) = .ok (.setfill b) ∧
    decode 0x22000000#32 = .ok .ivclr

/-- R108, R21: IVB in IDLE with room puts its byte at index IVLEN, leaves every other byte of IVFIX,
increments IVLEN, and changes nothing else; bytes never loaded are 0x00. On a full IVFIX, and outside IDLE,
it raises IllegalCommand and nothing changes. -/
def Obligations.IvbAppendsOneIvByte : Prop :=
  ∀ (s : State) (b : Byte),
    decode (0x23#8 ++ 0#16 ++ b) = .ok (.ivb b) ∧
    (s.Inv → s.phase = .idle → s.ivlen.toNat < s.cfg.bsMax →
      ∃ t, exec (.ivb b) s = .next t ∧
        Memory.read t.ivfix s.ivlen.toNat = b ∧
        (∀ j, j ≠ s.ivlen.toNat → Memory.read t.ivfix j = Memory.read s.ivfix j) ∧
        t.ivlen.toNat = s.ivlen.toNat + 1 ∧
        (∀ j, t.ivlen.toNat ≤ j → Memory.read t.ivfix j = 0) ∧
        t = { s with ivfix := t.ivfix, ivlen := t.ivlen }) ∧
    (s.phase ≠ .idle ∨ s.ivlen.toNat = s.cfg.bsMax →
      exec (.ivb b) s = .next { s with err := some .illegalCommand })

/-! ### Operations -/

/-- R124: ENC, DEC and KWIN, accepted in IDLE, raise InvalidBlockSize for a block size of 0 or above BS_MAX,
whatever the key; with a legal block size and an empty key they raise InvalidKey; nothing but ERR and DONE
is then written, so nothing is emitted. Otherwise StartChecks raises nothing. -/
def Obligations.StartChecksRefuseBeforeAnyOutput : Prop :=
  ∀ (s : State) (c v : Bool) (off : BitVec 24) (i : Instr),
    i = .enc c v ∨ i = .dec c ∨ i = .kwin off → s.phase = .idle →
    (s.bs.toNat = 0 ∨ s.cfg.bsMax < s.bs.toNat →
      exec i s = .next { s with done := false, err := some .invalidBlockSize }) ∧
    (1 ≤ s.bs.toNat → s.bs.toNat ≤ s.cfg.bsMax → s.klen.toNat = 0 →
      exec i s = .next { s with done := false, err := some .invalidKey }) ∧
    (1 ≤ s.bs.toNat → s.bs.toNat ≤ s.cfg.bsMax → 1 ≤ s.klen.toNat →
      ∀ t, exec i s = .next t → t.err = none)

/-- R123, R125, R116, R117: an accepted ENC transforms FILLER ^ IV (in both settings of `chain`) with the
window at 0, emits the block, puts it into PREV, sets OFF to BS mod TLEN, latches its flags and goes to
MAIN; bytes of PREV at and above BS, and everything else, stay. -/
def Obligations.EncSeedsTheChain : Prop :=
  ∀ (s : State) (c v : Bool), s.Inv → s.phase = .idle → checksPass s = true →
    (v = true ∨ IvPort.canSupply s.ivin s.bs.toNat = true) →
    ∃ (t : State) (d kb y : List Byte), exec (.enc c v) s = .next t ∧
      d.length = s.bs.toNat ∧
      (∀ j, j < s.bs.toNat → d.getD j 0 =
        s.filler ^^^ (if v then Memory.read s.ivfix j else IvPort.byteAt s.ivin j)) ∧
      kb.length = s.bs.toNat ∧
      (∀ j, j < s.bs.toNat → kb.getD j 0 = Memory.read s.key (j % s.klen.toNat)) ∧
      forward s.cfg.xform d kb = .ok y ∧ y.length = s.bs.toNat ∧
      (∀ j, j < s.bs.toNat → Memory.read t.prev j = y.getD j 0) ∧
      (∀ j, s.bs.toNat ≤ j → Memory.read t.prev j = Memory.read s.prev j) ∧
      t.off.toNat = s.bs.toNat % (s.klen.toNat * s.bs.toNat) ∧
      t = { s with
        err := none, done := false, dir := .encrypt, chain := c, ivsel := v, fill := 0, phase := .main,
        out := s.out ++ y.map Token.byte, prev := t.prev, off := t.off, ivin := t.ivin }

/-- R126: an accepted DEC latches its flags, clears FILL, OFF, ERR and DONE, goes to DROP, and changes
nothing else: IVSEL is not written, nothing is emitted, no IV byte is taken. -/
def Obligations.DecOpensTheDropPhase : Prop :=
  ∀ (s : State) (c : Bool), s.phase = .idle → checksPass s = true →
    exec (.dec c) s = .next { s with
      err := none, done := false, dir := .decrypt, chain := c, fill := 0, off := 0, phase := .drop }

/-- R110: a DATA that does not complete a slice changes only BUF[FILL] and FILL. -/
def Obligations.DataBuffersOneByte : Prop :=
  ∀ (s : State) (b : Byte), s.Inv → (s.phase = .drop ∨ s.phase = .main) →
    s.fill.toNat + 1 < s.bs.toNat →
    ∃ t, exec (.data b) s = .next t ∧
      Memory.read t.buf s.fill.toNat = b ∧
      (∀ j, j ≠ s.fill.toNat → Memory.read t.buf j = Memory.read s.buf j) ∧
      t.fill.toNat = s.fill.toNat + 1 ∧
      t = { s with buf := t.buf, fill := t.fill }

/-- R110, R127: the DATA that delivers the last dropped byte puts the dropped block into PREV, sets OFF to
BS mod TLEN and goes to MAIN; it emits nothing and does not call the transform. -/
def Obligations.DataEndsTheDropPhase : Prop :=
  ∀ (s : State) (b : Byte), s.Inv → s.phase = .drop → s.fill.toNat + 1 = s.bs.toNat →
    ∃ t, exec (.data b) s = .next t ∧
      (∀ j, j < s.bs.toNat → Memory.read t.prev j = if j = s.fill.toNat then b else Memory.read s.buf j) ∧
      (∀ j, s.bs.toNat ≤ j → Memory.read t.prev j = Memory.read s.prev j) ∧
      Memory.read t.buf s.fill.toNat = b ∧
      (∀ j, j ≠ s.fill.toNat → Memory.read t.buf j = Memory.read s.buf j) ∧
      t.off.toNat = s.bs.toNat % (s.klen.toNat * s.bs.toNat) ∧
      t = { s with buf := t.buf, prev := t.prev, off := t.off, fill := 0, phase := .main }

/-- R110, R128, R129: the DATA that completes a slice of an encryption transforms the slice, XORed with
PREV when CHAIN is 1, with the window at OFF; emits the result; puts it into PREV in both settings of
CHAIN; and advances OFF by BS modulo TLEN. -/
def Obligations.DataEncryptsAFullSlice : Prop :=
  ∀ (s : State) (b : Byte), s.Inv → s.phase = .main → s.dir = .encrypt →
    s.fill.toNat + 1 = s.bs.toNat →
    ∃ (t : State) (d kb y : List Byte), exec (.data b) s = .next t ∧
      d.length = s.bs.toNat ∧
      (∀ j, j < s.bs.toNat → d.getD j 0 =
        (if j = s.fill.toNat then b else Memory.read s.buf j) ^^^
          (if s.chain then Memory.read s.prev j else 0)) ∧
      kb.length = s.bs.toNat ∧
      (∀ j, j < s.bs.toNat → kb.getD j 0 = Memory.read s.key ((s.off.toNat + j) % s.klen.toNat)) ∧
      forward s.cfg.xform d kb = .ok y ∧ y.length = s.bs.toNat ∧
      (∀ j, j < s.bs.toNat → Memory.read t.prev j = y.getD j 0) ∧
      (∀ j, s.bs.toNat ≤ j → Memory.read t.prev j = Memory.read s.prev j) ∧
      Memory.read t.buf s.fill.toNat = b ∧
      (∀ j, j ≠ s.fill.toNat → Memory.read t.buf j = Memory.read s.buf j) ∧
      t.off.toNat = (s.off.toNat + s.bs.toNat) % (s.klen.toNat * s.bs.toNat) ∧
      t = { s with
        buf := t.buf, prev := t.prev, off := t.off, fill := 0, out := s.out ++ y.map Token.byte }

/-- R110, R128, R130: the DATA that completes a slice of a decryption applies the inverse transform to the
cipher slice, XORs the result with the old PREV when CHAIN is 1, emits it, and puts the raw cipher slice,
not the result, into PREV. -/
def Obligations.DataDecryptsAFullSlice : Prop :=
  ∀ (s : State) (b : Byte), s.Inv → s.phase = .main → s.dir = .decrypt →
    s.fill.toNat + 1 = s.bs.toNat →
    ∃ (t : State) (c kb y d : List Byte), exec (.data b) s = .next t ∧
      c.length = s.bs.toNat ∧
      (∀ j, j < s.bs.toNat → c.getD j 0 = if j = s.fill.toNat then b else Memory.read s.buf j) ∧
      kb.length = s.bs.toNat ∧
      (∀ j, j < s.bs.toNat → kb.getD j 0 = Memory.read s.key ((s.off.toNat + j) % s.klen.toNat)) ∧
      inverse s.cfg.xform c kb = .ok y ∧ d.length = s.bs.toNat ∧
      (∀ j, j < s.bs.toNat → d.getD j 0 = y.getD j 0 ^^^ (if s.chain then Memory.read s.prev j else 0)) ∧
      (∀ j, j < s.bs.toNat → Memory.read t.prev j = c.getD j 0) ∧
      (∀ j, s.bs.toNat ≤ j → Memory.read t.prev j = Memory.read s.prev j) ∧
      Memory.read t.buf s.fill.toNat = b ∧
      (∀ j, j ≠ s.fill.toNat → Memory.read t.buf j = Memory.read s.buf j) ∧
      t.off.toNat = (s.off.toNat + s.bs.toNat) % (s.klen.toNat * s.bs.toNat) ∧
      t = { s with
        buf := t.buf, prev := t.prev, off := t.off, fill := 0, out := s.out ++ d.map Token.byte }

/-- R111, R133: FIN in MAIN with no tail emits only End, sets DONE and goes to IDLE. -/
def Obligations.FinWithoutTailEmitsEnd : Prop :=
  ∀ s : State, s.phase = .main → s.fill = 0 →
    exec .fin s = .next { s with out := s.out ++ [Token.endMark], done := true, phase := .idle }

/-- R111, R129, R131, R100: FIN transforms an encryption's tail of FILL bytes at its own length, key block
and PREV cut to it, emits FILL bytes and End; PREV above the tail keeps its bytes; OFF advances by BS. -/
def Obligations.FinEncryptsTheTail : Prop :=
  ∀ s : State, s.Inv → s.phase = .main → s.dir = .encrypt → 0 < s.fill.toNat →
    ∃ (t : State) (d kb y : List Byte), exec .fin s = .next t ∧
      d.length = s.fill.toNat ∧
      (∀ j, j < s.fill.toNat → d.getD j 0 =
        Memory.read s.buf j ^^^ (if s.chain then Memory.read s.prev j else 0)) ∧
      kb.length = s.fill.toNat ∧
      (∀ j, j < s.fill.toNat → kb.getD j 0 = Memory.read s.key ((s.off.toNat + j) % s.klen.toNat)) ∧
      forward s.cfg.xform d kb = .ok y ∧ y.length = s.fill.toNat ∧
      (∀ j, j < s.fill.toNat → Memory.read t.prev j = y.getD j 0) ∧
      (∀ j, s.fill.toNat ≤ j → Memory.read t.prev j = Memory.read s.prev j) ∧
      t.off.toNat = (s.off.toNat + s.bs.toNat) % (s.klen.toNat * s.bs.toNat) ∧
      t = { s with
        prev := t.prev, off := t.off, fill := 0, done := true, phase := .idle,
        out := s.out ++ y.map Token.byte ++ [Token.endMark] }

/-- R111, R130, R131, R100: FIN applies the inverse transform to a decryption's tail of FILL bytes at its own
length, key block and PREV cut to it, XORs the old PREV in when CHAIN is 1, emits FILL bytes and End; PREV
takes the raw cipher tail and keeps its bytes above it; OFF advances by BS. -/
def Obligations.FinDecryptsTheTail : Prop :=
  ∀ s : State, s.Inv → s.phase = .main → s.dir = .decrypt → 0 < s.fill.toNat →
    ∃ (t : State) (c kb y d : List Byte), exec .fin s = .next t ∧
      c.length = s.fill.toNat ∧ (∀ j, j < s.fill.toNat → c.getD j 0 = Memory.read s.buf j) ∧
      kb.length = s.fill.toNat ∧
      (∀ j, j < s.fill.toNat → kb.getD j 0 = Memory.read s.key ((s.off.toNat + j) % s.klen.toNat)) ∧
      inverse s.cfg.xform c kb = .ok y ∧ d.length = s.fill.toNat ∧
      (∀ j, j < s.fill.toNat → d.getD j 0 = y.getD j 0 ^^^ (if s.chain then Memory.read s.prev j else 0)) ∧
      (∀ j, j < s.fill.toNat → Memory.read t.prev j = c.getD j 0) ∧
      (∀ j, s.fill.toNat ≤ j → Memory.read t.prev j = Memory.read s.prev j) ∧
      t.off.toNat = (s.off.toNat + s.bs.toNat) % (s.klen.toNat * s.bs.toNat) ∧
      t = { s with
        prev := t.prev, off := t.off, fill := 0, done := true, phase := .idle,
        out := s.out ++ d.map Token.byte ++ [Token.endMark] }

/-! ### The key-material and block-transform units -/

/-- R86: byte j of `Window(o, n)` is KEY[(o + j) mod KLEN]. -/
def Obligations.WindowCyclesTheRawKey : Prop :=
  ∀ (s : State) (o n : Nat), checksPass s = true →
    (window s o n).length = n ∧
    (∀ j, j < n → (window s o n).getD j 0 = Memory.read s.key ((o + j) % s.klen.toNat)) ∧
    (∀ o', o % s.klen.toNat = o' % s.klen.toNat → window s o n = window s o' n)

/-- R87: the sequence of block-aligned windows repeats with period KLEN / gcd(KLEN, BS) blocks, which is
lcm(KLEN, BS) bytes and at most TLEN bytes; indices that differ by a multiple of it get the same window. -/
def Obligations.AlignedWindowsRepeat : Prop :=
  ∀ (s : State) (i m : Nat), checksPass s = true →
    window s ((i + m * (s.klen.toNat / Nat.gcd s.klen.toNat s.bs.toNat)) * s.bs.toNat) s.bs.toNat =
      window s (i * s.bs.toNat) s.bs.toNat ∧
    s.klen.toNat / Nat.gcd s.klen.toNat s.bs.toNat * s.bs.toNat = Nat.lcm s.klen.toNat s.bs.toNat ∧
    Nat.lcm s.klen.toNat s.bs.toNat ≤ tlen s

/-- R83, R52: TLEN lies in 1..2^24, is a multiple of KLEN and of BS, and is at least BS; a block-aligned
window below it does not cross its end. -/
def Obligations.TiledLengthIsBounded : Prop :=
  ∀ s : State, s.Inv → checksPass s = true →
    tlen s = s.klen.toNat * s.bs.toNat ∧ 1 ≤ tlen s ∧ tlen s ≤ 2 ^ 24 ∧
    s.klen.toNat ∣ tlen s ∧ s.bs.toNat ∣ tlen s ∧ s.bs.toNat ≤ tlen s ∧
    (∀ o, o < tlen s → s.bs.toNat ∣ o → o + s.bs.toNat ≤ tlen s)

/-- R95, R96: for every transform and every common length, `inverse` undoes `forward`, and both keep the
length. (That a lawful transform is XOR or a member of the model's opaque family is log entry 2.) -/
def Obligations.InverseUndoesForward : Prop :=
  ∀ (x : Xform) (d k : List Byte), k.length = d.length →
    (∃ y, forward x d k = .ok y ∧ y.length = d.length ∧ inverse x y k = .ok d) ∧
    (∃ y, inverse x d k = .ok y ∧ y.length = d.length)

/-- R99: operands of unequal length raise BlockLengthMismatch, code 2, in both directions and only then. -/
def Obligations.UnequalOperandsRaiseMismatch : Prop :=
  errCode (some .blockLengthMismatch) = 2#4 ∧
  ∀ (x : Xform) (d k : List Byte),
    (forward x d k = .error .blockLengthMismatch ↔ d.length ≠ k.length) ∧
    (inverse x d k = .error .blockLengthMismatch ↔ d.length ≠ k.length)

/-- R97, R98: the reference transform is byte-wise XOR in both directions, and applied twice under one key
block it gives the data back. -/
def Obligations.ReferenceTransformIsXor : Prop :=
  ∀ d k : List Byte, k.length = d.length →
    ∃ y, forward .xor d k = .ok y ∧ inverse .xor d k = .ok y ∧ y.length = d.length ∧
      (∀ j, j < d.length → y.getD j 0 = d.getD j 0 ^^^ k.getD j 0) ∧ forward .xor y k = .ok d

/-! ### The call level -/

/-- R112, R113: the slices are ceil(len / bs) in number, joined in order they are the stream, and slice i
has min(bs, len - i*bs) bytes: all have bs but possibly the last, which is never padded. -/
def Obligations.SlicesCutTheStream : Prop :=
  ∀ (bs : Nat) (S : List Byte), 1 ≤ bs →
    (slices bs S).flatten = S ∧
    ((slices bs S).length * bs < S.length + bs ∧ S.length ≤ (slices bs S).length * bs) ∧
    (∀ i, i < (slices bs S).length →
      ((slices bs S).getD i []).length = min bs (S.length - i * bs) ∧ 1 ≤ ((slices bs S).getD i []).length)

/-- R137, R144: encryption answers bs + len bytes and decryption of at least bs bytes, whatever they are,
answers len - bs bytes; neither fails. The empty plaintext gives the IV-derived block alone, and a cipher
stream of one block gives the empty plaintext. -/
def Obligations.StreamLengths : Prop :=
  ∀ (x : Xform) (K : List Byte) (c : Bool) (bs : Nat), 1 ≤ bs → K ≠ [] →
    (∀ (P iv : List Byte) (f : Byte), iv.length = bs →
      ∃ C, encryptStream x P K c bs f iv = .ok C ∧ C.length = bs + P.length) ∧
    (∀ C : List Byte, bs ≤ C.length →
      ∃ D, decryptStream x C K c bs = .ok D ∧ D.length = C.length - bs) ∧
    (∀ (iv : List Byte) (f : Byte), iv.length = bs →
      encryptStream x [] K c bs f iv = forward x (xorBytes (List.replicate bs f) iv) (keyWindow K 0 bs)) ∧
    (∀ C : List Byte, C.length = bs → decryptStream x C K c bs = .ok [])

/-- R140: for every plaintext, non-empty key, block size of at least 1, chaining flag, filler, IV and
transform, decryption of the encryption is the plaintext. -/
def Obligations.DecryptionUndoesEncryption : Prop :=
  ∀ (x : Xform) (P K : List Byte) (c : Bool) (bs : Nat) (f : Byte) (iv : List Byte),
    1 ≤ bs → K ≠ [] → iv.length = bs →
    ∃ C, encryptStream x P K c bs f iv = .ok C ∧ decryptStream x C K c bs = .ok P

/-- R139: the closed form of both operations for the reference transform, tail bytes included. -/
def Obligations.XorStreamsHaveAClosedForm : Prop :=
  ∀ (K : List Byte) (c : Bool) (bs : Nat), 1 ≤ bs → K ≠ [] →
    (∀ (P iv C : List Byte) (f : Byte), iv.length = bs → encryptStream .xor P K c bs f iv = .ok C →
      (∀ p, p < bs → C.getD p 0 = f ^^^ iv.getD p 0 ^^^ K.getD (p % K.length) 0) ∧
      (∀ p, bs ≤ p → p < C.length → C.getD p 0 =
        P.getD (p - bs) 0 ^^^ (if c then C.getD (p - bs) 0 else 0) ^^^ K.getD (p % K.length) 0)) ∧
    (∀ C D : List Byte, bs ≤ C.length → decryptStream .xor C K c bs = .ok D →
      ∀ p, bs ≤ p → p < C.length → D.getD (p - bs) 0 =
        C.getD p 0 ^^^ K.getD (p % K.length) 0 ^^^ (if c then C.getD (p - bs) 0 else 0))

/-- R141: two encryptions that differ in their IVs only have different leading blocks exactly when the IVs
differ; with `c = 0` the blocks after the leading one are equal. -/
def Obligations.LeadingBlocksDifferExactlyWithTheIvs : Prop :=
  ∀ (x : Xform) (P K : List Byte) (c : Bool) (bs : Nat) (f : Byte) (iv iv' C C' : List Byte),
    1 ≤ bs → K ≠ [] → iv.length = bs → iv'.length = bs →
    encryptStream x P K c bs f iv = .ok C → encryptStream x P K c bs f iv' = .ok C' →
    (C.take bs ≠ C'.take bs ↔ iv ≠ iv') ∧ (c = false → C.drop bs = C'.drop bs)

/-- R142: with `c = 0` ciphertext slice i is `forward` of plaintext slice i under its own key window, a
function of nothing else. -/
def Obligations.EcbSlicesAreIndependent : Prop :=
  ∀ (x : Xform) (P K : List Byte) (bs : Nat) (f : Byte) (iv C : List Byte) (i : Nat),
    1 ≤ bs → K ≠ [] → iv.length = bs → encryptStream x P K false bs f iv = .ok C → i * bs < P.length →
    forward x ((P.drop (i * bs)).take bs)
        (keyWindow K ((i + 1) * bs) ((P.drop (i * bs)).take bs).length) =
      .ok ((C.drop ((i + 1) * bs)).take bs)

/-- R143: with the reference transform, XORing a value into plaintext byte q XORs it into ciphertext
positions q + bs, q + 2*bs, ... with `c = 1`, into q + bs alone with `c = 0`, and into no other. -/
def Obligations.CbcAvalancheIsExact : Prop :=
  ∀ (P K : List Byte) (c : Bool) (bs : Nat) (f v : Byte) (iv C C' : List Byte) (q : Nat),
    1 ≤ bs → K ≠ [] → iv.length = bs → q < P.length →
    encryptStream .xor P K c bs f iv = .ok C →
    encryptStream .xor (P.set q (P.getD q 0 ^^^ v)) K c bs f iv = .ok C' →
    C'.length = C.length ∧
    ∀ p, p < C.length → C'.getD p 0 =
      C.getD p 0 ^^^ (if q + bs ≤ p ∧ (p - q) % bs = 0 ∧ (c = true ∨ p = q + bs) then v else 0)

/-- R145: whatever the transform and the bytes, at least bs of them decrypt to something. With the reference
transform, XORing a value into cipher position p XORs it into plaintext byte p - bs (if p is past the
dropped block) and, with `c = 1`, into plaintext byte p if it exists; nothing else changes. -/
def Obligations.CorruptionIsLocalAndSilent : Prop :=
  ∀ (C K : List Byte) (c : Bool) (bs : Nat), 1 ≤ bs → K ≠ [] → bs ≤ C.length →
    (∀ x : Xform, ∃ D, decryptStream x C K c bs = .ok D) ∧
    ∀ (v : Byte) (D : List Byte) (p : Nat), p < C.length → decryptStream .xor C K c bs = .ok D →
      ∃ D', decryptStream .xor (C.set p (C.getD p 0 ^^^ v)) K c bs = .ok D' ∧ D'.length = D.length ∧
        ∀ q, q < D.length → D'.getD q 0 =
          D.getD q 0 ^^^ (if q + bs = p then v else 0) ^^^ (if c = true ∧ q = p then v else 0)

/-! ### The machine against the call level -/

/-- R138: the commands ENC, one DATA per byte, FIN, issued to a legal IDLE state whose checks pass, run to
the end and emit EncryptStream of the bytes under the loaded key, then End. -/
def Obligations.EncryptionRunsAgreeWithTheCall : Prop :=
  ∀ (s : State) (c v : Bool) (P : List Byte), s.Inv → s.phase = .idle → checksPass s = true →
    (v = true ∨ IvPort.canSupply s.ivin s.bs.toNat = true) →
    ∃ (t : State) (C : List Byte),
      core.run (P.length + 2) (issue (.enc c v :: (P.map Instr.data ++ [.fin])) s) = .next t ∧
      encryptStream s.cfg.xform P (Memory.readRun s.key s.klen.toNat) c s.bs.toNat s.filler
        ((List.range s.bs.toNat).map fun j =>
          if v then Memory.read s.ivfix j else IvPort.byteAt s.ivin j) = .ok C ∧
      t.out = s.out ++ C.map Token.byte ++ [Token.endMark] ∧
      t.phase = .idle ∧ t.done = true ∧ t.err = none ∧ t.inbox = s.inbox ∧
      t.key = s.key ∧ t.klen = s.klen ∧ t.bs = s.bs ∧ t.cfg = s.cfg

/-- R138: the commands DEC, one DATA per byte for at least BS bytes, FIN, issued to a legal IDLE state whose
checks pass, run to the end and emit DecryptStream of the bytes under the loaded key, then End. -/
def Obligations.DecryptionRunsAgreeWithTheCall : Prop :=
  ∀ (s : State) (c : Bool) (C : List Byte), s.Inv → s.phase = .idle → checksPass s = true →
    s.bs.toNat ≤ C.length →
    ∃ (t : State) (D : List Byte),
      core.run (C.length + 2) (issue (.dec c :: (C.map Instr.data ++ [.fin])) s) = .next t ∧
      decryptStream s.cfg.xform C (Memory.readRun s.key s.klen.toNat) c s.bs.toNat = .ok D ∧
      t.out = s.out ++ D.map Token.byte ++ [Token.endMark] ∧
      t.phase = .idle ∧ t.done = true ∧ t.err = none ∧ t.inbox = s.inbox ∧
      t.key = s.key ∧ t.klen = s.klen ∧ t.bs = s.bs ∧ t.cfg = s.cfg

/-- R140, R184: on the machine itself, what an encryption emits, fed to a decryption with the same key,
block size and selector, comes out as the plaintext. -/
def Obligations.TheMachineDecryptsWhatItEncrypts : Prop :=
  ∀ (s : State) (c v : Bool) (P : List Byte), s.Inv → s.phase = .idle → checksPass s = true →
    (v = true ∨ IvPort.canSupply s.ivin s.bs.toNat = true) →
    ∃ (t u : State) (C : List Byte),
      core.run (P.length + 2) (issue (.enc c v :: (P.map Instr.data ++ [.fin])) s) = .next t ∧
      t.out = s.out ++ C.map Token.byte ++ [Token.endMark] ∧ C.length = s.bs.toNat + P.length ∧
      core.run (C.length + 2) (issue (.dec c :: (C.map Instr.data ++ [.fin])) t) = .next u ∧
      u.out = t.out ++ P.map Token.byte ++ [Token.endMark]
end

