-- ==== Sys2Proof/Laws/Encoding.lean ====
section
/-! SUPPORT. The encoding as arithmetic: the number each word is, and the fields of a word as quotients and
remainders, so that facts about decoding are facts about numbers. -/

namespace Sys2Proof

theorem toNat_append {m n : Nat} (x : BitVec m) (y : BitVec n) :
    (x ++ y).toNat = x.toNat * 2 ^ n + y.toNat := by
  rw [BitVec.toNat_append, Nat.shiftLeft_eq, Nat.mul_comm, ← Nat.two_pow_add_eq_or_of_lt y.isLt]

theorem opcodeOf_toNat (w : Word) : (opcodeOf w).toNat = w.toNat / 2 ^ 24 := by
  have := w.isLt
  simp only [opcodeOf, BitVec.extractLsb'_toNat, Nat.shiftRight_eq_div_pow]
  omega

theorem field_toNat (w : Word) (lo n : Nat) :
    (w.extractLsb' lo n).toNat = w.toNat / 2 ^ lo % 2 ^ n := by
  simp only [BitVec.extractLsb'_toNat, Nat.shiftRight_eq_div_pow]

/-- A field is zero when its number is. -/
theorem field_eq_zero_iff (w : Word) (lo n : Nat) :
    w.extractLsb' lo n = 0 ↔ w.toNat / 2 ^ lo % 2 ^ n = 0 := by
  rw [← BitVec.toNat_inj, field_toNat]
  simp

theorem bit_eq (w : Word) (i : Nat) : w.getLsbD i = decide (w.toNat / 2 ^ i % 2 = 1) := by
  rw [BitVec.getLsbD, Nat.testBit_eq_decide_div_mod_eq]

theorem wordZ_toNat (opc : BitVec 8) : (wordZ opc).toNat = opc.toNat * 2 ^ 24 :=
  (toNat_append opc 0#24).trans (by simp)

theorem wordB_toNat (opc byte : BitVec 8) : (wordB opc byte).toNat = opc.toNat * 2 ^ 24 + byte.toNat := by
  refine (toNat_append (opc ++ 0#16) byte).trans ?_
  rw [toNat_append, BitVec.toNat_ofNat]
  omega

theorem wordH_toNat (opc : BitVec 8) (size : BitVec 16) :
    (wordH opc size).toNat = opc.toNat * 2 ^ 24 + size.toNat := by
  refine (toNat_append (opc ++ 0#8) size).trans ?_
  rw [toNat_append, BitVec.toNat_ofNat]
  omega

/-- The number of each command's word. -/
theorem encode_toNat (i : Instr) : (encode i).toNat =
    match i with
    | .nop => 0
    | .srst => 0x01000000
    | .keyclr => 0x10000000
    | .keyb b => 0x11000000 + b.toNat
    | .kwin o => 0x12000000 + o.toNat
    | .setbs n => 0x20000000 + n.toNat
    | .setfill b => 0x21000000 + b.toNat
    | .ivclr => 0x22000000
    | .ivb b => 0x23000000 + b.toNat
    | .enc c v => 0x30000000 + v.toNat * 2 + c.toNat
    | .dec c => 0x31000000 + c.toNat
    | .data b => 0x40000000 + b.toNat
    | .fin => 0x41000000 := by
  cases i with
  | nop => exact wordZ_toNat _
  | srst => exact wordZ_toNat _
  | keyclr => exact wordZ_toNat _
  | keyb b => exact wordB_toNat _ _
  | kwin o => exact toNat_append 0x12#8 o
  | setbs n => exact wordH_toNat _ _
  | setfill b => exact wordB_toNat _ _
  | ivclr => exact wordZ_toNat _
  | ivb b => exact wordB_toNat _ _
  | enc c v => cases c <;> cases v <;> rfl
  | dec c => cases c <;> rfl
  | data b => exact wordB_toNat _ _
  | fin => exact wordZ_toNat _

/-- Two ways a word can fail its format or pass it (R68 b). -/
theorem ifZero_eq {n : Nat} (w : Word) (z : BitVec n) (i : Instr) :
    ifZero w z i = if z = 0 then .ok i else .error (.nonzeroBits (opcodeOf w)) := rfl

/-- A word passes its format check exactly when the checked bits are 0. -/
theorem ifZero_ok_iff {n : Nat} (w : Word) (z : BitVec n) (i j : Instr) :
    ifZero w z i = .ok j ↔ z = 0 ∧ i = j := by
  unfold ifZero
  split <;> simp_all

end Sys2Proof
end

