-- ==== Sys2Proof/Laws/Memory.lean ====
section
/-! SUPPORT. The laws of the byte arrays: a byte written is read back, every other byte is left alone,
every operation keeps the canonical form and the capacity, and equal contents are equal data. -/

namespace Sys2Proof.Machine

theorem Memory.read_nil (i : Nat) : Memory.read [] i = Memory.blank := rfl

theorem Memory.read_cons (a : Nat) (b : Byte) (m : Memory) (i : Nat) :
    Memory.read ((a, b) :: m) i = if a = i then b else Memory.read m i := rfl

theorem Memory.wfFrom_cons (lo a : Nat) (b : Byte) (m : Memory) :
    Memory.wfFrom lo ((a, b) :: m) = true ↔ lo ≤ a ∧ b ≠ Memory.blank ∧ Memory.wfFrom (a + 1) m = true := by
  simp [Memory.wfFrom, and_assoc]

/-- Below its bound a canonical array lists nothing. -/
theorem Memory.read_below_bound {lo : Nat} {m : Memory} (h : Memory.wfFrom lo m = true) {i : Nat}
    (hi : i < lo) : Memory.read m i = Memory.blank := by
  induction m generalizing lo with
  | nil => rfl
  | cons c m ih =>
    obtain ⟨a, b⟩ := c
    rw [Memory.wfFrom_cons] at h
    rw [Memory.read_cons, if_neg (by omega)]
    exact ih h.2.2 (by omega)

theorem Memory.wfFrom_mono {lo lo' : Nat} {m : Memory} (h : Memory.wfFrom lo m = true) (hle : lo' ≤ lo) :
    Memory.wfFrom lo' m = true := by
  cases m with
  | nil => rfl
  | cons c m =>
    obtain ⟨a, b⟩ := c
    rw [Memory.wfFrom_cons] at h ⊢
    exact ⟨by omega, h.2⟩

/-- A write leaves every other byte alone. -/
theorem Memory.read_write_other {i j : Nat} (hij : i ≠ j) (m : Memory) (v : Byte) :
    Memory.read (Memory.write m i v) j = Memory.read m j := by
  induction m with
  | nil =>
    unfold Memory.write
    split
    · rfl
    · rw [Memory.read_cons, if_neg hij]
  | cons c m ih =>
    obtain ⟨a, b⟩ := c
    unfold Memory.write
    split
    · split
      · rfl
      · rw [Memory.read_cons, if_neg hij]
    · split
      · rename_i hia
        subst hia
        split <;> simp [Memory.read_cons, hij]
      · simp [Memory.read_cons, ih]

/-- In a canonical array a byte written is read back. -/
theorem Memory.read_write_same_from {lo : Nat} {m : Memory} (h : Memory.wfFrom lo m = true) (i : Nat)
    (v : Byte) : Memory.read (Memory.write m i v) i = v := by
  induction m generalizing lo with
  | nil =>
    unfold Memory.write
    split
    · rename_i hv
      rw [hv, Memory.read_nil]
    · simp [Memory.read_cons]
  | cons c m ih =>
    obtain ⟨a, b⟩ := c
    rw [Memory.wfFrom_cons] at h
    unfold Memory.write
    split
    · split
      · rename_i hia hv
        rw [hv, Memory.read_cons, if_neg (by omega)]
        exact Memory.read_below_bound h.2.2 (by omega)
      · simp [Memory.read_cons]
    · split
      · rename_i hia
        split
        · rename_i hv
          rw [hv]
          exact Memory.read_below_bound h.2.2 (by omega)
        · simp [Memory.read_cons]
      · rename_i hia
        rw [Memory.read_cons, if_neg (by omega)]
        exact ih h.2.2

theorem Memory.read_write_same {m : Memory} (h : Memory.wf m = true) (i : Nat) (v : Byte) :
    Memory.read (Memory.write m i v) i = v := Memory.read_write_same_from h i v

/-- One byte after a write of one byte. -/
theorem Memory.read_write {m : Memory} (h : Memory.wf m = true) (i j : Nat) (v : Byte) :
    Memory.read (Memory.write m i v) j = if i = j then v else Memory.read m j := by
  split
  · rename_i hij
    subst hij
    exact Memory.read_write_same h i v
  · rename_i hij
    exact Memory.read_write_other hij m v

theorem Memory.wfFrom_write {lo : Nat} {m : Memory} (h : Memory.wfFrom lo m = true) {i : Nat}
    (hi : lo ≤ i) (v : Byte) : Memory.wfFrom lo (Memory.write m i v) = true := by
  induction m generalizing lo with
  | nil =>
    unfold Memory.write
    split
    · rfl
    · rename_i hv
      rw [Memory.wfFrom_cons]
      exact ⟨hi, hv, rfl⟩
  | cons c m ih =>
    obtain ⟨a, b⟩ := c
    have h' := h
    rw [Memory.wfFrom_cons] at h
    unfold Memory.write
    split
    · rename_i hia
      split
      · exact h'
      · rename_i hv
        rw [Memory.wfFrom_cons, Memory.wfFrom_cons]
        exact ⟨hi, hv, by omega, h.2⟩
    · split
      · rename_i hia
        split
        · exact Memory.wfFrom_mono h.2.2 (by omega)
        · rename_i hv
          rw [Memory.wfFrom_cons]
          exact ⟨hi, hv, by rw [hia]; exact h.2.2⟩
      · rw [Memory.wfFrom_cons]
        exact ⟨h.1, h.2.1, ih h.2.2 (by omega)⟩

/-- A write keeps the canonical form. -/
theorem Memory.wf_write {m : Memory} (h : Memory.wf m = true) (i : Nat) (v : Byte) :
    Memory.wf (Memory.write m i v) = true := Memory.wfFrom_write h (Nat.zero_le i) v

theorem Memory.wf_nil : Memory.wf [] = true := rfl

theorem Memory.below_cons (c : Host.Cell) (m : Memory) (n : Nat) :
    Memory.below (c :: m) n = true ↔ c.1 < n ∧ Memory.below m n = true := by
  simp [Memory.below]

/-- A write below the capacity keeps the array within it. -/
theorem Memory.below_write {m : Memory} {n : Nat} (h : Memory.below m n = true) {i : Nat} (hi : i < n)
    (v : Byte) : Memory.below (Memory.write m i v) n = true := by
  induction m with
  | nil =>
    unfold Memory.write
    split
    · rfl
    · rw [Memory.below_cons]
      exact ⟨hi, rfl⟩
  | cons c m ih =>
    obtain ⟨a, b⟩ := c
    have h' := h
    rw [Memory.below_cons] at h
    unfold Memory.write
    split
    · split
      · exact h'
      · rw [Memory.below_cons]
        exact ⟨hi, h'⟩
    · split
      · split
        · exact h.2
        · rw [Memory.below_cons]
          exact ⟨hi, h.2⟩
      · rw [Memory.below_cons]
        exact ⟨h.1, ih h.2⟩

theorem Memory.below_mono {m : Memory} {n n' : Nat} (h : Memory.below m n = true) (hn : n ≤ n') :
    Memory.below m n' = true := by
  simp only [Memory.below, List.all_eq_true, decide_eq_true_eq] at h ⊢
  exact fun c hc => lt_of_lt_of_le (h c hc) hn

/-- At and above its capacity an array reads as an unlisted index. -/
theorem Memory.read_above {m : Memory} {n : Nat} (h : Memory.below m n = true) {i : Nat} (hi : n ≤ i) :
    Memory.read m i = Memory.blank := by
  induction m with
  | nil => rfl
  | cons c m ih =>
    obtain ⟨a, b⟩ := c
    rw [Memory.below_cons] at h
    rw [Memory.read_cons, if_neg (by have := h.1; omega)]
    exact ih h.2

/-! ### Runs of bytes -/

theorem Memory.wf_writeRun {m : Memory} (h : Memory.wf m = true) (i : Nat) (l : List Byte) :
    Memory.wf (Memory.writeRun m i l) = true := by
  induction l generalizing m i with
  | nil => exact h
  | cons v vs ih => exact ih (Memory.wf_write h i v) (i + 1)

theorem Memory.below_writeRun {m : Memory} {n : Nat} (h : Memory.below m n = true) {i : Nat} {l : List Byte}
    (hi : i + l.length ≤ n) : Memory.below (Memory.writeRun m i l) n = true := by
  induction l generalizing m i with
  | nil => exact h
  | cons v vs ih =>
    simp only [List.length_cons] at hi
    exact ih (Memory.below_write h (by omega) v) (by omega)

/-- A run of writes leaves every byte outside it alone. -/
theorem Memory.read_writeRun_outside (m : Memory) (i : Nat) (l : List Byte) {j : Nat}
    (hj : j < i ∨ i + l.length ≤ j) : Memory.read (Memory.writeRun m i l) j = Memory.read m j := by
  induction l generalizing m i with
  | nil => rfl
  | cons v vs ih =>
    simp only [List.length_cons] at hj
    rw [Memory.writeRun, ih _ _ (by omega), Memory.read_write_other (by omega)]

/-- A run of bytes written to a canonical array is read back. -/
theorem Memory.read_writeRun_inside {m : Memory} (h : Memory.wf m = true) (i : Nat) (l : List Byte) {j : Nat}
    (hj : j < l.length) : Memory.read (Memory.writeRun m i l) (i + j) = l[j] := by
  induction l generalizing m i j with
  | nil => simp at hj
  | cons v vs ih =>
    rw [Memory.writeRun]
    cases j with
    | zero =>
      rw [Memory.read_writeRun_outside _ _ _ (by omega), Nat.add_zero, Memory.read_write_same h]
      rfl
    | succ j =>
      have := ih (Memory.wf_write h i v) (i + 1) (j := j) (by simpa using hj)
      rw [show i + (j + 1) = i + 1 + j by omega, this]
      rfl

@[simp] theorem Memory.readRun_length (m : Memory) (n : Nat) : (Memory.readRun m n).length = n := by
  simp [Memory.readRun]

@[simp] theorem Memory.readRun_getElem (m : Memory) (n j : Nat) (hj : j < (Memory.readRun m n).length) :
    (Memory.readRun m n)[j] = Memory.read m j := by
  simp [Memory.readRun]

/-- What was written at the start of a canonical array is read back as a run. -/
theorem Memory.readRun_writeRun {m : Memory} (h : Memory.wf m = true) (l : List Byte) :
    Memory.readRun (Memory.writeRun m 0 l) l.length = l := by
  apply List.ext_getElem
  · simp
  · intro j h1 h2
    have := Memory.read_writeRun_inside h 0 l (j := j) h2
    rw [Memory.readRun_getElem]
    simpa using this

/-- Two arrays that agree below `n` give the same run of `n` bytes. -/
theorem Memory.readRun_congr {m m' : Memory} {n : Nat} (h : ∀ i, i < n → Memory.read m i = Memory.read m' i) :
    Memory.readRun m n = Memory.readRun m' n := by
  apply List.ext_getElem
  · simp
  · intro j h1 h2
    simpa using h j (by simpa using h1)

/-- Equal contents are equal data: the canonical form determines the list. -/
theorem Memory.ext_from {lo : Nat} {m m' : Memory} (h : Memory.wfFrom lo m = true)
    (h' : Memory.wfFrom lo m' = true) (hr : ∀ i, Memory.read m i = Memory.read m' i) : m = m' := by
  induction m generalizing lo m' with
  | nil =>
    cases m' with
    | nil => rfl
    | cons c m' =>
      obtain ⟨a, b⟩ := c
      rw [Memory.wfFrom_cons] at h'
      have := hr a
      rw [Memory.read_nil, Memory.read_cons, if_pos rfl] at this
      exact absurd this.symm h'.2.1
  | cons c m ih =>
    obtain ⟨a, b⟩ := c
    rw [Memory.wfFrom_cons] at h
    cases m' with
    | nil =>
      have := hr a
      rw [Memory.read_nil, Memory.read_cons, if_pos rfl] at this
      exact absurd this h.2.1
    | cons c' m' =>
      obtain ⟨a', b'⟩ := c'
      rw [Memory.wfFrom_cons] at h'
      have haa : a = a' := by
        rcases Nat.lt_trichotomy a a' with hlt | heq | hgt
        · have := hr a
          rw [Memory.read_cons, if_pos rfl, Memory.read_cons, if_neg (by omega),
            Memory.read_below_bound h'.2.2 (by omega)] at this
          exact absurd this h.2.1
        · exact heq
        · have := hr a'
          rw [Memory.read_cons, if_neg (by omega), Memory.read_cons, if_pos rfl,
            Memory.read_below_bound h.2.2 (by omega)] at this
          exact absurd this.symm h'.2.1
      subst haa
      have hb : b = b' := by
        have := hr a
        simpa [Memory.read_cons] using this
      subst hb
      have hm : m = m' := by
        apply ih h.2.2 h'.2.2
        intro i
        by_cases hia : a = i
        · rw [← hia, Memory.read_below_bound h.2.2 (by omega), Memory.read_below_bound h'.2.2 (by omega)]
        · have := hr i
          simpa [Memory.read_cons, hia] using this
      rw [hm]

theorem Memory.ext {m m' : Memory} (h : Memory.wf m = true) (h' : Memory.wf m' = true)
    (hr : ∀ i, Memory.read m i = Memory.read m' i) : m = m' := Memory.ext_from h h' hr

end Sys2Proof.Machine
end

