-- ==== Sys2Proof/Laws/State.lean ====
section
/-! SUPPORT. One lemma per field per named update of the state, true by unfolding, so that no proof unfolds a
record update. -/

namespace Sys2Proof.Machine

/-! ### `clearFlags` -/

@[simp] theorem clearFlags_key (s : State) : (clearFlags s).key = s.key := rfl
@[simp] theorem clearFlags_klen (s : State) : (clearFlags s).klen = s.klen := rfl
@[simp] theorem clearFlags_bs (s : State) : (clearFlags s).bs = s.bs := rfl
@[simp] theorem clearFlags_filler (s : State) : (clearFlags s).filler = s.filler := rfl
@[simp] theorem clearFlags_ivfix (s : State) : (clearFlags s).ivfix = s.ivfix := rfl
@[simp] theorem clearFlags_ivlen (s : State) : (clearFlags s).ivlen = s.ivlen := rfl
@[simp] theorem clearFlags_dir (s : State) : (clearFlags s).dir = s.dir := rfl
@[simp] theorem clearFlags_chain (s : State) : (clearFlags s).chain = s.chain := rfl
@[simp] theorem clearFlags_ivsel (s : State) : (clearFlags s).ivsel = s.ivsel := rfl
@[simp] theorem clearFlags_buf (s : State) : (clearFlags s).buf = s.buf := rfl
@[simp] theorem clearFlags_prev (s : State) : (clearFlags s).prev = s.prev := rfl
@[simp] theorem clearFlags_phase (s : State) : (clearFlags s).phase = s.phase := rfl
@[simp] theorem clearFlags_fill (s : State) : (clearFlags s).fill = s.fill := rfl
@[simp] theorem clearFlags_off (s : State) : (clearFlags s).off = s.off := rfl
@[simp] theorem clearFlags_done (s : State) : (clearFlags s).done = false := rfl
@[simp] theorem clearFlags_err (s : State) : (clearFlags s).err = none := rfl
@[simp] theorem clearFlags_out (s : State) : (clearFlags s).out = s.out := rfl
@[simp] theorem clearFlags_cfg (s : State) : (clearFlags s).cfg = s.cfg := rfl
@[simp] theorem clearFlags_ivin (s : State) : (clearFlags s).ivin = s.ivin := rfl
@[simp] theorem clearFlags_inbox (s : State) : (clearFlags s).inbox = s.inbox := rfl
@[simp] theorem clearFlags_replies (s : State) : (clearFlags s).replies = s.replies := rfl

/-! ### `emitBytes` -/

@[simp] theorem emitBytes_key (l : List Byte) (s : State) : (emitBytes l s).key = s.key := rfl
@[simp] theorem emitBytes_klen (l : List Byte) (s : State) : (emitBytes l s).klen = s.klen := rfl
@[simp] theorem emitBytes_bs (l : List Byte) (s : State) : (emitBytes l s).bs = s.bs := rfl
@[simp] theorem emitBytes_filler (l : List Byte) (s : State) : (emitBytes l s).filler = s.filler := rfl
@[simp] theorem emitBytes_ivfix (l : List Byte) (s : State) : (emitBytes l s).ivfix = s.ivfix := rfl
@[simp] theorem emitBytes_ivlen (l : List Byte) (s : State) : (emitBytes l s).ivlen = s.ivlen := rfl
@[simp] theorem emitBytes_dir (l : List Byte) (s : State) : (emitBytes l s).dir = s.dir := rfl
@[simp] theorem emitBytes_chain (l : List Byte) (s : State) : (emitBytes l s).chain = s.chain := rfl
@[simp] theorem emitBytes_ivsel (l : List Byte) (s : State) : (emitBytes l s).ivsel = s.ivsel := rfl
@[simp] theorem emitBytes_buf (l : List Byte) (s : State) : (emitBytes l s).buf = s.buf := rfl
@[simp] theorem emitBytes_prev (l : List Byte) (s : State) : (emitBytes l s).prev = s.prev := rfl
@[simp] theorem emitBytes_phase (l : List Byte) (s : State) : (emitBytes l s).phase = s.phase := rfl
@[simp] theorem emitBytes_fill (l : List Byte) (s : State) : (emitBytes l s).fill = s.fill := rfl
@[simp] theorem emitBytes_off (l : List Byte) (s : State) : (emitBytes l s).off = s.off := rfl
@[simp] theorem emitBytes_done (l : List Byte) (s : State) : (emitBytes l s).done = s.done := rfl
@[simp] theorem emitBytes_err (l : List Byte) (s : State) : (emitBytes l s).err = s.err := rfl
@[simp] theorem emitBytes_out (l : List Byte) (s : State) : (emitBytes l s).out = s.out ++ l.map Token.byte := rfl
@[simp] theorem emitBytes_cfg (l : List Byte) (s : State) : (emitBytes l s).cfg = s.cfg := rfl
@[simp] theorem emitBytes_ivin (l : List Byte) (s : State) : (emitBytes l s).ivin = s.ivin := rfl
@[simp] theorem emitBytes_inbox (l : List Byte) (s : State) : (emitBytes l s).inbox = s.inbox := rfl
@[simp] theorem emitBytes_replies (l : List Byte) (s : State) : (emitBytes l s).replies = s.replies := rfl

/-! ### `emitEnd` -/

@[simp] theorem emitEnd_key (s : State) : (emitEnd s).key = s.key := rfl
@[simp] theorem emitEnd_klen (s : State) : (emitEnd s).klen = s.klen := rfl
@[simp] theorem emitEnd_bs (s : State) : (emitEnd s).bs = s.bs := rfl
@[simp] theorem emitEnd_filler (s : State) : (emitEnd s).filler = s.filler := rfl
@[simp] theorem emitEnd_ivfix (s : State) : (emitEnd s).ivfix = s.ivfix := rfl
@[simp] theorem emitEnd_ivlen (s : State) : (emitEnd s).ivlen = s.ivlen := rfl
@[simp] theorem emitEnd_dir (s : State) : (emitEnd s).dir = s.dir := rfl
@[simp] theorem emitEnd_chain (s : State) : (emitEnd s).chain = s.chain := rfl
@[simp] theorem emitEnd_ivsel (s : State) : (emitEnd s).ivsel = s.ivsel := rfl
@[simp] theorem emitEnd_buf (s : State) : (emitEnd s).buf = s.buf := rfl
@[simp] theorem emitEnd_prev (s : State) : (emitEnd s).prev = s.prev := rfl
@[simp] theorem emitEnd_phase (s : State) : (emitEnd s).phase = s.phase := rfl
@[simp] theorem emitEnd_fill (s : State) : (emitEnd s).fill = s.fill := rfl
@[simp] theorem emitEnd_off (s : State) : (emitEnd s).off = s.off := rfl
@[simp] theorem emitEnd_done (s : State) : (emitEnd s).done = s.done := rfl
@[simp] theorem emitEnd_err (s : State) : (emitEnd s).err = s.err := rfl
@[simp] theorem emitEnd_out (s : State) : (emitEnd s).out = s.out ++ [Token.endMark] := rfl
@[simp] theorem emitEnd_cfg (s : State) : (emitEnd s).cfg = s.cfg := rfl
@[simp] theorem emitEnd_ivin (s : State) : (emitEnd s).ivin = s.ivin := rfl
@[simp] theorem emitEnd_inbox (s : State) : (emitEnd s).inbox = s.inbox := rfl
@[simp] theorem emitEnd_replies (s : State) : (emitEnd s).replies = s.replies := rfl

/-! ### `setPrev` -/

@[simp] theorem setPrev_key (l : List Byte) (s : State) : (setPrev l s).key = s.key := rfl
@[simp] theorem setPrev_klen (l : List Byte) (s : State) : (setPrev l s).klen = s.klen := rfl
@[simp] theorem setPrev_bs (l : List Byte) (s : State) : (setPrev l s).bs = s.bs := rfl
@[simp] theorem setPrev_filler (l : List Byte) (s : State) : (setPrev l s).filler = s.filler := rfl
@[simp] theorem setPrev_ivfix (l : List Byte) (s : State) : (setPrev l s).ivfix = s.ivfix := rfl
@[simp] theorem setPrev_ivlen (l : List Byte) (s : State) : (setPrev l s).ivlen = s.ivlen := rfl
@[simp] theorem setPrev_dir (l : List Byte) (s : State) : (setPrev l s).dir = s.dir := rfl
@[simp] theorem setPrev_chain (l : List Byte) (s : State) : (setPrev l s).chain = s.chain := rfl
@[simp] theorem setPrev_ivsel (l : List Byte) (s : State) : (setPrev l s).ivsel = s.ivsel := rfl
@[simp] theorem setPrev_buf (l : List Byte) (s : State) : (setPrev l s).buf = s.buf := rfl
@[simp] theorem setPrev_prev (l : List Byte) (s : State) : (setPrev l s).prev = Memory.writeRun s.prev 0 l := rfl
@[simp] theorem setPrev_phase (l : List Byte) (s : State) : (setPrev l s).phase = s.phase := rfl
@[simp] theorem setPrev_fill (l : List Byte) (s : State) : (setPrev l s).fill = s.fill := rfl
@[simp] theorem setPrev_off (l : List Byte) (s : State) : (setPrev l s).off = s.off := rfl
@[simp] theorem setPrev_done (l : List Byte) (s : State) : (setPrev l s).done = s.done := rfl
@[simp] theorem setPrev_err (l : List Byte) (s : State) : (setPrev l s).err = s.err := rfl
@[simp] theorem setPrev_out (l : List Byte) (s : State) : (setPrev l s).out = s.out := rfl
@[simp] theorem setPrev_cfg (l : List Byte) (s : State) : (setPrev l s).cfg = s.cfg := rfl
@[simp] theorem setPrev_ivin (l : List Byte) (s : State) : (setPrev l s).ivin = s.ivin := rfl
@[simp] theorem setPrev_inbox (l : List Byte) (s : State) : (setPrev l s).inbox = s.inbox := rfl
@[simp] theorem setPrev_replies (l : List Byte) (s : State) : (setPrev l s).replies = s.replies := rfl

/-! ### `bufferByte` -/

@[simp] theorem bufferByte_key (b : Byte) (s : State) : (bufferByte b s).key = s.key := rfl
@[simp] theorem bufferByte_klen (b : Byte) (s : State) : (bufferByte b s).klen = s.klen := rfl
@[simp] theorem bufferByte_bs (b : Byte) (s : State) : (bufferByte b s).bs = s.bs := rfl
@[simp] theorem bufferByte_filler (b : Byte) (s : State) : (bufferByte b s).filler = s.filler := rfl
@[simp] theorem bufferByte_ivfix (b : Byte) (s : State) : (bufferByte b s).ivfix = s.ivfix := rfl
@[simp] theorem bufferByte_ivlen (b : Byte) (s : State) : (bufferByte b s).ivlen = s.ivlen := rfl
@[simp] theorem bufferByte_dir (b : Byte) (s : State) : (bufferByte b s).dir = s.dir := rfl
@[simp] theorem bufferByte_chain (b : Byte) (s : State) : (bufferByte b s).chain = s.chain := rfl
@[simp] theorem bufferByte_ivsel (b : Byte) (s : State) : (bufferByte b s).ivsel = s.ivsel := rfl
@[simp] theorem bufferByte_buf (b : Byte) (s : State) : (bufferByte b s).buf = Memory.write s.buf s.fill.toNat b := rfl
@[simp] theorem bufferByte_prev (b : Byte) (s : State) : (bufferByte b s).prev = s.prev := rfl
@[simp] theorem bufferByte_phase (b : Byte) (s : State) : (bufferByte b s).phase = s.phase := rfl
@[simp] theorem bufferByte_fill (b : Byte) (s : State) : (bufferByte b s).fill = s.fill + 1#16 := rfl
@[simp] theorem bufferByte_off (b : Byte) (s : State) : (bufferByte b s).off = s.off := rfl
@[simp] theorem bufferByte_done (b : Byte) (s : State) : (bufferByte b s).done = s.done := rfl
@[simp] theorem bufferByte_err (b : Byte) (s : State) : (bufferByte b s).err = s.err := rfl
@[simp] theorem bufferByte_out (b : Byte) (s : State) : (bufferByte b s).out = s.out := rfl
@[simp] theorem bufferByte_cfg (b : Byte) (s : State) : (bufferByte b s).cfg = s.cfg := rfl
@[simp] theorem bufferByte_ivin (b : Byte) (s : State) : (bufferByte b s).ivin = s.ivin := rfl
@[simp] theorem bufferByte_inbox (b : Byte) (s : State) : (bufferByte b s).inbox = s.inbox := rfl
@[simp] theorem bufferByte_replies (b : Byte) (s : State) : (bufferByte b s).replies = s.replies := rfl

/-! ### `takeIv` -/

@[simp] theorem takeIv_key (n : Nat) (s : State) : (takeIv n s).key = s.key := rfl
@[simp] theorem takeIv_klen (n : Nat) (s : State) : (takeIv n s).klen = s.klen := rfl
@[simp] theorem takeIv_bs (n : Nat) (s : State) : (takeIv n s).bs = s.bs := rfl
@[simp] theorem takeIv_filler (n : Nat) (s : State) : (takeIv n s).filler = s.filler := rfl
@[simp] theorem takeIv_ivfix (n : Nat) (s : State) : (takeIv n s).ivfix = s.ivfix := rfl
@[simp] theorem takeIv_ivlen (n : Nat) (s : State) : (takeIv n s).ivlen = s.ivlen := rfl
@[simp] theorem takeIv_dir (n : Nat) (s : State) : (takeIv n s).dir = s.dir := rfl
@[simp] theorem takeIv_chain (n : Nat) (s : State) : (takeIv n s).chain = s.chain := rfl
@[simp] theorem takeIv_ivsel (n : Nat) (s : State) : (takeIv n s).ivsel = s.ivsel := rfl
@[simp] theorem takeIv_buf (n : Nat) (s : State) : (takeIv n s).buf = s.buf := rfl
@[simp] theorem takeIv_prev (n : Nat) (s : State) : (takeIv n s).prev = s.prev := rfl
@[simp] theorem takeIv_phase (n : Nat) (s : State) : (takeIv n s).phase = s.phase := rfl
@[simp] theorem takeIv_fill (n : Nat) (s : State) : (takeIv n s).fill = s.fill := rfl
@[simp] theorem takeIv_off (n : Nat) (s : State) : (takeIv n s).off = s.off := rfl
@[simp] theorem takeIv_done (n : Nat) (s : State) : (takeIv n s).done = s.done := rfl
@[simp] theorem takeIv_err (n : Nat) (s : State) : (takeIv n s).err = s.err := rfl
@[simp] theorem takeIv_out (n : Nat) (s : State) : (takeIv n s).out = s.out := rfl
@[simp] theorem takeIv_cfg (n : Nat) (s : State) : (takeIv n s).cfg = s.cfg := rfl
@[simp] theorem takeIv_ivin (n : Nat) (s : State) : (takeIv n s).ivin = IvPort.advance s.ivin n := rfl
@[simp] theorem takeIv_inbox (n : Nat) (s : State) : (takeIv n s).inbox = s.inbox := rfl
@[simp] theorem takeIv_replies (n : Nat) (s : State) : (takeIv n s).replies = s.replies := rfl

/-! ### `reply` -/

@[simp] theorem reply_key (w : Word) (s : State) : (reply w s).key = s.key := rfl
@[simp] theorem reply_klen (w : Word) (s : State) : (reply w s).klen = s.klen := rfl
@[simp] theorem reply_bs (w : Word) (s : State) : (reply w s).bs = s.bs := rfl
@[simp] theorem reply_filler (w : Word) (s : State) : (reply w s).filler = s.filler := rfl
@[simp] theorem reply_ivfix (w : Word) (s : State) : (reply w s).ivfix = s.ivfix := rfl
@[simp] theorem reply_ivlen (w : Word) (s : State) : (reply w s).ivlen = s.ivlen := rfl
@[simp] theorem reply_dir (w : Word) (s : State) : (reply w s).dir = s.dir := rfl
@[simp] theorem reply_chain (w : Word) (s : State) : (reply w s).chain = s.chain := rfl
@[simp] theorem reply_ivsel (w : Word) (s : State) : (reply w s).ivsel = s.ivsel := rfl
@[simp] theorem reply_buf (w : Word) (s : State) : (reply w s).buf = s.buf := rfl
@[simp] theorem reply_prev (w : Word) (s : State) : (reply w s).prev = s.prev := rfl
@[simp] theorem reply_phase (w : Word) (s : State) : (reply w s).phase = s.phase := rfl
@[simp] theorem reply_fill (w : Word) (s : State) : (reply w s).fill = s.fill := rfl
@[simp] theorem reply_off (w : Word) (s : State) : (reply w s).off = s.off := rfl
@[simp] theorem reply_done (w : Word) (s : State) : (reply w s).done = s.done := rfl
@[simp] theorem reply_err (w : Word) (s : State) : (reply w s).err = s.err := rfl
@[simp] theorem reply_out (w : Word) (s : State) : (reply w s).out = s.out := rfl
@[simp] theorem reply_cfg (w : Word) (s : State) : (reply w s).cfg = s.cfg := rfl
@[simp] theorem reply_ivin (w : Word) (s : State) : (reply w s).ivin = s.ivin := rfl
@[simp] theorem reply_inbox (w : Word) (s : State) : (reply w s).inbox = s.inbox := rfl
@[simp] theorem reply_replies (w : Word) (s : State) : (reply w s).replies = s.replies ++ [w] := rfl

/-! ### `firstOffset` -/

@[simp] theorem firstOffset_key (s : State) : (firstOffset s).key = s.key := rfl
@[simp] theorem firstOffset_klen (s : State) : (firstOffset s).klen = s.klen := rfl
@[simp] theorem firstOffset_bs (s : State) : (firstOffset s).bs = s.bs := rfl
@[simp] theorem firstOffset_filler (s : State) : (firstOffset s).filler = s.filler := rfl
@[simp] theorem firstOffset_ivfix (s : State) : (firstOffset s).ivfix = s.ivfix := rfl
@[simp] theorem firstOffset_ivlen (s : State) : (firstOffset s).ivlen = s.ivlen := rfl
@[simp] theorem firstOffset_dir (s : State) : (firstOffset s).dir = s.dir := rfl
@[simp] theorem firstOffset_chain (s : State) : (firstOffset s).chain = s.chain := rfl
@[simp] theorem firstOffset_ivsel (s : State) : (firstOffset s).ivsel = s.ivsel := rfl
@[simp] theorem firstOffset_buf (s : State) : (firstOffset s).buf = s.buf := rfl
@[simp] theorem firstOffset_prev (s : State) : (firstOffset s).prev = s.prev := rfl
@[simp] theorem firstOffset_phase (s : State) : (firstOffset s).phase = s.phase := rfl
@[simp] theorem firstOffset_fill (s : State) : (firstOffset s).fill = s.fill := rfl
@[simp] theorem firstOffset_off (s : State) : (firstOffset s).off = BitVec.ofNat 24 (s.bs.toNat % tlen s) := rfl
@[simp] theorem firstOffset_done (s : State) : (firstOffset s).done = s.done := rfl
@[simp] theorem firstOffset_err (s : State) : (firstOffset s).err = s.err := rfl
@[simp] theorem firstOffset_out (s : State) : (firstOffset s).out = s.out := rfl
@[simp] theorem firstOffset_cfg (s : State) : (firstOffset s).cfg = s.cfg := rfl
@[simp] theorem firstOffset_ivin (s : State) : (firstOffset s).ivin = s.ivin := rfl
@[simp] theorem firstOffset_inbox (s : State) : (firstOffset s).inbox = s.inbox := rfl
@[simp] theorem firstOffset_replies (s : State) : (firstOffset s).replies = s.replies := rfl

/-! ### `advanceOffset` -/

@[simp] theorem advanceOffset_key (s : State) : (advanceOffset s).key = s.key := rfl
@[simp] theorem advanceOffset_klen (s : State) : (advanceOffset s).klen = s.klen := rfl
@[simp] theorem advanceOffset_bs (s : State) : (advanceOffset s).bs = s.bs := rfl
@[simp] theorem advanceOffset_filler (s : State) : (advanceOffset s).filler = s.filler := rfl
@[simp] theorem advanceOffset_ivfix (s : State) : (advanceOffset s).ivfix = s.ivfix := rfl
@[simp] theorem advanceOffset_ivlen (s : State) : (advanceOffset s).ivlen = s.ivlen := rfl
@[simp] theorem advanceOffset_dir (s : State) : (advanceOffset s).dir = s.dir := rfl
@[simp] theorem advanceOffset_chain (s : State) : (advanceOffset s).chain = s.chain := rfl
@[simp] theorem advanceOffset_ivsel (s : State) : (advanceOffset s).ivsel = s.ivsel := rfl
@[simp] theorem advanceOffset_buf (s : State) : (advanceOffset s).buf = s.buf := rfl
@[simp] theorem advanceOffset_prev (s : State) : (advanceOffset s).prev = s.prev := rfl
@[simp] theorem advanceOffset_phase (s : State) : (advanceOffset s).phase = s.phase := rfl
@[simp] theorem advanceOffset_fill (s : State) : (advanceOffset s).fill = s.fill := rfl
@[simp] theorem advanceOffset_off (s : State) : (advanceOffset s).off = BitVec.ofNat 24 ((s.off.toNat + s.bs.toNat) % tlen s) := rfl
@[simp] theorem advanceOffset_done (s : State) : (advanceOffset s).done = s.done := rfl
@[simp] theorem advanceOffset_err (s : State) : (advanceOffset s).err = s.err := rfl
@[simp] theorem advanceOffset_out (s : State) : (advanceOffset s).out = s.out := rfl
@[simp] theorem advanceOffset_cfg (s : State) : (advanceOffset s).cfg = s.cfg := rfl
@[simp] theorem advanceOffset_ivin (s : State) : (advanceOffset s).ivin = s.ivin := rfl
@[simp] theorem advanceOffset_inbox (s : State) : (advanceOffset s).inbox = s.inbox := rfl
@[simp] theorem advanceOffset_replies (s : State) : (advanceOffset s).replies = s.replies := rfl

/-! ### `seedWith` -/

@[simp] theorem seedWith_key (l : List Byte) (s : State) : (seedWith l s).key = s.key := rfl
@[simp] theorem seedWith_klen (l : List Byte) (s : State) : (seedWith l s).klen = s.klen := rfl
@[simp] theorem seedWith_bs (l : List Byte) (s : State) : (seedWith l s).bs = s.bs := rfl
@[simp] theorem seedWith_filler (l : List Byte) (s : State) : (seedWith l s).filler = s.filler := rfl
@[simp] theorem seedWith_ivfix (l : List Byte) (s : State) : (seedWith l s).ivfix = s.ivfix := rfl
@[simp] theorem seedWith_ivlen (l : List Byte) (s : State) : (seedWith l s).ivlen = s.ivlen := rfl
@[simp] theorem seedWith_dir (l : List Byte) (s : State) : (seedWith l s).dir = s.dir := rfl
@[simp] theorem seedWith_chain (l : List Byte) (s : State) : (seedWith l s).chain = s.chain := rfl
@[simp] theorem seedWith_ivsel (l : List Byte) (s : State) : (seedWith l s).ivsel = s.ivsel := rfl
@[simp] theorem seedWith_buf (l : List Byte) (s : State) : (seedWith l s).buf = s.buf := rfl
@[simp] theorem seedWith_prev (l : List Byte) (s : State) : (seedWith l s).prev = Memory.writeRun s.prev 0 l := rfl
@[simp] theorem seedWith_phase (l : List Byte) (s : State) : (seedWith l s).phase = s.phase := rfl
@[simp] theorem seedWith_fill (l : List Byte) (s : State) : (seedWith l s).fill = s.fill := rfl
@[simp] theorem seedWith_off (l : List Byte) (s : State) : (seedWith l s).off = BitVec.ofNat 24 (s.bs.toNat % tlen s) := rfl
@[simp] theorem seedWith_done (l : List Byte) (s : State) : (seedWith l s).done = s.done := rfl
@[simp] theorem seedWith_err (l : List Byte) (s : State) : (seedWith l s).err = s.err := rfl
@[simp] theorem seedWith_out (l : List Byte) (s : State) : (seedWith l s).out = s.out ++ l.map Token.byte := rfl
@[simp] theorem seedWith_cfg (l : List Byte) (s : State) : (seedWith l s).cfg = s.cfg := rfl
@[simp] theorem seedWith_ivin (l : List Byte) (s : State) : (seedWith l s).ivin = s.ivin := rfl
@[simp] theorem seedWith_inbox (l : List Byte) (s : State) : (seedWith l s).inbox = s.inbox := rfl
@[simp] theorem seedWith_replies (l : List Byte) (s : State) : (seedWith l s).replies = s.replies := rfl

/-! ### `dropStep` -/

@[simp] theorem dropStep_key (s : State) : (dropStep s).key = s.key := rfl
@[simp] theorem dropStep_klen (s : State) : (dropStep s).klen = s.klen := rfl
@[simp] theorem dropStep_bs (s : State) : (dropStep s).bs = s.bs := rfl
@[simp] theorem dropStep_filler (s : State) : (dropStep s).filler = s.filler := rfl
@[simp] theorem dropStep_ivfix (s : State) : (dropStep s).ivfix = s.ivfix := rfl
@[simp] theorem dropStep_ivlen (s : State) : (dropStep s).ivlen = s.ivlen := rfl
@[simp] theorem dropStep_dir (s : State) : (dropStep s).dir = s.dir := rfl
@[simp] theorem dropStep_chain (s : State) : (dropStep s).chain = s.chain := rfl
@[simp] theorem dropStep_ivsel (s : State) : (dropStep s).ivsel = s.ivsel := rfl
@[simp] theorem dropStep_buf (s : State) : (dropStep s).buf = s.buf := rfl
@[simp] theorem dropStep_prev (s : State) : (dropStep s).prev = Memory.writeRun s.prev 0 (sliceBytes s s.bs.toNat) := rfl
@[simp] theorem dropStep_phase (s : State) : (dropStep s).phase = .main := rfl
@[simp] theorem dropStep_fill (s : State) : (dropStep s).fill = s.fill := rfl
@[simp] theorem dropStep_off (s : State) : (dropStep s).off = BitVec.ofNat 24 (s.bs.toNat % tlen s) := rfl
@[simp] theorem dropStep_done (s : State) : (dropStep s).done = s.done := rfl
@[simp] theorem dropStep_err (s : State) : (dropStep s).err = s.err := rfl
@[simp] theorem dropStep_out (s : State) : (dropStep s).out = s.out := rfl
@[simp] theorem dropStep_cfg (s : State) : (dropStep s).cfg = s.cfg := rfl
@[simp] theorem dropStep_ivin (s : State) : (dropStep s).ivin = s.ivin := rfl
@[simp] theorem dropStep_inbox (s : State) : (dropStep s).inbox = s.inbox := rfl
@[simp] theorem dropStep_replies (s : State) : (dropStep s).replies = s.replies := rfl

/-! ### `openEncrypt` -/

@[simp] theorem openEncrypt_key (c v : Bool) (s : State) : (openEncrypt c v s).key = s.key := rfl
@[simp] theorem openEncrypt_klen (c v : Bool) (s : State) : (openEncrypt c v s).klen = s.klen := rfl
@[simp] theorem openEncrypt_bs (c v : Bool) (s : State) : (openEncrypt c v s).bs = s.bs := rfl
@[simp] theorem openEncrypt_filler (c v : Bool) (s : State) : (openEncrypt c v s).filler = s.filler := rfl
@[simp] theorem openEncrypt_ivfix (c v : Bool) (s : State) : (openEncrypt c v s).ivfix = s.ivfix := rfl
@[simp] theorem openEncrypt_ivlen (c v : Bool) (s : State) : (openEncrypt c v s).ivlen = s.ivlen := rfl
@[simp] theorem openEncrypt_dir (c v : Bool) (s : State) : (openEncrypt c v s).dir = .encrypt := rfl
@[simp] theorem openEncrypt_chain (c v : Bool) (s : State) : (openEncrypt c v s).chain = c := rfl
@[simp] theorem openEncrypt_ivsel (c v : Bool) (s : State) : (openEncrypt c v s).ivsel = v := rfl
@[simp] theorem openEncrypt_buf (c v : Bool) (s : State) : (openEncrypt c v s).buf = s.buf := rfl
@[simp] theorem openEncrypt_prev (c v : Bool) (s : State) : (openEncrypt c v s).prev = s.prev := rfl
@[simp] theorem openEncrypt_phase (c v : Bool) (s : State) : (openEncrypt c v s).phase = .ivseed := rfl
@[simp] theorem openEncrypt_fill (c v : Bool) (s : State) : (openEncrypt c v s).fill = 0#16 := rfl
@[simp] theorem openEncrypt_off (c v : Bool) (s : State) : (openEncrypt c v s).off = s.off := rfl
@[simp] theorem openEncrypt_done (c v : Bool) (s : State) : (openEncrypt c v s).done = s.done := rfl
@[simp] theorem openEncrypt_err (c v : Bool) (s : State) : (openEncrypt c v s).err = s.err := rfl
@[simp] theorem openEncrypt_out (c v : Bool) (s : State) : (openEncrypt c v s).out = s.out := rfl
@[simp] theorem openEncrypt_cfg (c v : Bool) (s : State) : (openEncrypt c v s).cfg = s.cfg := rfl
@[simp] theorem openEncrypt_ivin (c v : Bool) (s : State) : (openEncrypt c v s).ivin = s.ivin := rfl
@[simp] theorem openEncrypt_inbox (c v : Bool) (s : State) : (openEncrypt c v s).inbox = s.inbox := rfl
@[simp] theorem openEncrypt_replies (c v : Bool) (s : State) : (openEncrypt c v s).replies = s.replies := rfl

/-! ### `closeOutput` -/

@[simp] theorem closeOutput_key (s : State) : (closeOutput s).key = s.key := rfl
@[simp] theorem closeOutput_klen (s : State) : (closeOutput s).klen = s.klen := rfl
@[simp] theorem closeOutput_bs (s : State) : (closeOutput s).bs = s.bs := rfl
@[simp] theorem closeOutput_filler (s : State) : (closeOutput s).filler = s.filler := rfl
@[simp] theorem closeOutput_ivfix (s : State) : (closeOutput s).ivfix = s.ivfix := rfl
@[simp] theorem closeOutput_ivlen (s : State) : (closeOutput s).ivlen = s.ivlen := rfl
@[simp] theorem closeOutput_dir (s : State) : (closeOutput s).dir = s.dir := rfl
@[simp] theorem closeOutput_chain (s : State) : (closeOutput s).chain = s.chain := rfl
@[simp] theorem closeOutput_ivsel (s : State) : (closeOutput s).ivsel = s.ivsel := rfl
@[simp] theorem closeOutput_buf (s : State) : (closeOutput s).buf = s.buf := rfl
@[simp] theorem closeOutput_prev (s : State) : (closeOutput s).prev = s.prev := rfl
@[simp] theorem closeOutput_phase (s : State) : (closeOutput s).phase = .idle := rfl
@[simp] theorem closeOutput_fill (s : State) : (closeOutput s).fill = s.fill := rfl
@[simp] theorem closeOutput_off (s : State) : (closeOutput s).off = s.off := rfl
@[simp] theorem closeOutput_done (s : State) : (closeOutput s).done = true := rfl
@[simp] theorem closeOutput_err (s : State) : (closeOutput s).err = s.err := rfl
@[simp] theorem closeOutput_out (s : State) : (closeOutput s).out = s.out ++ [Token.endMark] := rfl
@[simp] theorem closeOutput_cfg (s : State) : (closeOutput s).cfg = s.cfg := rfl
@[simp] theorem closeOutput_ivin (s : State) : (closeOutput s).ivin = s.ivin := rfl
@[simp] theorem closeOutput_inbox (s : State) : (closeOutput s).inbox = s.inbox := rfl
@[simp] theorem closeOutput_replies (s : State) : (closeOutput s).replies = s.replies := rfl

/-! ### `resetState` -/

@[simp] theorem resetState_key (s : State) : (resetState s).key = [] := rfl
@[simp] theorem resetState_klen (s : State) : (resetState s).klen = 0#16 := rfl
@[simp] theorem resetState_bs (s : State) : (resetState s).bs = 8#16 := rfl
@[simp] theorem resetState_filler (s : State) : (resetState s).filler = s.cfg.fillerReset := rfl
@[simp] theorem resetState_ivfix (s : State) : (resetState s).ivfix = [] := rfl
@[simp] theorem resetState_ivlen (s : State) : (resetState s).ivlen = 0#16 := rfl
@[simp] theorem resetState_dir (s : State) : (resetState s).dir = .encrypt := rfl
@[simp] theorem resetState_chain (s : State) : (resetState s).chain = false := rfl
@[simp] theorem resetState_ivsel (s : State) : (resetState s).ivsel = false := rfl
@[simp] theorem resetState_buf (s : State) : (resetState s).buf = [] := rfl
@[simp] theorem resetState_prev (s : State) : (resetState s).prev = [] := rfl
@[simp] theorem resetState_phase (s : State) : (resetState s).phase = .idle := rfl
@[simp] theorem resetState_fill (s : State) : (resetState s).fill = 0#16 := rfl
@[simp] theorem resetState_off (s : State) : (resetState s).off = 0#24 := rfl
@[simp] theorem resetState_done (s : State) : (resetState s).done = false := rfl
@[simp] theorem resetState_err (s : State) : (resetState s).err = none := rfl
@[simp] theorem resetState_out (s : State) : (resetState s).out = [] := rfl
@[simp] theorem resetState_cfg (s : State) : (resetState s).cfg = s.cfg := rfl
@[simp] theorem resetState_ivin (s : State) : (resetState s).ivin = s.ivin := rfl
@[simp] theorem resetState_inbox (s : State) : (resetState s).inbox = s.inbox := rfl
@[simp] theorem resetState_replies (s : State) : (resetState s).replies = s.replies := rfl

/-! ### `raise` (R165): every error writes ERR; two of them also leave the operation -/

@[simp] theorem raise_key (e : ErrKind) (s : State) : (raise e s).key = s.key := by cases e <;> rfl
@[simp] theorem raise_klen (e : ErrKind) (s : State) : (raise e s).klen = s.klen := by cases e <;> rfl
@[simp] theorem raise_bs (e : ErrKind) (s : State) : (raise e s).bs = s.bs := by cases e <;> rfl
@[simp] theorem raise_filler (e : ErrKind) (s : State) : (raise e s).filler = s.filler := by cases e <;> rfl
@[simp] theorem raise_ivfix (e : ErrKind) (s : State) : (raise e s).ivfix = s.ivfix := by cases e <;> rfl
@[simp] theorem raise_ivlen (e : ErrKind) (s : State) : (raise e s).ivlen = s.ivlen := by cases e <;> rfl
@[simp] theorem raise_dir (e : ErrKind) (s : State) : (raise e s).dir = s.dir := by cases e <;> rfl
@[simp] theorem raise_chain (e : ErrKind) (s : State) : (raise e s).chain = s.chain := by cases e <;> rfl
@[simp] theorem raise_ivsel (e : ErrKind) (s : State) : (raise e s).ivsel = s.ivsel := by cases e <;> rfl
@[simp] theorem raise_buf (e : ErrKind) (s : State) : (raise e s).buf = s.buf := by cases e <;> rfl
@[simp] theorem raise_prev (e : ErrKind) (s : State) : (raise e s).prev = s.prev := by cases e <;> rfl
@[simp] theorem raise_off (e : ErrKind) (s : State) : (raise e s).off = s.off := by cases e <;> rfl
@[simp] theorem raise_done (e : ErrKind) (s : State) : (raise e s).done = s.done := by cases e <;> rfl
@[simp] theorem raise_out (e : ErrKind) (s : State) : (raise e s).out = s.out := by cases e <;> rfl
@[simp] theorem raise_cfg (e : ErrKind) (s : State) : (raise e s).cfg = s.cfg := by cases e <;> rfl
@[simp] theorem raise_ivin (e : ErrKind) (s : State) : (raise e s).ivin = s.ivin := by cases e <;> rfl
@[simp] theorem raise_inbox (e : ErrKind) (s : State) : (raise e s).inbox = s.inbox := by cases e <;> rfl
@[simp] theorem raise_replies (e : ErrKind) (s : State) : (raise e s).replies = s.replies := by cases e <;> rfl
@[simp] theorem raise_err (e : ErrKind) (s : State) : (raise e s).err = some e := by cases e <;> rfl
@[simp] theorem raise_invalidKey_phase (s : State) : (raise .invalidKey s).phase = s.phase := rfl
@[simp] theorem raise_invalidKey_fill (s : State) : (raise .invalidKey s).fill = s.fill := rfl
@[simp] theorem raise_invalidBlockSize_phase (s : State) : (raise .invalidBlockSize s).phase = s.phase := rfl
@[simp] theorem raise_invalidBlockSize_fill (s : State) : (raise .invalidBlockSize s).fill = s.fill := rfl
@[simp] theorem raise_illegalCommand_phase (s : State) : (raise .illegalCommand s).phase = s.phase := rfl
@[simp] theorem raise_illegalCommand_fill (s : State) : (raise .illegalCommand s).fill = s.fill := rfl
@[simp] theorem raise_shortCipher_phase (s : State) : (raise .shortCipher s).phase = .idle := rfl
@[simp] theorem raise_shortCipher_fill (s : State) : (raise .shortCipher s).fill = 0#16 := rfl
@[simp] theorem raise_blockLengthMismatch_phase (s : State) : (raise .blockLengthMismatch s).phase = .idle := rfl
@[simp] theorem raise_blockLengthMismatch_fill (s : State) : (raise .blockLengthMismatch s).fill = 0#16 := rfl

/-- IllegalCommand writes ERR and nothing else (R163). -/
theorem raise_illegalCommand (s : State) : raise .illegalCommand s = { s with err := some .illegalCommand } := rfl

/-! ### What depends on a few fields only -/

@[simp] theorem tlen_clearFlags (s : State) : tlen (clearFlags s) = tlen s := rfl
@[simp] theorem startCheck_clearFlags (s : State) : startCheck (clearFlags s) = startCheck s := rfl
@[simp] theorem window_clearFlags (s : State) (o n : Nat) : window (clearFlags s) o n = window s o n := rfl
@[simp] theorem window_openEncrypt (c v : Bool) (s : State) (o n : Nat) : window (openEncrypt c v s) o n = window s o n := rfl
@[simp] theorem window_bufferByte (b : Byte) (s : State) (o n : Nat) : window (bufferByte b s) o n = window s o n := rfl
@[simp] theorem tlen_openEncrypt (c v : Bool) (s : State) : tlen (openEncrypt c v s) = tlen s := rfl
@[simp] theorem tlen_takeIv (n : Nat) (s : State) : tlen (takeIv n s) = tlen s := rfl
@[simp] theorem tlen_setPrev (l : List Byte) (s : State) : tlen (setPrev l s) = tlen s := rfl
@[simp] theorem tlen_emitBytes (l : List Byte) (s : State) : tlen (emitBytes l s) = tlen s := rfl
@[simp] theorem tlen_bufferByte (b : Byte) (s : State) : tlen (bufferByte b s) = tlen s := rfl
@[simp] theorem seedBlock_openEncrypt (c v w : Bool) (s : State) : seedBlock w (openEncrypt c v s) = seedBlock w s := rfl
@[simp] theorem seedBlock_clearFlags (w : Bool) (s : State) : seedBlock w (clearFlags s) = seedBlock w s := rfl
@[simp] theorem ivDraws_openEncrypt (c v w : Bool) (s : State) : ivDraws w (openEncrypt c v s) = ivDraws w s := rfl
@[simp] theorem ivDraws_clearFlags (w : Bool) (s : State) : ivDraws w (clearFlags s) = ivDraws w s := rfl

/-! ### `waitForIv` -/

@[simp] theorem waitForIv_key (c v : Bool) (s : State) : (waitForIv c v s).key = s.key := rfl
@[simp] theorem waitForIv_klen (c v : Bool) (s : State) : (waitForIv c v s).klen = s.klen := rfl
@[simp] theorem waitForIv_bs (c v : Bool) (s : State) : (waitForIv c v s).bs = s.bs := rfl
@[simp] theorem waitForIv_filler (c v : Bool) (s : State) : (waitForIv c v s).filler = s.filler := rfl
@[simp] theorem waitForIv_ivfix (c v : Bool) (s : State) : (waitForIv c v s).ivfix = s.ivfix := rfl
@[simp] theorem waitForIv_ivlen (c v : Bool) (s : State) : (waitForIv c v s).ivlen = s.ivlen := rfl
@[simp] theorem waitForIv_dir (c v : Bool) (s : State) : (waitForIv c v s).dir = .encrypt := rfl
@[simp] theorem waitForIv_chain (c v : Bool) (s : State) : (waitForIv c v s).chain = c := rfl
@[simp] theorem waitForIv_ivsel (c v : Bool) (s : State) : (waitForIv c v s).ivsel = v := rfl
@[simp] theorem waitForIv_buf (c v : Bool) (s : State) : (waitForIv c v s).buf = s.buf := rfl
@[simp] theorem waitForIv_prev (c v : Bool) (s : State) : (waitForIv c v s).prev = s.prev := rfl
@[simp] theorem waitForIv_phase (c v : Bool) (s : State) : (waitForIv c v s).phase = .ivseed := rfl
@[simp] theorem waitForIv_fill (c v : Bool) (s : State) : (waitForIv c v s).fill = 0#16 := rfl
@[simp] theorem waitForIv_off (c v : Bool) (s : State) : (waitForIv c v s).off = s.off := rfl
@[simp] theorem waitForIv_done (c v : Bool) (s : State) : (waitForIv c v s).done = s.done := rfl
@[simp] theorem waitForIv_err (c v : Bool) (s : State) : (waitForIv c v s).err = s.err := rfl
@[simp] theorem waitForIv_out (c v : Bool) (s : State) : (waitForIv c v s).out = s.out := rfl
@[simp] theorem waitForIv_cfg (c v : Bool) (s : State) : (waitForIv c v s).cfg = s.cfg := rfl
@[simp] theorem waitForIv_ivin (c v : Bool) (s : State) : (waitForIv c v s).ivin = IvPort.advance s.ivin s.ivin.offered.length := rfl
@[simp] theorem waitForIv_inbox (c v : Bool) (s : State) : (waitForIv c v s).inbox = s.inbox := rfl
@[simp] theorem waitForIv_replies (c v : Bool) (s : State) : (waitForIv c v s).replies = s.replies := rfl

end Sys2Proof.Machine
end

