-- ==== Sys2Proof/Laws/Transform.lean ====
section
/-! SUPPORT. The laws of byte-wise XOR (R12, R103) and of the block transform (R95, R96, R99). -/

namespace Sys2Proof.Machine

@[simp] theorem xorBytes_length (u v : List Byte) : (xorBytes u v).length = min u.length v.length := by
  simp [xorBytes]

@[simp] theorem xorBytes_getElem (u v : List Byte) (j : Nat) (hj : j < (xorBytes u v).length) :
    (xorBytes u v)[j] = u[j]'(by simp at hj; omega) ^^^ v[j]'(by simp at hj; omega) := by
  simp [xorBytes]

/-- XORing the same bytes twice changes nothing (R103 a). -/
theorem xorBytes_cancel {u v : List Byte} (h : u.length ≤ v.length) : xorBytes (xorBytes u v) v = u := by
  apply List.ext_getElem
  · simp [h]
  · intro j h1 h2
    simp

theorem xorBytes_comm (u v : List Byte) : xorBytes u v = xorBytes v u := by
  apply List.ext_getElem
  · simp [Nat.min_comm]
  · intro j h1 h2
    simp [BitVec.xor_comm]

/-- Only the first bytes of a longer operand count. -/
theorem xorBytes_take (u v : List Byte) : xorBytes u (v.take u.length) = xorBytes u v := by
  apply List.ext_getElem
  · simp
  · intro j h1 h2
    simp

/-- With operands of equal length `forward` answers a block of that length, which `inverse` takes back. -/
theorem forward_ok (x : Xform) {d k : List Byte} (h : k.length = d.length) :
    ∃ y, forward x d k = .ok y ∧ y.length = d.length ∧ inverse x y k = .ok d := by
  cases x with
  | xor =>
    refine ⟨xorBytes d k, by simp [forward, h], by simp [h], ?_⟩
    have : k.length = (xorBytes d k).length := by simp [h]
    simp only [inverse, this, dite_true]
    rw [xorBytes_cancel (by omega)]
  | other =>
    refine ⟨(Config.otherTransform d.length ⟨k, h⟩ ⟨d, rfl⟩).val, by simp [forward, h],
      (Config.otherTransform d.length ⟨k, h⟩ ⟨d, rfl⟩).property, ?_⟩
    generalize hy : Config.otherTransform d.length ⟨k, h⟩ ⟨d, rfl⟩ = y
    obtain ⟨y, hlen⟩ := y
    have hd : (Config.otherTransform d.length ⟨k, h⟩).symm ⟨y, hlen⟩ = ⟨d, rfl⟩ := by
      rw [← hy, Equiv.symm_apply_apply]
    have key : ∀ (n : Nat) (hk : k.length = n) (hn : y.length = n) (D : Block n),
        (Config.otherTransform n ⟨k, hk⟩).symm ⟨y, hn⟩ = D → inverse .other y k = .ok D.val := by
      intro n hk hn D hD
      subst hn
      simp only [inverse, hk, dite_true, hD]
    exact key _ h hlen _ hd

/-- With operands of equal length `inverse` answers a block of that length, which `forward` takes back. -/
theorem inverse_ok (x : Xform) {d k : List Byte} (h : k.length = d.length) :
    ∃ y, inverse x d k = .ok y ∧ y.length = d.length ∧ forward x y k = .ok d := by
  cases x with
  | xor =>
    refine ⟨xorBytes d k, by simp [inverse, h], by simp [h], ?_⟩
    have : k.length = (xorBytes d k).length := by simp [h]
    simp only [forward, this, dite_true]
    rw [xorBytes_cancel (by omega)]
  | other =>
    refine ⟨((Config.otherTransform d.length ⟨k, h⟩).symm ⟨d, rfl⟩).val, by simp [inverse, h],
      ((Config.otherTransform d.length ⟨k, h⟩).symm ⟨d, rfl⟩).property, ?_⟩
    generalize hy : (Config.otherTransform d.length ⟨k, h⟩).symm ⟨d, rfl⟩ = y
    obtain ⟨y, hlen⟩ := y
    have hd : Config.otherTransform d.length ⟨k, h⟩ ⟨y, hlen⟩ = ⟨d, rfl⟩ := by
      rw [← hy, Equiv.apply_symm_apply]
    have key : ∀ (n : Nat) (hk : k.length = n) (hn : y.length = n) (D : Block n),
        Config.otherTransform n ⟨k, hk⟩ ⟨y, hn⟩ = D → forward .other y k = .ok D.val := by
      intro n hk hn D hD
      subst hn
      simp only [forward, hk, dite_true, hD]
    exact key _ h hlen _ hd

/-- `forward` under one key block is injective: it has a left inverse (R141). -/
theorem forward_injective (x : Xform) {d d' k : List Byte} (h : k.length = d.length)
    (h' : k.length = d'.length) (he : forward x d k = forward x d' k) : d = d' := by
  obtain ⟨y, hy, -, hi⟩ := forward_ok x h
  obtain ⟨y', hy', -, hi'⟩ := forward_ok x h'
  rw [hy, hy'] at he
  cases he
  rw [hi] at hi'
  cases hi'
  rfl

theorem forward_xor {d k : List Byte} (h : k.length = d.length) :
    forward .xor d k = .ok (xorBytes d k) := by simp [forward, h]

theorem inverse_xor {d k : List Byte} (h : k.length = d.length) :
    inverse .xor d k = .ok (xorBytes d k) := by simp [inverse, h]

end Sys2Proof.Machine
end

