-- ==== Sys2Proof/Laws/Operands.lean ====
section
/-! SUPPORT. What the operands of a command are: the key window byte by byte (R86), the lengths of the
blocks, and the meaning of StartChecks. -/

namespace Sys2Proof.Machine

theorem klen_pos_iff (s : State) : s.klen ≠ 0#16 ↔ 1 ≤ s.klen.toNat := by
  rw [Ne, ← BitVec.toNat_inj]
  simp
  omega

/-- StartChecks raises nothing exactly when the block size is legal and there is a key (R124). -/
theorem startCheck_none_iff (s : State) : startCheck s = none ↔ checksPass s = true := by
  have hk := klen_pos_iff s
  have hb : s.bs ≠ 0#16 ↔ 1 ≤ s.bs.toNat := by
    rw [Ne, ← BitVec.toNat_inj]
    simp
    omega
  unfold startCheck checksPass
  split
  · rename_i h
    simp only [Bool.and_eq_true, decide_eq_true_eq, reduceCtorEq, false_iff]
    rintro ⟨⟨h1, h2⟩, -⟩
    rcases h with h | h
    · exact absurd h (hb.2 h1)
    · omega
  · rename_i h
    push Not at h
    have h1 := hb.1 h.1
    split
    · rename_i h0
      simp only [Bool.and_eq_true, decide_eq_true_eq, reduceCtorEq, false_iff]
      rintro ⟨-, h3⟩
      exact absurd h0 (hk.2 h3)
    · rename_i h0
      have h3 := hk.1 h0
      simp only [Bool.and_eq_true, decide_eq_true_eq, true_iff]
      exact ⟨⟨h1, h.2⟩, h3⟩

theorem checksPass_iff (s : State) :
    checksPass s = true ↔ 1 ≤ s.bs.toNat ∧ s.bs.toNat ≤ s.cfg.bsMax ∧ 1 ≤ s.klen.toNat := by
  simp [checksPass, and_assoc]

@[simp] theorem window_length (s : State) (o n : Nat) : (window s o n).length = n := by
  simp [window]

/-- Byte j of a window is `KEY[(o + j) mod KLEN]` (R86). -/
theorem window_getElem (s : State) (o n j : Nat) (hj : j < (window s o n).length) :
    (window s o n)[j] = Memory.read s.key ((o + j) % s.klen.toNat) := by
  simp only [window, List.getElem_map, List.getElem_range, tiled, tlen]
  congr 1
  rw [Nat.mod_mul_right_mod, Nat.add_mod, Nat.mod_mul_right_mod, ← Nat.add_mod]

@[simp] theorem keyWindow_length (K : List Byte) (o n : Nat) : (keyWindow K o n).length = n := by
  simp [keyWindow]

/-- The sequencer's window is the call-level one over the loaded key (R138). -/
theorem window_eq_keyWindow (s : State) (hk : 1 ≤ s.klen.toNat) (o n : Nat) :
    window s o n = keyWindow (Memory.readRun s.key s.klen.toNat) o n := by
  apply List.ext_getElem
  · simp
  · intro j h1 h2
    rw [window_getElem]
    have hlt : (o + j) % s.klen.toNat < s.klen.toNat := Nat.mod_lt _ (by omega)
    simp [keyWindow, List.getD, Memory.readRun, hlt]

@[simp] theorem sliceBytes_length (s : State) (n : Nat) : (sliceBytes s n).length = n := by
  simp [sliceBytes]

@[simp] theorem prevBytes_length (s : State) (n : Nat) : (prevBytes s n).length = n := by
  simp [prevBytes]

@[simp] theorem chainIn_length (s : State) (n : Nat) : (chainIn s n).length = n := by
  unfold chainIn; split <;> simp

@[simp] theorem chainOut_length (s : State) (y : List Byte) : (chainOut s y).length = y.length := by
  unfold chainOut; split <;> simp

@[simp] theorem ivBlock_length (v : Bool) (s : State) : (ivBlock v s).length = s.bs.toNat := by
  simp [ivBlock]

@[simp] theorem seedBlock_length (v : Bool) (s : State) : (seedBlock v s).length = s.bs.toNat := by
  simp [seedBlock]

/-- Byte j of the encryption arm's input (R129). -/
theorem chainIn_getElem (s : State) (n j : Nat) (hj : j < (chainIn s n).length) :
    (chainIn s n)[j] = Memory.read s.buf j ^^^ (if s.chain then Memory.read s.prev j else 0#8) := by
  cases hc : s.chain <;> simp [chainIn, hc, sliceBytes, prevBytes]

/-- Byte j of the decryption arm's output (R130). -/
theorem chainOut_getElem (s : State) (y : List Byte) (j : Nat) (hj : j < (chainOut s y).length) :
    (chainOut s y)[j] = y[j]'(by simpa using hj) ^^^ (if s.chain then Memory.read s.prev j else 0#8) := by
  cases hc : s.chain <;> simp [chainOut, hc, prevBytes]

/-- Byte j of the block the IV-seed step transforms (R117). -/
theorem seedBlock_getElem (v : Bool) (s : State) (j : Nat) (hj : j < (seedBlock v s).length) :
    (seedBlock v s)[j] = s.filler ^^^ (if v then Memory.read s.ivfix j else IvPort.byteAt s.ivin j) := by
  simp [seedBlock, ivBlock]

/-- TLEN fits the 24 bits of OFF (R29, R83), and is positive once there are a key and a block size. -/
theorem tlen_bounds {s : State} (h : s.Inv) (hp : checksPass s = true) :
    1 ≤ tlen s ∧ tlen s ≤ 16777216 := by
  rw [checksPass_iff] at hp
  have hc := h.cfg_legal
  have hk := h.klen_le
  simp only [Config.legal, Bool.and_eq_true, decide_eq_true_eq] at hc
  have h1 : 1 * 1 ≤ s.klen.toNat * s.bs.toNat := Nat.mul_le_mul hp.2.2 hp.1
  have h2 : s.klen.toNat * s.bs.toNat ≤ s.cfg.keyMax * s.cfg.bsMax := Nat.mul_le_mul hk hp.2.1
  unfold tlen
  omega

/-- OFF holds a residue modulo TLEN exactly. -/
theorem off_toNat {s : State} (h : s.Inv) (hp : checksPass s = true) (o : Nat) :
    (BitVec.ofNat 24 (o % tlen s)).toNat = o % tlen s := by
  have hb := tlen_bounds h hp
  have : o % tlen s < tlen s := Nat.mod_lt _ (by omega)
  rw [BitVec.toNat_ofNat, Nat.mod_eq_of_lt (by omega)]

theorem inv_checksPass {s : State} (h : s.Inv) (hp : s.phase ≠ .idle) : checksPass s = true := by
  cases hs : s.phase with
  | idle => exact absurd hs hp
  | ivseed => exact (h.stalled_enc hs).2.2.2.2.1
  | drop =>
    have := h.opened (.inl hs)
    exact (checksPass_iff s).2 ⟨this.1, this.2.1, this.2.2.1⟩
  | main =>
    have := h.opened (.inr hs)
    exact (checksPass_iff s).2 ⟨this.1, this.2.1, this.2.2.1⟩
  | drain => exact absurd hs h.phase_held

end Sys2Proof.Machine
end

