-- ==== Sys2Proof/Laws/Sequencer.lean ====
section
/-! SUPPORT. One lemma per shared operation of the sequencer and per command: everything it can do. -/

namespace Sys2Proof.Machine

/-- The IV-seed step never raises: its operands have equal lengths (R101, R125). -/
theorem ivSeedStep_ok (v : Bool) (s : State) :
    ∃ c0, forward s.cfg.xform (seedBlock v s) (window s 0 s.bs.toNat) = .ok c0 ∧
      c0.length = s.bs.toNat ∧
      inverse s.cfg.xform c0 (window s 0 s.bs.toNat) = .ok (seedBlock v s) ∧
      ivSeedStep v s = .ok (seedWith c0 (takeIv (ivDraws v s) s)) := by
  obtain ⟨y, hy, hlen, hinv⟩ := forward_ok s.cfg.xform (d := seedBlock v s) (k := window s 0 s.bs.toNat)
    (by simp)
  exact ⟨y, hy, by simpa using hlen, hinv, by simp [ivSeedStep, hy]⟩

/-- The block step of an encryption (R128, R129). -/
theorem blockStep_encrypt {s : State} (hd : s.dir = .encrypt) (n : Nat) :
    ∃ y, forward s.cfg.xform (chainIn s n) (window s s.off.toNat n) = .ok y ∧ y.length = n ∧
      blockStep n s = .ok (advanceOffset (setPrev y (emitBytes y s))) := by
  obtain ⟨y, hy, hlen, -⟩ := forward_ok s.cfg.xform (d := chainIn s n) (k := window s s.off.toNat n)
    (by simp)
  exact ⟨y, hy, by simpa using hlen, by simp [blockStep, blockArm, hd, encArm, hy]⟩

/-- The block step of a decryption (R128, R130). -/
theorem blockStep_decrypt {s : State} (hd : s.dir = .decrypt) (n : Nat) :
    ∃ y, inverse s.cfg.xform (sliceBytes s n) (window s s.off.toNat n) = .ok y ∧ y.length = n ∧
      blockStep n s =
        .ok (advanceOffset (setPrev (sliceBytes s n) (emitBytes (chainOut s y) s))) := by
  obtain ⟨y, hy, hlen, -⟩ := inverse_ok s.cfg.xform (d := sliceBytes s n) (k := window s s.off.toNat n)
    (by simp)
  exact ⟨y, hy, by simpa using hlen, by simp [blockStep, blockArm, hd, decArm, hy]⟩

/-- What a block step can do, whatever the direction: it emits as many bytes as the slice has, puts as
many into PREV, advances OFF, and never raises (R101, R113, R128). -/
theorem blockStep_ok (n : Nat) (s : State) :
    ∃ e c, e.length = n ∧ c.length = n ∧
      blockStep n s = .ok (advanceOffset (setPrev c (emitBytes e s))) := by
  cases hd : s.dir with
  | encrypt =>
    obtain ⟨y, -, hlen, hb⟩ := blockStep_encrypt hd n
    exact ⟨y, y, hlen, hlen, hb⟩
  | decrypt =>
    obtain ⟨y, -, hlen, hb⟩ := blockStep_decrypt hd n
    exact ⟨chainOut s y, sliceBytes s n, by simpa using hlen, by simp, hb⟩

/-- What ENC can do (R123). -/
theorem execEnc_cases (c v : Bool) (s : State) :
    (s.phase ≠ .idle ∧ execEnc c v s = .next (raise .illegalCommand s)) ∨
    (s.phase = .idle ∧ ∃ e, startCheck s = some e ∧ execEnc c v s = .next (raise e (clearFlags s))) ∨
    (s.phase = .idle ∧ checksPass s = true ∧ IvPort.canSupply s.ivin (ivDraws v s) = false ∧
      execEnc c v s = .next (waitForIv c v (clearFlags s))) ∨
    (s.phase = .idle ∧ checksPass s = true ∧ IvPort.canSupply s.ivin (ivDraws v s) = true ∧
      ∃ c0, forward s.cfg.xform (seedBlock v s) (window s 0 s.bs.toNat) = .ok c0 ∧
        c0.length = s.bs.toNat ∧
        execEnc c v s = .next { seedWith c0 (takeIv (ivDraws v s) (openEncrypt c v (clearFlags s))) with
          phase := .main }) := by
  by_cases hp : s.phase = .idle
  · cases hs : startCheck s with
    | some e =>
      refine .inr (.inl ⟨hp, e, rfl, ?_⟩)
      simp [execEnc, hp, hs]
    | none =>
      have hc := (startCheck_none_iff s).1 hs
      cases hi : IvPort.canSupply s.ivin (ivDraws v s) with
      | false =>
        refine .inr (.inr (.inl ⟨hp, hc, rfl, ?_⟩))
        simp [execEnc, hp, hs, hi]
      | true =>
        obtain ⟨c0, hf, hlen, -, hok⟩ := ivSeedStep_ok v (openEncrypt c v (clearFlags s))
        refine .inr (.inr (.inr ⟨hp, hc, rfl, c0, ?_, hlen, ?_⟩))
        · simpa using hf
        · simp [execEnc, hp, hs, hi, hok]
  · exact .inl ⟨hp, by simp [execEnc, hp]⟩

/-- What DEC can do (R126). -/
theorem execDec_cases (c : Bool) (s : State) :
    (s.phase ≠ .idle ∧ execDec c s = .next (raise .illegalCommand s)) ∨
    (s.phase = .idle ∧ ∃ e, startCheck s = some e ∧ execDec c s = .next (raise e (clearFlags s))) ∨
    (s.phase = .idle ∧ checksPass s = true ∧ execDec c s = .next { clearFlags s with
      dir := .decrypt, chain := c, fill := 0#16, off := 0#24, phase := .drop }) := by
  by_cases hp : s.phase = .idle
  · cases hs : startCheck s with
    | some e => exact .inr (.inl ⟨hp, e, rfl, by simp [execDec, hp, hs]⟩)
    | none => exact .inr (.inr ⟨hp, (startCheck_none_iff s).1 hs, by simp [execDec, hp, hs]⟩)
  · exact .inl ⟨hp, by simp [execDec, hp]⟩

/-- What KWIN can do (R90). -/
theorem execKwin_cases (o : BitVec 24) (s : State) :
    (s.phase ≠ .idle ∧ execKwin o s = .next (raise .illegalCommand s)) ∨
    (s.phase = .idle ∧ ∃ e, startCheck s = some e ∧ execKwin o s = .next (raise e (clearFlags s))) ∨
    (s.phase = .idle ∧ checksPass s = true ∧ execKwin o s = .next
      { emitEnd (emitBytes (window s o.toNat s.bs.toNat) (clearFlags s)) with done := true }) := by
  by_cases hp : s.phase = .idle
  · cases hs : startCheck s with
    | some e => exact .inr (.inl ⟨hp, e, rfl, by simp [execKwin, hp, hs]⟩)
    | none => exact .inr (.inr ⟨hp, (startCheck_none_iff s).1 hs, by simp [execKwin, hp, hs]⟩)
  · exact .inl ⟨hp, by simp [execKwin, hp]⟩

/-- What DATA can do (R110). -/
theorem execData_cases (b : Byte) (s : State) :
    (s.phase ≠ .drop ∧ s.phase ≠ .main ∧ execData b s = .next (raise .illegalCommand s)) ∨
    ((s.phase = .drop ∨ s.phase = .main) ∧ s.fill + 1#16 ≠ s.bs ∧
      execData b s = .next (bufferByte b s)) ∨
    (s.phase = .drop ∧ s.fill + 1#16 = s.bs ∧
      execData b s = .next { dropStep (bufferByte b s) with fill := 0#16 }) ∨
    (s.phase = .main ∧ s.fill + 1#16 = s.bs ∧ ∃ s', blockStep s.bs.toNat (bufferByte b s) = .ok s' ∧
      execData b s = .next { s' with fill := 0#16 }) := by
  by_cases hd : s.phase = .drop
  · by_cases hf : s.fill + 1#16 = s.bs
    · exact .inr (.inr (.inl ⟨hd, hf, by simp [execData, hd, hf, completeSlice]⟩))
    · exact .inr (.inl ⟨.inl hd, hf, by simp [execData, hd, hf]⟩)
  · by_cases hm : s.phase = .main
    · by_cases hf : s.fill + 1#16 = s.bs
      · obtain ⟨e, c, -, -, hb⟩ := blockStep_ok s.bs.toNat (bufferByte b s)
        exact .inr (.inr (.inr ⟨hm, hf, _, hb, by simp [execData, hm, hf, completeSlice, hb]⟩))
      · exact .inr (.inl ⟨.inr hm, hf, by simp [execData, hm, hf]⟩)
    · exact .inl ⟨hd, hm, by simp [execData, hd, hm]⟩

/-- What FIN can do (R111). -/
theorem execFin_cases (s : State) :
    (s.phase ≠ .drop ∧ s.phase ≠ .main ∧ execFin s = .next (raise .illegalCommand s)) ∨
    (s.phase = .drop ∧ execFin s = .next (raise .shortCipher s)) ∨
    (s.phase = .main ∧ s.fill = 0#16 ∧ execFin s = .next (closeOutput { s with phase := .drain })) ∨
    (s.phase = .main ∧ s.fill ≠ 0#16 ∧ ∃ s', blockStep s.fill.toNat { s with phase := .drain } = .ok s' ∧
      execFin s = .next (closeOutput { s' with fill := 0#16 })) := by
  by_cases hd : s.phase = .drop
  · exact .inr (.inl ⟨hd, by simp [execFin, hd]⟩)
  · by_cases hm : s.phase = .main
    · by_cases hf : s.fill = 0#16
      · exact .inr (.inr (.inl ⟨hm, hf, by simp [execFin, hm, hf]⟩))
      · obtain ⟨e, c, -, -, hb⟩ := blockStep_ok s.fill.toNat { s with phase := .drain }
        exact .inr (.inr (.inr ⟨hm, hf, _, hb, by simp [execFin, hm, hf, hb]⟩))
    · exact .inl ⟨hd, hm, by simp [execFin, hd, hm]⟩

end Sys2Proof.Machine
end

