-- ==== Sys2Proof/Laws/Step.lean ====
section
/-! SUPPORT. What one step can do: the inversion of `serve` and `step`, and how commands issued one
after another run. -/

namespace Sys2Proof.Machine

theorem stalled_eq_false_iff (s : State) : stalled s = false ↔ s.phase ≠ .ivseed := by simp [stalled]

/-- Outside a stall nothing is blocked. -/
theorem blocked_of_not_stalled {s : State} (h : stalled s = false) : blocked s = false := by
  simp [blocked, h]

/-- In a stall the only access that waits is a command word. -/
theorem blocked_cons {s : State} {e : HostEvent} {rest : List HostEvent} (h : s.inbox = e :: rest) :
    blocked s = (stalled s && isCommandWord e) := by
  simp [blocked, h]

/-- An access that is not blocked is the next thing ORC serves. -/
theorem step_serve {s : State} {e : HostEvent} {rest : List HostEvent} (h : s.inbox = e :: rest)
    (hb : stalled s = false ∨ isCommandWord e = false) : step s = serve e { s with inbox := rest } := by
  have : blocked s = false := by
    rw [blocked_cons h]
    rcases hb with hb | hb <;> simp [hb]
  simp [step, this, h]

/-- Outside a stall a pending command word is the next thing ORC runs. -/
theorem step_cmdWrite {s : State} {w : Word} {rest : List HostEvent} (h : s.inbox = cmdWrite w :: rest)
    (hs : stalled s = false) : step s = runWord w { s with inbox := rest } := by
  rw [step_serve h (.inl hs)]
  simp [cmdWrite, serve, inWindow, accessDefined, writeWindow]

/-- Taking the oldest hardware reset out of the accesses. -/
theorem withoutReset_some {l r : List HostEvent} (h : withoutReset l = some r) :
    ∃ pre post, l = pre ++ .hardReset :: post ∧ .hardReset ∉ pre ∧ r = pre ++ post := by
  induction l generalizing r with
  | nil => cases h
  | cons e l ih =>
    cases e with
    | hardReset =>
      cases h
      exact ⟨[], l, rfl, by simp, rfl⟩
    | write addr bytes value =>
      obtain ⟨r', hr', rfl⟩ := Option.map_eq_some_iff.1 h
      obtain ⟨pre, post, rfl, hp, rfl⟩ := ih hr'
      exact ⟨.write addr bytes value :: pre, post, rfl, by simp [hp], rfl⟩
    | read addr bytes =>
      obtain ⟨r', hr', rfl⟩ := Option.map_eq_some_iff.1 h
      obtain ⟨pre, post, rfl, hp, rfl⟩ := ih hr'
      exact ⟨.read addr bytes :: pre, post, rfl, by simp [hp], rfl⟩

theorem withoutReset_none_iff (l : List HostEvent) : withoutReset l = none ↔ .hardReset ∉ l := by
  induction l with
  | nil => simp [withoutReset]
  | cons e l ih => cases e <;> simp [withoutReset, ih]

/-- What serving one host access can do when it answers a next state: reset, a command, an illegal
word, a register read, a pop of OUT, or nothing. -/
theorem serve_cases {e : HostEvent} {s t : State} (h : serve e s = .next t) :
    (e = .hardReset ∧ t = resetState s) ∨
    (∃ w i, e = cmdWrite w ∧ decode w = .ok i ∧ exec i s = .next t) ∨
    (∃ w f, e = cmdWrite w ∧ decode w = .error f ∧ t = raise .illegalCommand s) ∨
    (∃ w, t = reply w s) ∨
    (∃ k rest, s.out = k :: rest ∧ t = reply k.word { s with out := rest }) ∨
    t = s := by
  cases e with
  | hardReset =>
    cases h
    exact .inl ⟨rfl, rfl⟩
  | write addr bytes value =>
    simp only [serve] at h
    split at h
    · cases h
      exact .inr (.inr (.inr (.inr (.inr rfl))))
    · split at h
      · rename_i hacc
        simp only [accessDefined, Bool.and_eq_true, decide_eq_true_eq] at hacc
        unfold writeWindow at h
        split at h
        · unfold runWord at h
          split at h
          · rename_i i hi
            exact .inr (.inl ⟨value, i, by simp [cmdWrite, hacc.1], hi, h⟩)
          · rename_i f hf
            cases h
            exact .inr (.inr (.inl ⟨value, f, by simp [cmdWrite, hacc.1], hf, rfl⟩))
        · cases h
          exact .inr (.inr (.inr (.inr (.inr rfl))))
      · cases h
  | read addr bytes =>
    simp only [serve] at h
    split at h
    · cases h
      exact .inr (.inr (.inr (.inr (.inr rfl))))
    · split at h
      · cases h
        unfold readWindow
        split
        · exact .inr (.inr (.inr (.inl ⟨_, rfl⟩)))
        · exact .inr (.inr (.inr (.inl ⟨_, rfl⟩)))
        · exact .inr (.inr (.inr (.inl ⟨_, rfl⟩)))
        · unfold readOut
          split
          · exact .inr (.inr (.inr (.inl ⟨_, rfl⟩)))
          · rename_i k rest hout
            exact .inr (.inr (.inr (.inr (.inl ⟨k, rest, hout, rfl⟩))))
        · exact .inr (.inr (.inr (.inl ⟨_, rfl⟩)))
        · exact .inr (.inr (.inr (.inl ⟨_, rfl⟩)))
        · exact .inr (.inr (.inr (.inl ⟨_, rfl⟩)))
      · cases h

/-- A step waits, or serves the oldest access, or, stalled, is reset. -/
theorem step_cases {s t : State} (h : step s = .next t) :
    (stalled s = false ∧ s.inbox = [] ∧ t = s) ∨
    (∃ e rest, s.inbox = e :: rest ∧ (stalled s = false ∨ isCommandWord e = false) ∧
      serve e { s with inbox := rest } = .next t) ∨
    (stalled s = true ∧ ∃ rest, withoutReset s.inbox = some rest ∧ t = resetState { s with inbox := rest }) := by
  unfold step at h
  split at h
  · rename_i hb
    simp only [blocked, Bool.and_eq_true] at hb
    unfold awaitReset at h
    split at h
    · rename_i rest hr
      cases h
      exact .inr (.inr ⟨hb.1, rest, hr, rfl⟩)
    · cases h
  · rename_i hb
    simp only [blocked, Bool.and_eq_true, not_and, Bool.not_eq_true] at hb
    split at h
    · rename_i hi
      cases h
      refine .inl ⟨?_, hi, rfl⟩
      simpa [hi] using hb
    · rename_i e rest hi
      refine .inr (.inl ⟨e, rest, hi, ?_, h⟩)
      cases hs : stalled s with
      | false => exact .inl rfl
      | true => simpa [hs, hi] using hb

/-- Blocked, ORC waits for the reset input. -/
theorem step_blocked {s : State} (h : blocked s = true) : step s = awaitReset s := by simp [step, h]

/-- Commands issued one after another run in order: the first is executed with the others still pending. -/
theorem step_issue_cons {i : Instr} (hd : decode (encode i) = .ok i) (is : List Instr) {s : State}
    (hs : stalled s = false) : step (issue (i :: is) s) = exec i (issue is s) := by
  rw [step_cmdWrite (s := issue (i :: is) s) (w := encode i) rfl hs, runWord, hd]
  rfl

theorem issue_nil (s : State) : issue [] s = s := rfl

end Sys2Proof.Machine
end

