-- ==== Sys2Proof/Laws/HostWindow.lean ====
section
/-! SUPPORT. The words the host reads, as numbers (10_state.md R37 to R41), and what a read does. -/

namespace Sys2Proof.Machine

theorem statusWord_toNat (s : State) : (statusWord s).toNat =
    (errCode s.err).toNat * 256 + (outValid s).toNat * 128 + s.done.toNat * 64 + s.ivsel.toNat * 32 +
      s.chain.toNat * 16 + s.dir.bit.toNat * 8 + s.phase.code.toNat := by
  unfold statusWord
  refine (toNat_append _ s.phase.code).trans ?_
  simp only [toNat_append, BitVec.toNat_ofBool, BitVec.toNat_ofNat]
  omega

/-- The STATUS word in a stall, as a number. -/
theorem stallStatusWord_toNat (n : Nat) : (stallStatusWord n).toNat =
    (Config.stallErr n).val * 256 + (Config.stallFlags n).toNat * 8 + 1 := by
  have := (Config.stallErr n).isLt
  unfold stallStatusWord
  refine (toNat_append _ Phase.ivseed.code).trans ?_
  have hp : Phase.ivseed.code.toNat = 1 := rfl
  simp only [toNat_append, BitVec.toNat_ofNat, hp]
  omega

theorem statusRead_stalled {s : State} (h : s.phase = .ivseed) :
    statusRead s = stallStatusWord s.replies.length := by simp [statusRead, stalled, h]

theorem statusRead_of {s : State} (h : s.phase ≠ .ivseed) : statusRead s = statusWord s := by
  simp [statusRead, stalled, h]

theorem offsetRead_stalled {s : State} (h : s.phase = .ivseed) :
    offsetRead s = 0#8 ++ Config.stallOffset s.replies.length := by simp [offsetRead, stalled, h]

theorem offsetRead_of {s : State} (h : s.phase ≠ .ivseed) : offsetRead s = offsetWord s := by
  simp [offsetRead, stalled, h]

theorem fillcntRead_stalled {s : State} (h : s.phase = .ivseed) :
    fillcntRead s = 0#16 ++ Config.stallFill s.replies.length := by simp [fillcntRead, stalled, h]

theorem fillcntRead_of {s : State} (h : s.phase ≠ .ivseed) : fillcntRead s = fillcntWord s := by
  simp [fillcntRead, stalled, h]

theorem configWord_toNat (s : State) : (configWord s).toNat = s.filler.toNat * 65536 + s.bs.toNat := by
  unfold configWord
  refine (toNat_append _ s.bs).trans ?_
  simp only [toNat_append, BitVec.toNat_ofNat]
  omega

theorem lengthsWord_toNat (s : State) : (lengthsWord s).toNat = s.ivlen.toNat * 65536 + s.klen.toNat :=
  toNat_append s.ivlen s.klen

theorem offsetWord_toNat (s : State) : (offsetWord s).toNat = s.off.toNat :=
  (toNat_append 0#8 s.off).trans (by simp)

theorem fillcntWord_toNat (s : State) : (fillcntWord s).toNat = s.fill.toNat :=
  (toNat_append 0#16 s.fill).trans (by simp)

theorem byte_word (b : Byte) : Token.word (.byte b) = BitVec.ofNat 32 (0x80000000 + b.toNat) := by
  have := b.isLt
  apply BitVec.eq_of_toNat_eq
  unfold Token.word
  refine (toNat_append (1#1 ++ 0#23) b).trans ?_
  rw [toNat_append]
  simp
  omega

theorem endMark_word : Token.word .endMark = 0x80000100#32 := rfl

/-- An aligned word read inside the window answers the word and the state of `readWindow`. -/
theorem step_read {s : State} {addr : Nat} {rest : List HostEvent} (h : s.inbox = .read addr 4 :: rest)
    (hw : addr < 0x20) (ha : addr % 4 = 0) :
    step s = .next (reply (readWindow addr { s with inbox := rest }).1
      (readWindow addr { s with inbox := rest }).2) := by
  rw [step_serve h (.inr rfl)]
  simp [serve, inWindow, accessDefined, hw, ha]

end Sys2Proof.Machine
end

