-- ==== Sys2Proof/Laws/PerInstr.lean ====
section
/-! SUPPORT. Per-instruction families: `EncodesUnderItsOpcode` says that the word of a command carries, in bits
31:24, the opcode its row of the opcode map gives it (30_encoding.md R63, R66). -/

namespace Sys2Proof.Laws.EncodesUnderItsOpcode

/-- The word of `i` has the opcode of the row of the opcode map that bears `i`'s mnemonic. -/
def Statement (i : Instr) : Prop :=
  ∃ r ∈ opcodeRows, r.mnemonic = i.mnemonic ∧ opcodeOf (encode i) = opcodeOf r.pattern

/-- A row, and the number of the word divided by 2^24, show the opcode. -/
theorem of_row {i : Instr} (r : OpcodeRow) (hr : r ∈ opcodeRows) (hm : r.mnemonic = i.mnemonic)
    (hn : (encode i).toNat / 2 ^ 24 = r.pattern.toNat / 2 ^ 24) : Statement i := by
  refine ⟨r, hr, hm, BitVec.eq_of_toNat_eq ?_⟩
  rw [opcodeOf_toNat, opcodeOf_toNat, hn]

theorem nop : Statement .nop := of_row ⟨"NOP", 0x00000000#32, 0xFFFFFFFF#32⟩ (by decide) rfl rfl

theorem srst : Statement .srst := of_row ⟨"SRST", 0x01000000#32, 0xFFFFFFFF#32⟩ (by decide) rfl rfl

theorem keyclr : Statement .keyclr := of_row ⟨"KEYCLR", 0x10000000#32, 0xFFFFFFFF#32⟩ (by decide) rfl rfl

theorem keyb (byte : BitVec 8) : Statement (.keyb byte) :=
  of_row ⟨"KEYB", 0x11000000#32, 0xFFFFFF00#32⟩ (by decide) rfl (by
    have := byte.isLt
    simp [encode_toNat]
    omega)

theorem kwin (off : BitVec 24) : Statement (.kwin off) :=
  of_row ⟨"KWIN", 0x12000000#32, 0xFF000000#32⟩ (by decide) rfl (by
    have := off.isLt
    simp [encode_toNat]
    omega)

theorem setbs (size : BitVec 16) : Statement (.setbs size) :=
  of_row ⟨"SETBS", 0x20000000#32, 0xFFFF0000#32⟩ (by decide) rfl (by
    have := size.isLt
    simp [encode_toNat]
    omega)

theorem setfill (byte : BitVec 8) : Statement (.setfill byte) :=
  of_row ⟨"SETFILL", 0x21000000#32, 0xFFFFFF00#32⟩ (by decide) rfl (by
    have := byte.isLt
    simp [encode_toNat]
    omega)

theorem ivclr : Statement .ivclr := of_row ⟨"IVCLR", 0x22000000#32, 0xFFFFFFFF#32⟩ (by decide) rfl rfl

theorem ivb (byte : BitVec 8) : Statement (.ivb byte) :=
  of_row ⟨"IVB", 0x23000000#32, 0xFFFFFF00#32⟩ (by decide) rfl (by
    have := byte.isLt
    simp [encode_toNat]
    omega)

theorem enc (chain ivsel : Bool) : Statement (.enc chain ivsel) :=
  of_row ⟨"ENC", 0x30000000#32, 0xFFFFFFFC#32⟩ (by decide) rfl (by cases chain <;> cases ivsel <;> rfl)

theorem dec (chain : Bool) : Statement (.dec chain) :=
  of_row ⟨"DEC", 0x31000000#32, 0xFFFFFFFE#32⟩ (by decide) rfl (by cases chain <;> rfl)

theorem data (byte : BitVec 8) : Statement (.data byte) :=
  of_row ⟨"DATA", 0x40000000#32, 0xFFFFFF00#32⟩ (by decide) rfl (by
    have := byte.isLt
    simp [encode_toNat]
    omega)

theorem fin : Statement .fin := of_row ⟨"FIN", 0x41000000#32, 0xFFFFFFFF#32⟩ (by decide) rfl rfl

end Sys2Proof.Laws.EncodesUnderItsOpcode
end

