-- ==== Sys2Proof/Laws/Stream.lean ====
section
/-! SUPPORT. The call level within the preconditions of R136, so that no proof looks at what it answers outside them. -/

namespace Sys2Proof.Machine

theorem callCheck_none {K : List Byte} {bs : Nat} (hb : 1 ≤ bs) (hK : K ≠ []) : callCheck K bs = none := by
  have : bs ≠ 0 := by omega
  simp [callCheck, this, hK]

/-- Within its preconditions `encryptStream` is the pseudocode of R136. -/
theorem encryptStream_eq (x : Xform) (P : List Byte) {K : List Byte} (c : Bool) {bs : Nat} (f : Byte)
    (iv : List Byte) (hb : 1 ≤ bs) (hK : K ≠ []) : encryptStream x P K c bs f iv = encryptBody x P K c bs f iv := by
  simp [encryptStream, callCheck_none hb hK]

/-- Within its preconditions `decryptStream` is the pseudocode of R136. -/
theorem decryptStream_eq (x : Xform) {C K : List Byte} (c : Bool) {bs : Nat} (hb : 1 ≤ bs) (hK : K ≠ [])
    (hC : bs ≤ C.length) :
    decryptStream x C K c bs = decryptSlices x K c bs bs (C.take bs) (slices bs (C.drop bs)) := by
  have : ¬ C.length < bs := by omega
  simp [decryptStream, callCheck_none hb hK, this]

end Sys2Proof.Machine
end

