-- ==== Sys2Proof/Tests/Slice0.lean ====
section
/-! SUPPORT. Tests. Expected values come from the spec: 30_encoding.md R73 to R75 and the vectors of
95_test_vectors.md, named in each test. The last part shows, for every statement with hypotheses, a
concrete state and operands that meet all of them. -/

namespace Sys2Proof.Machine.Tests

/-! ### Helpers -/

/-- The next state, if there is one. -/
def nextOf (r : Result) : Option State :=
  match r with
  | .next s => some s
  | .fault _ => none
  | .refused _ => none

/-- The reference machine in IDLE with raw key [1,2,3] and block size 2 (R147). -/
def hi : State := { State.reset with key := [(0, 1), (1, 2), (2, 3)], klen := 3, bs := 2 }

/-- The same with an encryption open (ECB-style after `ENC ecb, fixed`), the slice buffer holding `buf`. -/
def encOpen (buf : Memory) (fill : BitVec 16) : State :=
  { hi with phase := .main, ivsel := true, out := [.byte 1, .byte 2], prev := [(0, 1), (1, 2)], off := 2,
            buf := buf, fill := fill }

/-- The same with a decryption in its main loop, after the dropped block [0xA4, 0x58]. -/
def decOpen (buf : Memory) (fill : BitVec 16) : State :=
  { hi with phase := .main, dir := .decrypt, prev := [(0, 0xA4), (1, 0x58)], off := 2, buf := buf, fill := fill }

/-- The same with a decryption in its drop phase. -/
def dropOpen (buf : Memory) (fill : BitVec 16) : State :=
  { hi with phase := .drop, dir := .decrypt, buf := buf, fill := fill }

/-- `hi` stalled inside `ENC cbc, fresh` on a source that has no byte left, the host with `l` still to do. -/
def stall (l : List HostEvent) : State :=
  { hi with phase := .ivseed, chain := true, inbox := l, ivin := { offered := [], thenFree := false, taken := 1 } }

/-- A machine whose fresh-IV source offers exactly `l`. -/
def offering (l : List Byte) (s : State) : State := { s with ivin := { offered := l, thenFree := false, taken := 0 } }

/-! ### Well-formedness: every check refuses an ill-formed term (R73, R74, R10) -/

theorem test_wf_keyb : AsmStmt.wellFormed (.keyb 256) = false ∧ AsmStmt.wellFormed (.keyb 255) = true := by decide
theorem test_wf_kwin : AsmStmt.wellFormed (.kwin 16777216) = false ∧ AsmStmt.wellFormed (.kwin 16777215) = true := by
  decide
theorem test_wf_setbs : AsmStmt.wellFormed (.setbs 65536) = false ∧ AsmStmt.wellFormed (.setbs 65535) = true := by
  decide
theorem test_wf_setfill : AsmStmt.wellFormed (.setfill 256) = false := by decide
theorem test_wf_ivb : AsmStmt.wellFormed (.ivb 256) = false := by decide
theorem test_wf_data : AsmStmt.wellFormed (.data 256) = false := by decide
theorem test_wf_key : AsmStmt.wellFormed (.key []) = false ∧ AsmStmt.wellFormed (.key [1, 256]) = false := by decide
theorem test_wf_iv : AsmStmt.wellFormed (.iv []) = false ∧ AsmStmt.wellFormed (.iv [300]) = false := by decide
theorem test_wf_stream : AsmStmt.wellFormed (.stream [0, 256]) = false ∧ AsmStmt.wellFormed (.stream []) = true := by
  decide
theorem test_wf_encrypt : AsmStmt.wellFormed (.encrypt .cbc .fixed [256]) = false := by decide
theorem test_wf_decrypt : AsmStmt.wellFormed (.decrypt .ecb [256]) = false := by decide
theorem test_cfg_reference : Config.reference.legal = true := by decide
theorem test_cfg_bsMax_zero : ({ Config.reference with bsMax := 0 } : Config).legal = false := by decide
theorem test_cfg_bsMax_large : ({ Config.reference with bsMax := 65536 } : Config).legal = false := by decide
theorem test_cfg_keyMax_zero : ({ Config.reference with keyMax := 0 } : Config).legal = false := by decide
theorem test_cfg_keyMax_large : ({ Config.reference with bsMax := 1, keyMax := 65536 } : Config).legal = false := by
  decide
theorem test_cfg_product : ({ Config.reference with bsMax := 4097, keyMax := 4096 } : Config).legal = false := by
  decide

/-! ### Decoding: words written out from R64 to R66, R73, R75 and V24 -/

theorem test_decode_nop : decode 0x00000000#32 = .ok .nop := by decide
theorem test_decode_srst : decode 0x01000000#32 = .ok .srst := by decide
theorem test_decode_keyclr : decode 0x10000000#32 = .ok .keyclr := by decide
theorem test_decode_keyb : decode 0x110000FF#32 = .ok (.keyb 255) := by decide
theorem test_decode_kwin : decode 0x12FFFFFF#32 = .ok (.kwin 16777215) := by decide
theorem test_decode_setbs : decode 0x2000FFFF#32 = .ok (.setbs 65535) := by decide
theorem test_decode_setfill : decode 0x210000AA#32 = .ok (.setfill 0xAA) := by decide
theorem test_decode_ivclr : decode 0x22000000#32 = .ok .ivclr := by decide
theorem test_decode_ivb : decode 0x23000010#32 = .ok (.ivb 0x10) := by decide
theorem test_decode_enc_ecb_fixed : decode 0x30000002#32 = .ok (.enc false true) := by decide
theorem test_decode_enc_cbc_fresh : decode 0x30000001#32 = .ok (.enc true false) := by decide
theorem test_decode_dec : decode 0x31000001#32 = .ok (.dec true) := by decide
theorem test_decode_data : decode 0x40000048#32 = .ok (.data 72) := by decide
theorem test_decode_fin : decode 0x41000000#32 = .ok .fin := by decide
theorem test_illegal_opcode : decode 0x02000000#32 = .error (.unusedOpcode 0x02) := by decide
theorem test_illegal_nop_bit : decode 0x00000001#32 = .error (.nonzeroBits 0x00) := by decide
theorem test_illegal_setbs_bit : decode 0x20010000#32 = .error (.nonzeroBits 0x20) := by decide
theorem test_illegal_keyb_bit : decode 0x11000100#32 = .error (.nonzeroBits 0x11) := by decide
theorem test_illegal_enc_bit : decode 0x30000004#32 = .error (.nonzeroBits 0x30) := by decide
theorem test_illegal_dec_bit : decode 0x31000002#32 = .error (.nonzeroBits 0x31) := by decide
theorem test_illegal_data_bit : decode 0x40000148#32 = .error (.nonzeroBits 0x40) := by decide
theorem test_illegal_fin_bit : decode 0x41000001#32 = .error (.nonzeroBits 0x41) := by decide
theorem test_illegal_all_ones : decode 0xFFFFFFFF#32 = .error (.unusedOpcode 0xFF) := by decide
theorem test_encode_kwin : encode (.kwin 18) = 0x12000012#32 := by decide
theorem test_encode_enc : encode (.enc true true) = 0x30000003#32 := by decide
theorem test_table_word : decodeTableWord 32 0x40000048 = some (.data 72) ∧ decodeTableWord 32 0x40000148 = none := by
  decide
theorem test_rows_disjoint : opcodeRows.Pairwise fun r r' =>
    r.pattern &&& r'.mask ≠ r'.pattern ∧ r'.pattern &&& r.mask ≠ r.pattern := by decide

/-! ### The assembler (R73, R74) -/

theorem test_asm_line : assembleLine "SETFILL 0xAA ; the filler".toList = some [0x210000AA#32] := by decide
theorem test_asm_flags : assembleLine "ENC cbc, fixed".toList = some [0x30000003#32] := by decide
theorem test_asm_pseudo : assembleLine "KEY 1,2".toList = some [0x10000000#32, 0x11000001#32, 0x11000002#32] := by
  decide
theorem test_asm_out_of_range : assembleLine "KEYB 256".toList = none := by decide
theorem test_asm_stream : assemble (.stream []) = some [0x41000000#32] := by decide

/-! ### The host's reads (V19, V20, V23, P3) -/

theorem test_status_after_reset : statusWord State.reset = 0x00000000#32 := by decide
theorem test_status_v23 : statusWord (encOpen [(0, 72)] 1) = 0x000000A3#32 := by decide
/-- P2 after `DEC ecb`: PHASE is 2, beside DIR. -/
theorem test_status_drop : statusWord (dropOpen [] 0) = 0x0000000A#32 := by decide
/-- R27's values of PHASE. -/
theorem test_phase_codes : Phase.idle.code = 0 ∧ Phase.ivseed.code = 1 ∧ Phase.drop.code = 2 ∧
    Phase.main.code = 3 ∧ Phase.drain.code = 4 := by decide
/-- R158's codes. -/
theorem test_error_codes : [none, some .invalidKey, some .blockLengthMismatch, some .invalidBlockSize,
    some .shortCipher, some .illegalCommand].map errCode = [0, 1, 2, 3, 4, 5] := by decide
theorem test_config_after_reset : configWord State.reset = 0x00000008#32 := by decide
theorem test_config_p3 : configWord { State.reset with bs := 4, filler := 0xAA } = 0x00AA0004#32 := by decide
theorem test_lengths_v14 : lengthsWord { State.reset with klen := 1, ivlen := 8 } = 0x00080001#32 := by decide
theorem test_out_read_v20 : readWindow 0x10 { hi with out := [.byte 0x4B, .endMark] } =
    (0x8000004B#32, { hi with out := [.endMark] }) := by decide
theorem test_out_read_end : readWindow 0x10 { hi with out := [.endMark] } = (0x80000100#32, hi) := by decide
theorem test_reads_v23 : (readWindow 0x14 (encOpen [(0, 72)] 1)).1 = 2 ∧
    (readWindow 0x18 (encOpen [(0, 72)] 1)).1 = 1 := by decide

/-! ### One command each (at most two tests a command) -/

/-- V21: NOP leaves DONE and ERR. -/
theorem test_nop : nextOf (exec .nop { hi with done := true, err := some .illegalCommand }) =
    some { hi with done := true, err := some .illegalCommand } := by decide

/-- V22: SRST in mid-operation. -/
theorem test_srst : (nextOf (exec .srst (encOpen [(0, 5)] 1))).map (fun t =>
    (statusWord t, t.fill, t.klen, t.bs, t.out)) = some (0, 0, 0, 8, []) := by decide

/-- R88's example: after KEYB 1, KEYB 2, KEYCLR, LENGTHS reads KLEN = 0. -/
theorem test_keyclr : (nextOf (exec .keyclr hi)).map lengthsWord = some 0 := by decide

/-- R89's example, its last command. -/
theorem test_keyb : (nextOf (exec (.keyb 3) { State.reset with key := [(0, 1), (1, 2)], klen := 2 })).map
    (fun t => (Memory.readRun t.key 3, t.klen)) = some ([1, 2, 3], 3) := by decide

/-- V6e: the 257th KEYB. -/
theorem test_keyb_full : (nextOf (exec (.keyb 1) { State.reset with klen := 256 })).map
    (fun t => (t.klen, statusWord t)) = some (256, 0x00000500) := by decide

/-- R90's example: a window that wraps at TLEN. -/
theorem test_kwin : (nextOf (exec (.kwin 18) { State.reset with
      key := [(0, 1), (1, 2), (2, 3), (3, 4), (4, 5)], klen := 5, bs := 4 })).map (fun t => (t.out, t.done)) =
    some ([.byte 4, .byte 5, .byte 1, .byte 2, .endMark], true) := by decide

/-- V6f: the block size is checked before the key. -/
theorem test_kwin_bad_size : (nextOf (exec (.kwin 0) { State.reset with bs := 0 })).map statusWord =
    some 0x00000300 := by decide

/-- V14: SETBS stores any value. -/
theorem test_setbs : (nextOf (exec (.setbs 65535) State.reset)).map configWord = some 0x0000FFFF := by decide

/-- V8: SETBS in an operation. -/
theorem test_setbs_refused : (nextOf (exec (.setbs 4) (encOpen [] 0))).map (fun t => (t.bs, t.err)) =
    some (2, some .illegalCommand) := by decide

/-- R106's example. -/
theorem test_setfill : (nextOf (exec (.setfill 0xAA) State.reset)).map configWord = some 0x00AA0008 := by decide

/-- R107. -/
theorem test_ivclr : (nextOf (exec .ivclr { hi with ivfix := [(0, 9)], ivlen := 1 })).map
    (fun t => (Memory.readRun t.ivfix 2, t.ivlen)) = some ([0, 0], 0) := by decide

/-- R108's example, its last command. -/
theorem test_ivb : (nextOf (exec (.ivb 0x20) { State.reset with ivfix := [(0, 0x10)], ivlen := 1 })).map
    (fun t => (Memory.readRun t.ivfix 4, t.ivlen)) = some ([0x10, 0x20, 0, 0], 2) := by decide

/-- V14: the 65th IVB. -/
theorem test_ivb_full : (nextOf (exec (.ivb 1) { State.reset with ivlen := 64 })).map (fun t => (t.ivlen, t.err)) =
    some (64, some .illegalCommand) := by decide

/-- R123's example. -/
theorem test_enc_fixed : (nextOf (exec (.enc false true) hi)).map
    (fun t => (t.out, t.phase, t.off, Memory.readRun t.prev 2)) =
    some ([.byte 1, .byte 2], .main, 2, [1, 2]) := by decide

/-- V3's first command: filler 0xAA, draws 10 20 30 40, `ENC cbc, fresh`. -/
theorem test_enc_fresh : (nextOf (exec (.enc true false)
      (offering [0x10, 0x20, 0x30, 0x40] { hi with bs := 4, filler := 0xAA }))).map
        (fun t => (t.out, t.ivin.taken, t.off)) =
    some ([.byte 0xBB, .byte 0x88, .byte 0x99, .byte 0xEB], 4, 4) := by decide

/-- R126's example; IVSEL is not written. -/
theorem test_dec : (nextOf (exec (.dec true) { hi with ivsel := true })).map
    (fun t => (t.phase, t.fill, t.dir, t.chain, t.ivsel)) = some (.drop, 0, .decrypt, true, true) := by decide

/-- P4: DEC with no key after an error. -/
theorem test_dec_no_key : (nextOf (exec (.dec true) { State.reset with done := true, err := some .illegalCommand })).map
    statusWord = some 0x00000100 := by decide

/-- R110's example: the DATA that completes a slice. -/
theorem test_data_enc : (nextOf (exec (.data 105) (encOpen [(0, 72)] 1))).map
    (fun t => (t.out, t.fill, t.off, Memory.readRun t.prev 2)) =
    some ([.byte 1, .byte 2, .byte 75, .byte 104], 0, 4, [0x4B, 0x68]) := by decide

/-- P2: the last DATA of the decryption of "Hi". -/
theorem test_data_dec : (nextOf (exec (.data 0x68) (decOpen [(0, 0x4B)] 1))).map
    (fun t => (t.out, t.off, Memory.readRun t.prev 2)) =
    some ([.byte 0x48, .byte 0x69], 4, [0x4B, 0x68]) := by decide

/-- V3: the tail of "HELLO WORLD", CBC-style; byte 3 of PREV is left over (R131). -/
theorem test_fin_tail : (nextOf (exec .fin { hi with
      bs := 4, chain := true, phase := .main, fill := 3, off := 0
      buf := [(0, 0x52), (1, 0x4C), (2, 0x44)]
      prev := [(0, 0xBD), (1, 0xEF), (2, 0x81), (3, 0xE9)] })).map
        (fun t => (t.out, statusWord t, t.off, Memory.readRun t.prev 4)) =
    some ([.byte 0xEE, .byte 0xA1, .byte 0xC6, .endMark], 0x000000D0, 4, [0xEE, 0xA1, 0xC6, 0xE9]) := by decide

/-- V8: FIN in the drop phase. -/
theorem test_fin_short : (nextOf (exec .fin { dropOpen [(0, 1)] 1 with chain := true })).map
    (fun t => (statusWord t, t.fill, t.out)) = some (0x00000418, 0, []) := by decide

/-! ### Steps -/

/-- A word placed by `withFetchWord` is the next thing to run. -/
theorem test_fetch : (nextOf (step (State.withFetchWord State.reset 32 0x20000002))).map (·.bs) = some 2 := by decide

/-- An illegal word (V24: STATUS 0x00000500). -/
theorem test_illegal_word : (nextOf (step { State.reset with inbox := [cmdWrite 0x20010000#32] })).map statusWord =
    some 0x00000500 := by decide

/-- A halfword access is refused (R53). -/
theorem test_narrow_access : (match step { hi with inbox := [.read 0x04 2] } with
    | .refused r => some r
    | _ => none) = some (.badHostAccess 0x04 2) := by decide

/-- R190: one byte offered of the two `ENC ecb, fresh` needs; it is taken, and ORC waits in IVSEED. -/
theorem test_stall_entered : (nextOf (step { offering [7] hi with inbox := [cmdWrite 0x30000000#32] })).map
    (fun t => (t.phase, t.out, t.ivin.offered, t.ivin.taken)) = some (.ivseed, [], [], 1) := by decide

/-- R190: SRST is not accepted; the hardware reset behind it ends the stall. -/
theorem test_stall_reset : (nextOf (step (stall [cmdWrite 0x01000000#32, .hardReset]))).map
    (fun t => (t.phase, t.klen, t.bs, t.inbox)) = some (.idle, 0, 8, [cmdWrite 0x01000000#32]) := by decide

/-- U15: with no reset to come, stuck. -/
theorem test_stall_stuck : (match step (stall [cmdWrite 0x01000000#32]) with
    | .fault f => some f
    | _ => none) = some .ivSourceSilent := by decide

/-- The call level on V3 (R136). -/
theorem test_call_v3 : (match encryptStream .xor [0x48, 0x45, 0x4C, 0x4C, 0x4F, 0x20, 0x57, 0x4F, 0x52, 0x4C, 0x44]
      [1, 2, 3] true 4 0xAA [0x10, 0x20, 0x30, 0x40] with
    | .ok l => l
    | .error _ => []) =
    [0xBB, 0x88, 0x99, 0xEB, 0xF1, 0xCE, 0xD4, 0xA5, 0xBD, 0xEF, 0x81, 0xE9, 0xEE, 0xA1, 0xC6] := by decide

/-! ### Legal states for the witnesses -/

theorem hi_inv : hi.Inv := by constructor <;> decide

theorem stall_inv : (stall []).Inv := by constructor <;> decide

theorem encOpen_empty_inv : (encOpen [] 0).Inv := by constructor <;> decide

theorem encOpen_one_inv : (encOpen [(0, 72)] 1).Inv := by constructor <;> decide

theorem decOpen_one_inv : (decOpen [(0, 0x4B)] 1).Inv := by constructor <;> decide

theorem dropOpen_empty_inv : (dropOpen [] 0).Inv := by constructor <;> decide

theorem dropOpen_one_inv : (dropOpen [(0, 0xA4)] 1).Inv := by constructor <;> decide

theorem hi_checks : checksPass hi = true := by decide

/-! ### Witnesses: the hypotheses of each statement are met -/

theorem witness_EncodeOfDecodeIsTheWord : decode 0x11000003#32 = .ok (.keyb 3) := by decide

theorem witness_DecodeAgreesWithOpcodeMap :
    (⟨"ENC", 0x30000000#32, 0xFFFFFFFC#32⟩ : OpcodeRow) ∈ opcodeRows ∧
      0x30000003#32 &&& 0xFFFFFFFC#32 = 0x30000000#32 := by decide

/-- R74's operands at the ends of their range. -/
theorem witness_AssembledWordsAreTheTable : [0, 255] ≠ ([] : List Nat) ∧ ∀ b ∈ [0, 255], b ≤ 255 := by decide

theorem witness_StepRunsTheDecodedCommand : hi.phase ≠ .ivseed ∧
    ({ hi with inbox := [.write 0 4 0x11000003#32] } : State).inbox = .write 0 4 0x11000003#32 :: [] ∧
      decode 0x11000003#32 = .ok (.keyb 3) := by decide

theorem witness_IllegalWordWritesErrOnly : hi.phase ≠ .ivseed ∧
    ({ hi with inbox := [.write 0 4 0x02000000#32] } : State).inbox = .write 0 4 0x02000000#32 :: [] ∧
      decode 0x02000000#32 = .error (.unusedOpcode 0x02) := by decide

theorem witness_FetchWordRunsNext : State.reset.phase ≠ .ivseed := by decide

theorem witness_SrstAndHardResetRestoreTheResetTable :
    ({ encOpen [] 0 with inbox := [.hardReset] } : State).inbox = .hardReset :: [] := by decide

theorem witness_StatusReadHasItsFields :
    ({ hi with inbox := [.read 0x04 4] } : State).inbox = .read 0x04 4 :: [] ∧ hi.phase = .idle ∧
      (dropOpen [] 0).phase = .drop ∧ (encOpen [] 0).phase = .main ∧ hi.err = none := by decide

theorem witness_StatusRead_stalled :
    (stall [.read 0x04 4]).inbox = .read 0x04 4 :: [] ∧ (stall [.read 0x04 4]).phase = .ivseed := by decide

theorem witness_RegisterReads_config :
    ({ hi with inbox := [.read 0x08 4] } : State).inbox = .read 0x08 4 :: [] := by decide

theorem witness_RegisterReads_lengths :
    ({ hi with inbox := [.read 0x0C 4] } : State).inbox = .read 0x0C 4 :: [] := by decide

theorem witness_RegisterReads_offset :
    ({ hi with inbox := [.read 0x14 4] } : State).inbox = .read 0x14 4 :: [] := by decide

theorem witness_RegisterReads_fillcnt :
    ({ hi with inbox := [.read 0x18 4] } : State).inbox = .read 0x18 4 :: [] := by decide

theorem witness_OutReadPops_byte :
    ({ hi with inbox := [.read 0x10 4], out := [.byte 0xFF] } : State).inbox = .read 0x10 4 :: [] ∧
      ({ hi with inbox := [.read 0x10 4], out := [.byte 0xFF] } : State).out = .byte 0xFF :: [] := by decide

theorem witness_OutReadPops_end :
    ({ hi with inbox := [.read 0x10 4], out := [.endMark] } : State).inbox = .read 0x10 4 :: [] ∧
      ({ hi with inbox := [.read 0x10 4], out := [.endMark] } : State).out = .endMark :: [] := by decide

theorem witness_OutReadPops_empty :
    ({ hi with inbox := [.read 0x10 4] } : State).inbox = .read 0x10 4 :: [] ∧
      ({ hi with inbox := [.read 0x10 4] } : State).out = [] := by decide

theorem witness_OtherWindow_reads :
    ({ hi with inbox := [.read 0x00 4] } : State).inbox = .read 0x00 4 :: [] ∧
      ({ hi with inbox := [.read 0x1C 4] } : State).inbox = .read 0x1C 4 :: [] := by decide

theorem witness_OtherWindow_writes :
    0x04 ≤ 0x1C ∧ 0x1C ≤ 0x1C ∧ 0x1C % 4 = 0 ∧ 0x04 % 4 = 0 ∧
      ({ hi with inbox := [.write 0x1C 4 7] } : State).inbox = .write 0x1C 4 7 :: [] ∧
      ({ hi with inbox := [.write 0x04 4 7] } : State).inbox = .write 0x04 4 7 :: [] := by decide

theorem witness_OnlyAligned_narrow : 0x00 < 0x20 ∧ (2 ≠ 4 ∨ 0x00 % 4 ≠ 0) ∧
    ({ hi with inbox := [.write 0x00 2 7] } : State).inbox = .write 0x00 2 7 :: [] := by decide

theorem witness_OnlyAligned_misaligned : 0x1F < 0x20 ∧ (4 ≠ 4 ∨ 0x1F % 4 ≠ 0) ∧
    ({ hi with inbox := [.read 0x1F 4] } : State).inbox = .read 0x1F 4 :: [] := by decide

/-- Exactly enough bytes offered: ENC completes. -/
theorem witness_CommandsComplete_ready : ivReady (.enc true false) (offering [7, 9] hi) = true ∧
    (offering [7, 9] hi).phase ≠ .ivseed ∧ (offering [7, 9] hi).phase ≠ .drain := by decide

/-- One byte too few: ENC stalls. -/
theorem witness_CommandsComplete_silent :
    (offering [7] hi).phase = .idle ∧ checksPass (offering [7] hi) = true ∧
      (offering [7] hi).ivin.thenFree = false ∧
      (offering [7] hi).ivin.offered.length < (offering [7] hi).bs.toNat := by decide

theorem witness_StallEnds_reset : (stall [.write 0 4 0x01000000#32, .hardReset]).phase = .ivseed ∧
    (stall [.write 0 4 0x01000000#32, .hardReset]).inbox =
      [0x01000000#32].map (fun w => .write 0 4 w) ++ .hardReset :: [] := by decide

theorem witness_StallEnds_stuck : (stall [.write 0 4 0x01000000#32, .read 0x04 4]).inbox =
    .write 0 4 0x01000000#32 :: [.read 0x04 4] ∧ .hardReset ∉ [HostEvent.read 0x04 4] ∧
    (stall []).phase = .ivseed ∧ (stall []).inbox = [] := by decide

theorem witness_StallEnds_leaves : nextOf (step (stall [.hardReset])) ≠ none ∧
    (nextOf (step (stall [.hardReset]))).map (·.phase) = some .idle := by decide

theorem witness_Errors_phase : errorOf (.kwin 0) (encOpen [] 0) = some .illegalCommand := by decide

theorem witness_Errors_full : errorOf (.keyb 1) { hi with klen := 256 } = some .illegalCommand ∧
    errorOf (.ivb 1) { hi with ivlen := 64 } = some .illegalCommand := by decide

theorem witness_Errors_size : errorOf (.enc true true) { hi with bs := 0, klen := 0 } = some .invalidBlockSize ∧
    errorOf (.dec true) { hi with bs := 65 } = some .invalidBlockSize ∧
    errorOf (.dec true) { hi with bs := 64 } = none := by decide

theorem witness_Errors_key : errorOf (.kwin 0) { hi with klen := 0 } = some .invalidKey := by decide

theorem witness_Errors_short : errorOf .fin (dropOpen [] 0) = some .shortCipher := by decide

theorem witness_FlagsAfterEveryCommand : nextOf (exec (.kwin 5) hi) ≠ none := by decide

theorem witness_PhaseTransitionsFollowTheTable : (dropOpen [(0, 0xA4)] 1).Inv ∧
    nextOf (exec (.data 7) (dropOpen [(0, 0xA4)] 1)) ≠ none := ⟨dropOpen_one_inv, by decide⟩

theorem witness_KeyAndSelectorFixed : (encOpen [(0, 72)] 1).phase ≠ .idle ∧ Instr.fin ≠ .srst ∧
    nextOf (exec .fin (encOpen [(0, 72)] 1)) ≠ none := by decide

theorem witness_OutOnlyGrows : Instr.enc true true ≠ .srst ∧ nextOf (exec (.enc true true) hi) ≠ none ∧
    nextOf (step { hi with inbox := [.read 0x10 4] }) ≠ none := by decide

theorem witness_OnlyFreshEncTakesIvBytes : nextOf (exec (.enc true false) (offering [7, 9] hi)) ≠ none := by decide

theorem witness_StepKeepsTheInvariant : ({ hi with inbox := [.write 0 4 0x30000003#32] } : State).Inv ∧
    nextOf (step { hi with inbox := [.write 0 4 0x30000003#32] }) ≠ none :=
  ⟨by constructor <;> decide, by decide⟩

theorem witness_ResetStatesAreLegal : Config.legal { Config.reference with bsMax := 1, keyMax := 1 } = true ∧
    Config.legal { Config.reference with bsMax := 4096, keyMax := 4096 } = true := by decide

theorem witness_BlockLengthMismatchIsNeverRaised : hi.err ≠ some .blockLengthMismatch ∧
    nextOf (exec .nop hi) ≠ none ∧ nextOf (step hi) ≠ none := by decide

/-- Two states that differ in bytes never read. -/
theorem witness_UnreadBytesAreUnobservable :
    (encOpen [(0, 72)] 1).Inv ∧ (encOpen [(0, 72), (1, 9)] 1).Inv ∧
      (encOpen [(0, 72)] 1).SameSeen (encOpen [(0, 72), (1, 9)] 1) ∧
      encOpen [(0, 72)] 1 ≠ encOpen [(0, 72), (1, 9)] 1 :=
  ⟨encOpen_one_inv, by constructor <;> decide, by constructor <;> decide, by decide⟩

theorem witness_OperationsStartFromTheirInputsOnly :
    hi.Inv ∧ ({ hi with prev := [(0, 7)], done := true } : State).Inv ∧ hi.phase = .idle ∧
      checksPass hi = true ∧ nextOf (exec (.enc true true) hi) ≠ none ∧
      ∀ j, j < hi.klen.toNat → Memory.read hi.key j = Memory.read ({ hi with prev := [(0, 7)], done := true } : State).key j :=
  ⟨hi_inv, by constructor <;> decide, by decide, by decide, by decide, fun _ _ => rfl⟩

theorem witness_KeyclrEmptiesTheKey : hi.phase = .idle ∧ (encOpen [] 0).phase ≠ .idle ∧
    1 ≤ ({ hi with bs := 64 } : State).bs.toNat ∧ ({ hi with bs := 64 } : State).bs.toNat ≤ hi.cfg.bsMax := by decide

/-- The last free index, and the full memory. -/
theorem witness_KeybAppendsOneKeyByte :
    ({ hi with klen := 255 } : State).Inv ∧ ({ hi with klen := 255 } : State).phase = .idle ∧
      ({ hi with klen := 255 } : State).klen.toNat < hi.cfg.keyMax ∧
      ({ hi with klen := 256 } : State).klen.toNat = hi.cfg.keyMax :=
  ⟨by constructor <;> decide, by decide, by decide, by decide⟩

theorem witness_KwinEmitsTheKeyWindow : hi.phase = .idle ∧ checksPass hi = true := by decide

theorem witness_ConfigurationCommandsWriteTheirRegister : hi.phase = .idle ∧ (dropOpen [] 0).phase ≠ .idle := by decide

/-- The last free index, and the full register. -/
theorem witness_IvbAppendsOneIvByte :
    ({ hi with ivlen := 63 } : State).Inv ∧ ({ hi with ivlen := 63 } : State).phase = .idle ∧
      ({ hi with ivlen := 63 } : State).ivlen.toNat < hi.cfg.bsMax ∧
      ({ hi with ivlen := 64 } : State).ivlen.toNat = hi.cfg.bsMax :=
  ⟨by constructor <;> decide, by decide, by decide, by decide⟩

theorem witness_StartChecks_size : ({ hi with bs := 0 } : State).phase = .idle ∧
    ({ hi with bs := 0 } : State).bs.toNat = 0 ∧ hi.cfg.bsMax < ({ hi with bs := 65 } : State).bs.toNat := by decide

theorem witness_StartChecks_key : 1 ≤ ({ hi with bs := 64, klen := 0 } : State).bs.toNat ∧
    ({ hi with bs := 64, klen := 0 } : State).bs.toNat ≤ hi.cfg.bsMax ∧
    ({ hi with bs := 64, klen := 0 } : State).klen.toNat = 0 := by decide

theorem witness_StartChecks_pass : hi.phase = .idle ∧ 1 ≤ hi.bs.toNat ∧ hi.bs.toNat ≤ hi.cfg.bsMax ∧
    1 ≤ hi.klen.toNat ∧ nextOf (exec (.kwin 0) hi) ≠ none := by decide

theorem witness_EncSeedsTheChain_fixed : hi.Inv ∧ hi.phase = .idle ∧ checksPass hi = true :=
  ⟨hi_inv, by decide, by decide⟩

theorem witness_EncSeedsTheChain_fresh : (offering [7, 9] hi).Inv ∧
    IvPort.canSupply (offering [7, 9] hi).ivin (offering [7, 9] hi).bs.toNat = true :=
  ⟨by constructor <;> decide, by decide⟩

theorem witness_DecOpensTheDropPhase : hi.phase = .idle ∧ checksPass hi = true := by decide

theorem witness_DataBuffersOneByte : (dropOpen [] 0).Inv ∧ (encOpen [] 0).Inv ∧
    ((dropOpen [] 0).phase = .drop ∧ (encOpen [] 0).phase = .main) ∧
    (dropOpen [] 0).fill.toNat + 1 < (dropOpen [] 0).bs.toNat :=
  ⟨dropOpen_empty_inv, encOpen_empty_inv, by decide, by decide⟩

theorem witness_DataEndsTheDropPhase : (dropOpen [(0, 0xA4)] 1).Inv ∧ (dropOpen [(0, 0xA4)] 1).phase = .drop ∧
    (dropOpen [(0, 0xA4)] 1).fill.toNat + 1 = (dropOpen [(0, 0xA4)] 1).bs.toNat :=
  ⟨dropOpen_one_inv, by decide, by decide⟩

theorem witness_DataEncryptsAFullSlice : (encOpen [(0, 72)] 1).Inv ∧ (encOpen [(0, 72)] 1).phase = .main ∧
    (encOpen [(0, 72)] 1).dir = .encrypt ∧
    (encOpen [(0, 72)] 1).fill.toNat + 1 = (encOpen [(0, 72)] 1).bs.toNat :=
  ⟨encOpen_one_inv, by decide, by decide, by decide⟩

theorem witness_DataDecryptsAFullSlice : (decOpen [(0, 0x4B)] 1).Inv ∧ (decOpen [(0, 0x4B)] 1).phase = .main ∧
    (decOpen [(0, 0x4B)] 1).dir = .decrypt ∧
    (decOpen [(0, 0x4B)] 1).fill.toNat + 1 = (decOpen [(0, 0x4B)] 1).bs.toNat :=
  ⟨decOpen_one_inv, by decide, by decide, by decide⟩

theorem witness_FinWithoutTailEmitsEnd : (encOpen [] 0).phase = .main ∧ (encOpen [] 0).fill = 0 := by decide

theorem witness_FinEncryptsTheTail : (encOpen [(0, 72)] 1).Inv ∧ (encOpen [(0, 72)] 1).phase = .main ∧
    (encOpen [(0, 72)] 1).dir = .encrypt ∧ 0 < (encOpen [(0, 72)] 1).fill.toNat :=
  ⟨encOpen_one_inv, by decide, by decide, by decide⟩

theorem witness_FinDecryptsTheTail : (decOpen [(0, 0x4B)] 1).Inv ∧ (decOpen [(0, 0x4B)] 1).phase = .main ∧
    (decOpen [(0, 0x4B)] 1).dir = .decrypt ∧ 0 < (decOpen [(0, 0x4B)] 1).fill.toNat :=
  ⟨decOpen_one_inv, by decide, by decide, by decide⟩

theorem witness_WindowCyclesTheRawKey : checksPass hi = true ∧ 1 < 2 ∧ 2 % hi.klen.toNat = 5 % hi.klen.toNat := by decide

theorem witness_AlignedWindowsRepeat : checksPass hi = true := by decide

/-- The last aligned offset below TLEN = 6. -/
theorem witness_TiledLengthIsBounded : hi.Inv ∧ checksPass hi = true ∧ 4 < tlen hi ∧ hi.bs.toNat ∣ 4 :=
  ⟨hi_inv, by decide, by decide, by decide⟩

theorem witness_InverseUndoesForward : ([0x03, 0x01] : List Byte).length = ([0x48, 0x69] : List Byte).length := by decide

theorem witness_UnequalOperandsRaiseMismatch : ([1, 2, 3] : List Byte).length ≠ ([1, 2] : List Byte).length := by decide

theorem witness_ReferenceTransformIsXor : ([0x7E] : List Byte).length = ([0x7E] : List Byte).length := by decide

theorem witness_SlicesCutTheStream : 1 ≤ 2 ∧ 1 < (slices 2 [7, 8, 9]).length := by decide

theorem witness_StreamLengths : 1 ≤ 2 ∧ ([1, 2, 3] : List Byte) ≠ [] ∧ ([0, 0] : List Byte).length = 2 ∧
    2 ≤ ([4, 5] : List Byte).length := by decide

theorem witness_DecryptionUndoesEncryption : 1 ≤ 2 ∧ ([1, 2, 3] : List Byte) ≠ [] ∧ ([0, 0] : List Byte).length = 2 := by
  decide

theorem witness_XorStreamsHaveAClosedForm_encrypt :
    encryptStream .xor [72] [1, 2, 3] true 2 0 [0, 0] = .ok [1, 2, 74] ∧ 1 < 2 ∧ 2 < ([1, 2, 74] : List Byte).length := by
  decide

theorem witness_XorStreamsHaveAClosedForm_decrypt :
    decryptStream .xor [1, 2, 74] [1, 2, 3] true 2 = .ok [72] ∧ 2 ≤ ([1, 2, 74] : List Byte).length := by decide

theorem witness_LeadingBlocksDifferExactlyWithTheIvs :
    encryptStream .xor [72] [1, 2, 3] false 2 0 [0, 0] = .ok [1, 2, 75] ∧
      encryptStream .xor [72] [1, 2, 3] false 2 0 [9, 0] = .ok [8, 2, 75] := by decide

theorem witness_EcbSlicesAreIndependent :
    encryptStream .xor [72, 105, 7] [1, 2, 3] false 2 0 [0, 0] = .ok [1, 2, 75, 104, 5] ∧
      1 * 2 < ([72, 105, 7] : List Byte).length := by decide

theorem witness_CbcAvalancheIsExact :
    encryptStream .xor [72] [1, 2, 3] true 2 0 [0, 0] = .ok [1, 2, 74] ∧
      encryptStream .xor (([72] : List Byte).set 0 (([72] : List Byte).getD 0 0 ^^^ 1)) [1, 2, 3] true 2 0 [0, 0] =
        .ok [1, 2, 75] ∧ 0 < ([72] : List Byte).length := by decide

theorem witness_CorruptionIsLocalAndSilent :
    decryptStream .xor [1, 2, 74] [1, 2, 3] true 2 = .ok [72] ∧ 0 < ([1, 2, 74] : List Byte).length ∧
      2 < ([1, 2, 74] : List Byte).length := by decide

theorem witness_EncryptionRunsAgreeWithTheCall : hi.Inv ∧ hi.phase = .idle ∧ checksPass hi = true ∧
    IvPort.canSupply hi.ivin hi.bs.toNat = true := ⟨hi_inv, by decide, by decide, by decide⟩

theorem witness_DecryptionRunsAgreeWithTheCall : hi.Inv ∧ hi.phase = .idle ∧ checksPass hi = true ∧
    hi.bs.toNat ≤ ([0xA4, 0x58] : List Byte).length := ⟨hi_inv, by decide, by decide, by decide⟩

theorem witness_TheMachineDecryptsWhatItEncrypts : hi.Inv ∧ hi.phase = .idle ∧ checksPass hi = true ∧
    IvPort.canSupply hi.ivin hi.bs.toNat = true := ⟨hi_inv, by decide, by decide, by decide⟩

end Sys2Proof.Machine.Tests
end

section
/-! SUPPORT. The host's reads of the register window (10_state.md R37 to R41): the fields of each word read,
stalled or not, the step that reads each offset, and the statements about them settled. -/

namespace Sys2Proof.Machine

/-! ### The fields of the words -/

/-- A bit of a word from the word's number, by arithmetic. -/
theorem bit_eq_of_toNat {w : Word} {i : Nat} {b : Bool} (h : w.toNat / 2 ^ i % 2 = b.toNat) :
    w.getLsbD i = b := by
  rw [bit_eq, h]
  cases b <;> rfl

theorem outValid_eq (s : State) : outValid s = decide (s.out ≠ []) := by
  cases h : s.out <;> simp [outValid, h]

theorem Dir.bit_toNat (d : Dir) : d.bit.toNat = (decide (d = .decrypt)).toNat := by cases d <;> rfl

/-- The STATUS word's number with the bound each of its fields keeps: what places a field between the ones
below and above it. -/
theorem statusWord_toNat_bounds (s : State) :
    (statusWord s).toNat = (errCode s.err).toNat * 256 + (outValid s).toNat * 128 + s.done.toNat * 64 +
      s.ivsel.toNat * 32 + s.chain.toNat * 16 + (decide (s.dir = .decrypt)).toNat * 8 + s.phase.code.toNat ∧
    (errCode s.err).toNat < 16 ∧ (outValid s).toNat ≤ 1 ∧ s.done.toNat ≤ 1 ∧ s.ivsel.toNat ≤ 1 ∧
    s.chain.toNat ≤ 1 ∧ (decide (s.dir = .decrypt)).toNat ≤ 1 ∧ s.phase.code.toNat < 8 :=
  ⟨by rw [statusWord_toNat, Dir.bit_toNat], (errCode s.err).isLt, Bool.toNat_le _, Bool.toNat_le _,
    Bool.toNat_le _, Bool.toNat_le _, Bool.toNat_le _, s.phase.code.isLt⟩

theorem statusWord_phase (s : State) : (statusWord s).extractLsb' 0 3 = s.phase.code :=
  BitVec.extractLsb'_append_eq_right

theorem statusWord_err (s : State) : (statusWord s).extractLsb' 8 4 = errCode s.err := by
  have := statusWord_toNat_bounds s
  apply BitVec.eq_of_toNat_eq
  rw [field_toNat]
  omega

theorem statusWord_reserved (s : State) : (statusWord s).extractLsb' 12 20 = 0 := by
  have := statusWord_toNat_bounds s
  rw [field_eq_zero_iff]
  omega

theorem statusWord_dir (s : State) : (statusWord s).getLsbD 3 = decide (s.dir = .decrypt) := by
  have := statusWord_toNat_bounds s
  exact bit_eq_of_toNat (by omega)

theorem statusWord_chain (s : State) : (statusWord s).getLsbD 4 = s.chain := by
  have := statusWord_toNat_bounds s
  exact bit_eq_of_toNat (by omega)

theorem statusWord_ivsel (s : State) : (statusWord s).getLsbD 5 = s.ivsel := by
  have := statusWord_toNat_bounds s
  exact bit_eq_of_toNat (by omega)

theorem statusWord_done (s : State) : (statusWord s).getLsbD 6 = s.done := by
  have := statusWord_toNat_bounds s
  exact bit_eq_of_toNat (by omega)

theorem statusWord_outv (s : State) : (statusWord s).getLsbD 7 = decide (s.out ≠ []) := by
  have := statusWord_toNat_bounds s
  rw [← outValid_eq]
  exact bit_eq_of_toNat (by omega)

/-- PHASE and the reserved bits are what a STATUS read says in a stall too (U12). -/
theorem stallStatusWord_phase (n : Nat) : (stallStatusWord n).extractLsb' 0 3 = Phase.ivseed.code :=
  BitVec.extractLsb'_append_eq_right

theorem stallStatusWord_reserved (n : Nat) : (stallStatusWord n).extractLsb' 12 20 = 0 := by
  have := stallStatusWord_toNat n
  have := (Config.stallErr n).isLt
  have := (Config.stallFlags n).isLt
  rw [field_eq_zero_iff]
  omega

theorem statusRead_phase (s : State) : (statusRead s).extractLsb' 0 3 = s.phase.code := by
  by_cases h : s.phase = .ivseed
  · rw [statusRead_stalled h, stallStatusWord_phase, h]
  · rw [statusRead_of h, statusWord_phase]

theorem statusRead_reserved (s : State) : (statusRead s).extractLsb' 12 20 = 0 := by
  by_cases h : s.phase = .ivseed
  · rw [statusRead_stalled h, stallStatusWord_reserved]
  · rw [statusRead_of h, statusWord_reserved]

/-- The PHASE field by the value of PHASE, stalled or not. -/
theorem statusRead_phase_of {s : State} {p : Phase} (h : s.phase = p) :
    (statusRead s).extractLsb' 0 3 = p.code := by
  rw [statusRead_phase, h]

/-- The ERR field by the value of ERR. -/
theorem statusWord_err_of {s : State} {e : Option ErrKind} (h : s.err = e) :
    (statusWord s).extractLsb' 8 4 = errCode e := by
  rw [statusWord_err, h]

theorem configWord_bs (s : State) : (configWord s).extractLsb' 0 16 = s.bs :=
  BitVec.extractLsb'_append_eq_right

theorem configWord_filler (s : State) : (configWord s).extractLsb' 16 8 = s.filler :=
  (BitVec.extractLsb'_append_eq_of_le (xhi := 0#8 ++ s.filler) (xlo := s.bs) (by decide)).trans
    BitVec.extractLsb'_append_eq_right

theorem configWord_reserved (s : State) : (configWord s).extractLsb' 24 8 = 0 :=
  (BitVec.extractLsb'_append_eq_of_le (xhi := 0#8 ++ s.filler) (xlo := s.bs) (by decide)).trans
    BitVec.extractLsb'_append_eq_left

theorem lengthsWord_klen (s : State) : (lengthsWord s).extractLsb' 0 16 = s.klen :=
  BitVec.extractLsb'_append_eq_right

theorem lengthsWord_ivlen (s : State) : (lengthsWord s).extractLsb' 16 16 = s.ivlen :=
  BitVec.extractLsb'_append_eq_left

theorem offsetRead_off {s : State} (h : s.phase ≠ .ivseed) : (offsetRead s).extractLsb' 0 24 = s.off := by
  rw [offsetRead_of h]
  exact BitVec.extractLsb'_append_eq_right

theorem offsetRead_reserved (s : State) : (offsetRead s).extractLsb' 24 8 = 0 := by
  by_cases h : s.phase = .ivseed
  · rw [offsetRead_stalled h]
    exact BitVec.extractLsb'_append_eq_left
  · rw [offsetRead_of h]
    exact BitVec.extractLsb'_append_eq_left

theorem fillcntRead_fill {s : State} (h : s.phase ≠ .ivseed) :
    (fillcntRead s).extractLsb' 0 16 = s.fill := by
  rw [fillcntRead_of h]
  exact BitVec.extractLsb'_append_eq_right

theorem fillcntRead_reserved (s : State) : (fillcntRead s).extractLsb' 16 16 = 0 := by
  by_cases h : s.phase = .ivseed
  · rw [fillcntRead_stalled h]
    exact BitVec.extractLsb'_append_eq_left
  · rw [fillcntRead_of h]
    exact BitVec.extractLsb'_append_eq_left

/-! ### The step that reads each offset -/

section
variable {s : State} {rest : List HostEvent}

theorem step_read_status (h : s.inbox = .read 0x04 4 :: rest) :
    step s = .next { s with inbox := rest, replies := s.replies ++ [statusRead s] } :=
  step_read h (by decide) rfl

theorem step_read_config (h : s.inbox = .read 0x08 4 :: rest) :
    step s = .next { s with inbox := rest, replies := s.replies ++ [configWord s] } :=
  step_read h (by decide) rfl

theorem step_read_lengths (h : s.inbox = .read 0x0C 4 :: rest) :
    step s = .next { s with inbox := rest, replies := s.replies ++ [lengthsWord s] } :=
  step_read h (by decide) rfl

theorem step_read_offset (h : s.inbox = .read 0x14 4 :: rest) :
    step s = .next { s with inbox := rest, replies := s.replies ++ [offsetRead s] } :=
  step_read h (by decide) rfl

theorem step_read_fillcnt (h : s.inbox = .read 0x18 4 :: rest) :
    step s = .next { s with inbox := rest, replies := s.replies ++ [fillcntRead s] } :=
  step_read h (by decide) rfl

theorem readOut_empty (h : s.out = []) : readOut s = (0#32, s) := by simp [readOut, h]

theorem readOut_cons {t : Token} {q : List Token} (h : s.out = t :: q) :
    readOut s = (t.word, { s with out := q }) := by simp [readOut, h]

/-- A read of OUT answers what `readOut` says of the state with the access gone. -/
theorem step_read_out (h : s.inbox = .read 0x10 4 :: rest) :
    step s = .next (reply (readOut { s with inbox := rest }).1 (readOut { s with inbox := rest }).2) :=
  step_read h (by decide) rfl

theorem step_read_out_empty (h : s.inbox = .read 0x10 4 :: rest) (ho : s.out = []) :
    step s = .next { s with inbox := rest, replies := s.replies ++ [0#32] } := by
  rw [step_read_out h, readOut_empty (s := { s with inbox := rest }) ho]
  rfl

theorem step_read_out_cons (h : s.inbox = .read 0x10 4 :: rest) {t : Token} {q : List Token}
    (ho : s.out = t :: q) :
    step s = .next { s with inbox := rest, out := q, replies := s.replies ++ [t.word] } := by
  rw [step_read_out h, readOut_cons (s := { s with inbox := rest }) ho]
  rfl

end

/-! ### The statements settled -/

/-- Settles O10: PHASE and the reserved bits hold of every STATUS read, the other fields of one outside a stall. -/
theorem statusReadHasItsFields : Obligations.StatusReadHasItsFields := by
  unfold Obligations.StatusReadHasItsFields
  intro s rest h
  refine ⟨statusRead s, step_read_status h, statusRead_reserved s, statusRead_phase_of,
    statusRead_phase_of, statusRead_phase_of, statusRead_phase_of, statusRead_phase_of, fun hs => ?_⟩
  rw [statusRead_of hs]
  exact ⟨statusWord_dir s, statusWord_chain s, statusWord_ivsel s, statusWord_done s, statusWord_outv s,
    statusWord_err_of, statusWord_err_of, statusWord_err_of, statusWord_err_of, statusWord_err_of,
    statusWord_err_of⟩

/-- Settles O11: each read answers its register's word, and the word's fields are slices of an append. -/
theorem registerReadsHaveTheirFields : Obligations.RegisterReadsHaveTheirFields := by
  unfold Obligations.RegisterReadsHaveTheirFields
  intro s rest
  refine ⟨fun h => ?config, fun h => ?lengths, fun h => ?offset, fun h => ?fillcnt⟩
  case config =>
    exact ⟨configWord s, step_read_config h, configWord_bs s, configWord_filler s, configWord_reserved s⟩
  case lengths => exact ⟨lengthsWord s, step_read_lengths h, lengthsWord_klen s, lengthsWord_ivlen s⟩
  case offset => exact ⟨offsetRead s, step_read_offset h, offsetRead_off, offsetRead_reserved s⟩
  case fillcnt => exact ⟨fillcntRead s, step_read_fillcnt h, fillcntRead_fill, fillcntRead_reserved s⟩

/-- Settles O12: the three cases of the queue, the token's word read as R72's number. -/
theorem outReadPopsTheHead : Obligations.OutReadPopsTheHead := by
  unfold Obligations.OutReadPopsTheHead
  intro s rest h
  refine ⟨fun b q ho => ?byte, fun q ho => ?endMark, step_read_out_empty h⟩
  case byte => rw [step_read_out_cons h ho, byte_word]
  case endMark => rw [step_read_out_cons h ho, endMark_word]

end Sys2Proof.Machine
end

section
/-! SUPPORT. The accesses of the register window that are no aligned words (20_memory.md R53): the step that
refuses each, and the statement about them settled. -/

namespace Sys2Proof.Machine

section
variable {addr bytes : Nat} {value : Word} {s : State} {rest : List HostEvent}

theorem accessDefined_eq_false_iff : accessDefined addr bytes = false ↔ bytes ≠ 4 ∨ addr % 4 ≠ 0 := by
  simp only [accessDefined, Bool.and_eq_false_iff, decide_eq_false_iff_not, ne_eq]

/-- A command word is an aligned word, so a write that is none never waits in a stall. -/
theorem isCommandWord_write_of_undefined (hd : accessDefined addr bytes = false) :
    isCommandWord (.write addr bytes value) = false := by
  simp only [isCommandWord, Bool.and_eq_false_iff, decide_eq_false_iff_not]
  rcases accessDefined_eq_false_iff.1 hd with hb | ha
  · exact .inr hb
  · exact .inl fun h0 => ha (by rw [h0])

theorem serve_write_undefined (hw : addr < 0x20) (hd : accessDefined addr bytes = false) :
    serve (.write addr bytes value) s = .refused (.badHostAccess addr bytes) := by
  simp [serve, inWindow, hw, hd]

theorem serve_read_undefined (hw : addr < 0x20) (hd : accessDefined addr bytes = false) :
    serve (.read addr bytes) s = .refused (.badHostAccess addr bytes) := by
  simp [serve, inWindow, hw, hd]

/-- Stalled or not, the step that would serve an undefined write in the window refuses it. -/
theorem step_write_undefined (h : s.inbox = .write addr bytes value :: rest) (hw : addr < 0x20)
    (hd : accessDefined addr bytes = false) : step s = .refused (.badHostAccess addr bytes) := by
  rw [step_serve h (.inr (isCommandWord_write_of_undefined hd)), serve_write_undefined hw hd]

/-- Stalled or not, the step that would serve an undefined read in the window refuses it. -/
theorem step_read_undefined (h : s.inbox = .read addr bytes :: rest) (hw : addr < 0x20)
    (hd : accessDefined addr bytes = false) : step s = .refused (.badHostAccess addr bytes) := by
  rw [step_serve h (.inr rfl), serve_read_undefined hw hd]

end

/-- Settles O14: no stall holds an undefined access back, so it is served, and serving it refuses it. -/
theorem onlyAlignedWordAccessesAreDefined : Obligations.OnlyAlignedWordAccessesAreDefined := by
  unfold Obligations.OnlyAlignedWordAccessesAreDefined
  intro s rest addr bytes v hw hbad
  have hd : accessDefined addr bytes = false := accessDefined_eq_false_iff.2 hbad
  exact ⟨fun h => step_write_undefined h hw hd, fun h => step_read_undefined h hw hd⟩

end Sys2Proof.Machine
end

section
/-! SUPPORT. The decoder against the encoder (30_encoding.md R64 to R68): a word decodes to a command exactly when
it is the command's word. -/

namespace Sys2Proof

/-! ### The word of a format, decoded -/

theorem opcodeOf_wordB (opc byte : BitVec 8) : opcodeOf (wordB opc byte) = opc := by
  have := byte.isLt
  apply BitVec.eq_of_toNat_eq
  rw [opcodeOf_toNat, wordB_toNat]
  omega

theorem opcodeOf_wordH (opc : BitVec 8) (size : BitVec 16) : opcodeOf (wordH opc size) = opc := by
  have := size.isLt
  apply BitVec.eq_of_toNat_eq
  rw [opcodeOf_toNat, wordH_toNat]
  omega

theorem decodeB_wordB (opc byte : BitVec 8) (f : BitVec 8 → Instr) :
    decodeB (wordB opc byte) f = .ok (f byte) := by
  have := byte.isLt
  refine (ifZero_ok_iff _ _ _ _).2 ⟨?_, congrArg f BitVec.extractLsb'_append_eq_right⟩
  rw [field_eq_zero_iff, wordB_toNat]
  omega

theorem decodeH_wordH (opc : BitVec 8) (size : BitVec 16) (f : BitVec 16 → Instr) :
    decodeH (wordH opc size) f = .ok (f size) := by
  have := size.isLt
  refine (ifZero_ok_iff _ _ _ _).2 ⟨?_, congrArg f BitVec.extractLsb'_append_eq_right⟩
  rw [field_eq_zero_iff, wordH_toNat]
  omega

theorem decode_encode (i : Instr) : decode (encode i) = .ok i := by
  cases i with
  | nop | srst | keyclr | ivclr | fin => rfl
  | keyb b | setfill b | ivb b | data b => simp [encode, decode, opcodeOf_wordB, decodeB_wordB]
  | kwin o =>
    have hop : opcodeOf (encode (.kwin o)) = 0x12#8 := BitVec.extractLsb'_append_eq_left
    have hoff : (encode (.kwin o)).extractLsb' 0 24 = o := BitVec.extractLsb'_append_eq_right
    simp [decode, hop, hoff]
  | setbs n => simp [encode, decode, opcodeOf_wordH, decodeH_wordH]
  | enc c v => cases c <;> cases v <;> rfl
  | dec c => cases c <;> rfl

/-! ### A word a format's check lets pass, as the format's word -/

section
variable {w : Word} {n : Nat} {i j : Instr}

theorem ofNat_opcodeOf (ho : (opcodeOf w).toNat = n) : BitVec.ofNat 8 n = opcodeOf w := by
  rw [← ho, BitVec.ofNat_toNat, BitVec.setWidth_eq]

theorem wordZ_of_decodeZ (ho : (opcodeOf w).toNat = n) (h : decodeZ w i = .ok j) :
    wordZ (BitVec.ofNat 8 n) = w ∧ i = j := by
  obtain ⟨hz, hi⟩ := (ifZero_ok_iff _ _ _ _).1 h
  rw [field_eq_zero_iff] at hz
  refine ⟨BitVec.eq_of_toNat_eq ?_, hi⟩
  rw [ofNat_opcodeOf ho, wordZ_toNat, opcodeOf_toNat]
  omega

theorem wordB_of_decodeB {f : BitVec 8 → Instr} (ho : (opcodeOf w).toNat = n) (h : decodeB w f = .ok i) :
    ∃ b, wordB (BitVec.ofNat 8 n) b = w ∧ f b = i := by
  obtain ⟨hz, hi⟩ := (ifZero_ok_iff _ _ _ _).1 h
  rw [field_eq_zero_iff] at hz
  refine ⟨_, BitVec.eq_of_toNat_eq ?_, hi⟩
  rw [ofNat_opcodeOf ho, wordB_toNat, opcodeOf_toNat, field_toNat]
  omega

theorem wordH_of_decodeH {f : BitVec 16 → Instr} (ho : (opcodeOf w).toNat = n) (h : decodeH w f = .ok i) :
    ∃ size, wordH (BitVec.ofNat 8 n) size = w ∧ f size = i := by
  obtain ⟨hz, hi⟩ := (ifZero_ok_iff _ _ _ _).1 h
  rw [field_eq_zero_iff] at hz
  refine ⟨_, BitVec.eq_of_toNat_eq ?_, hi⟩
  rw [ofNat_opcodeOf ho, wordH_toNat, opcodeOf_toNat, field_toNat]
  omega

theorem encode_kwin_of_opcode (ho : (opcodeOf w).toNat = 0x12) : encode (.kwin (w.extractLsb' 0 24)) = w := by
  rw [opcodeOf_toNat] at ho
  apply BitVec.eq_of_toNat_eq
  simp only [encode_toNat, field_toNat]
  omega

theorem getLsbD_toNat (w : Word) (k : Nat) : (w.getLsbD k).toNat = w.toNat / 2 ^ k % 2 := by
  rw [BitVec.getLsbD, Nat.toNat_testBit]

theorem encode_enc_of_zeros (ho : (opcodeOf w).toNat = 0x30) (hz : w.extractLsb' 2 22 = 0) :
    encode (.enc (w.getLsbD 0) (w.getLsbD 1)) = w := by
  rw [opcodeOf_toNat] at ho
  rw [field_eq_zero_iff] at hz
  apply BitVec.eq_of_toNat_eq
  simp only [encode_toNat, getLsbD_toNat]
  omega

theorem encode_dec_of_zeros (ho : (opcodeOf w).toNat = 0x31) (hz : w.extractLsb' 1 23 = 0) :
    encode (.dec (w.getLsbD 0)) = w := by
  rw [opcodeOf_toNat] at ho
  rw [field_eq_zero_iff] at hz
  apply BitVec.eq_of_toNat_eq
  simp only [encode_toNat, getLsbD_toNat]
  omega

/-- The cases are `decode`'s own, by the format of the opcode: Z, B, O, H, ENC, DEC, and no opcode at all. -/
theorem encode_of_decode (h : decode w = .ok i) : encode i = w := by
  unfold decode at h
  split at h
  case h_1 ho | h_2 ho | h_3 ho | h_8 ho | h_13 ho =>
    obtain ⟨rfl, rfl⟩ := wordZ_of_decodeZ ho h
    rfl
  case h_4 ho | h_7 ho | h_9 ho | h_12 ho =>
    obtain ⟨b, rfl, rfl⟩ := wordB_of_decodeB ho h
    rfl
  case h_5 ho =>
    cases h
    exact encode_kwin_of_opcode ho
  case h_6 ho =>
    obtain ⟨size, rfl, rfl⟩ := wordH_of_decodeH ho h
    rfl
  case h_10 ho =>
    obtain ⟨hz, rfl⟩ := (ifZero_ok_iff _ _ _ _).1 h
    exact encode_enc_of_zeros ho hz
  case h_11 ho =>
    obtain ⟨hz, rfl⟩ := (ifZero_ok_iff _ _ _ _).1 h
    exact encode_dec_of_zeros ho hz
  case h_14 => cases h

theorem decode_eq_ok_iff : decode w = .ok i ↔ encode i = w := by
  refine ⟨encode_of_decode, ?_⟩
  rintro rfl
  exact decode_encode i

end

end Sys2Proof
end

section
/-! SUPPORT. The opcode map (30_encoding.md R66) and the worked encodings (R75): the words each row's match and mask
name are the words of its command, and the statements about them settled. -/

namespace Sys2Proof

/-- A mask that keeps the upper `m` bits: the words it matches to `p` are `p` before any operand of `n` bits. -/
theorem and_mask_eq_iff {m : Nat} (n : Nat) (p : BitVec m) (w : BitVec (m + n)) :
    w &&& (BitVec.allOnes m ++ 0#n) = p ++ 0#n ↔ ∃ x : BitVec n, p ++ x = w := by
  constructor
  · intro h
    refine ⟨w.extractLsb' 0 n, ?_⟩
    rw [← BitVec.extractLsb'_append_extractLsb' (x := w), BitVec.and_append, BitVec.and_allOnes, BitVec.and_zero,
      BitVec.append_left_inj] at h
    rw [← h, BitVec.extractLsb'_append_extractLsb']
  · rintro ⟨x, rfl⟩
    rw [BitVec.and_append, BitVec.and_allOnes, BitVec.and_zero]

section
variable (w : Word)

theorem matches_word_iff (p : Word) : w &&& 0xFFFFFFFF#32 = p ↔ p = w := by
  have hall : w &&& 0xFFFFFFFF#32 = w := BitVec.and_allOnes
  rw [hall, eq_comm]

theorem matches_wordB_iff (opc : BitVec 8) : w &&& 0xFFFFFF00#32 = wordB opc 0 ↔ ∃ b, wordB opc b = w :=
  and_mask_eq_iff 8 (opc ++ 0#16) w

theorem matches_wordH_iff (opc : BitVec 8) : w &&& 0xFFFF0000#32 = wordH opc 0 ↔ ∃ n, wordH opc n = w :=
  and_mask_eq_iff 16 (opc ++ 0#8) w

theorem matches_kwin_iff : w &&& 0xFF000000#32 = 0x12000000#32 ↔ ∃ o, encode (.kwin o) = w :=
  and_mask_eq_iff 24 0x12#8 w

theorem matches_enc_iff : w &&& 0xFFFFFFFC#32 = 0x30000000#32 ↔ ∃ c v, encode (.enc c v) = w := by
  refine (and_mask_eq_iff 2 (0x30#8 ++ 0#22) w).trans ⟨?_, ?_⟩
  · rintro ⟨x, rfl⟩
    exact ⟨x.getLsbD 0, x.getLsbD 1, by revert x; decide⟩
  · rintro ⟨c, v, rfl⟩
    exact ⟨BitVec.ofBool v ++ BitVec.ofBool c, by revert c v; decide⟩

theorem matches_dec_iff : w &&& 0xFFFFFFFE#32 = 0x31000000#32 ↔ ∃ c, encode (.dec c) = w := by
  refine (and_mask_eq_iff 1 (0x31#8 ++ 0#23) w).trans ⟨?_, ?_⟩
  · rintro ⟨x, rfl⟩
    exact ⟨x.getLsbD 0, by revert x; decide⟩
  · rintro ⟨c, rfl⟩
    exact ⟨BitVec.ofBool c, rfl⟩

theorem Instr.exists_iff {p : Instr → Prop} : (∃ i, p i) ↔
    p .nop ∨ p .srst ∨ p .keyclr ∨ (∃ b, p (.keyb b)) ∨ (∃ o, p (.kwin o)) ∨ (∃ n, p (.setbs n)) ∨
    (∃ b, p (.setfill b)) ∨ p .ivclr ∨ (∃ b, p (.ivb b)) ∨ (∃ c v, p (.enc c v)) ∨ (∃ c, p (.dec c)) ∨
    (∃ b, p (.data b)) ∨ p .fin := by
  constructor
  · rintro ⟨i, h⟩
    cases i <;> grind
  · grind

/-- A row's mnemonic singles out one constructor, whose words the row's format lemma gives: one per row, in the
order of the map. -/
theorem matches_row_iff : ∀ r ∈ opcodeRows,
    (w &&& r.mask = r.pattern ↔ ∃ i, decode w = .ok i ∧ i.mnemonic = r.mnemonic) := by
  simp only [opcodeRows, List.forall_mem_cons, decode_eq_ok_iff, Instr.exists_iff, Instr.mnemonic,
    String.reduceEq, and_true, and_false, exists_false, false_or, or_false]
  exact ⟨matches_word_iff w _, matches_word_iff w _, matches_word_iff w _, matches_wordB_iff w 0x11,
    matches_kwin_iff w, matches_wordH_iff w 0x20, matches_wordB_iff w 0x21, matches_word_iff w _,
    matches_wordB_iff w 0x23, matches_enc_iff w, matches_dec_iff w, matches_wordB_iff w 0x40,
    matches_word_iff w _, List.forall_mem_nil _⟩

end

theorem opcodeRows_mnemonic_inj :
    ∀ r ∈ opcodeRows, ∀ r' ∈ opcodeRows, r.mnemonic = r'.mnemonic → r = r' := by decide

/-- Settles O3: a word that matched two rows would decode to one command with both their mnemonics. -/
theorem decodeAgreesWithOpcodeMap : Obligations.DecodeAgreesWithOpcodeMap := by
  unfold Obligations.DecodeAgreesWithOpcodeMap
  refine ⟨matches_row_iff, fun w r r' hr hr' h h' => ?_⟩
  obtain ⟨i, hi, hm⟩ := (matches_row_iff w r hr).1 h
  obtain ⟨i', hi', hm'⟩ := (matches_row_iff w r' hr').1 h'
  obtain rfl : i = i' := Except.ok.inj (hi.symm.trans hi')
  exact opcodeRows_mnemonic_inj r hr r' hr' (hm.symm.trans hm')

/-- Settles O4: the legal words are the encodings of their commands, the illegal ones fail a check of R68. -/
theorem workedEncodingsDecode : Obligations.WorkedEncodingsDecode := by
  unfold Obligations.WorkedEncodingsDecode
  exact ⟨decode_encode (.keyb 0x03), decode_encode (.setbs 2), decode_encode (.setbs 8), decode_encode (.kwin 18),
    decode_encode (.enc true false), decode_encode (.dec true), decode_encode (.data 72),
    decode_encode (.data 105), decode_encode .fin, rfl, rfl, rfl, rfl⟩

end Sys2Proof
end

section
/-! SUPPORT. The assembler (30_encoding.md R73, R74): the words of one command, of a run of bytes, of one statement
after another, and the statement about them settled. -/

namespace Sys2Proof

/-! ### An operand in its field's range, as a summand of the word -/

theorem fitsByte_iff (b : Nat) : fitsByte b = true ↔ b ≤ 255 := decide_eq_true_iff

theorem fitsSize_iff (n : Nat) : fitsSize n = true ↔ n ≤ 65535 := decide_eq_true_iff

theorem fitsOff_iff (o : Nat) : fitsOff o = true ↔ o ≤ 16777215 := decide_eq_true_iff

theorem wordB_ofNat (opc : BitVec 8) {b : Nat} (hb : b ≤ 255) :
    wordB opc (BitVec.ofNat 8 b) = BitVec.ofNat 32 (opc.toNat * 2 ^ 24 + b) := by
  apply BitVec.eq_of_toNat_eq
  rw [wordB_toNat, BitVec.toNat_ofNat, BitVec.toNat_ofNat]
  omega

theorem wordH_ofNat (opc : BitVec 8) {n : Nat} (hn : n ≤ 65535) :
    wordH opc (BitVec.ofNat 16 n) = BitVec.ofNat 32 (opc.toNat * 2 ^ 24 + n) := by
  apply BitVec.eq_of_toNat_eq
  rw [wordH_toNat, BitVec.toNat_ofNat, BitVec.toNat_ofNat]
  omega

theorem encode_kwin_ofNat {o : Nat} (ho : o ≤ 16777215) :
    encode (.kwin (BitVec.ofNat 24 o)) = BitVec.ofNat 32 (0x12000000 + o) := by
  apply BitVec.eq_of_toNat_eq
  simp only [encode_toNat, BitVec.toNat_ofNat]
  omega

section
variable {a : AsmStmt} {i : Instr} {f : BitVec 8 → Instr} (opc : BitVec 8) {bs : List Nat}

theorem map_encode_eachByte (hf : ∀ x, encode (f x) = wordB opc x) (hbs : ∀ b ∈ bs, b ≤ 255) :
    (eachByte f bs).map encode = bs.map fun b => BitVec.ofNat 32 (opc.toNat * 2 ^ 24 + b) := by
  rw [eachByte, List.map_map]
  refine List.map_congr_left fun b hb => ?_
  rw [Function.comp_apply, hf, wordB_ofNat opc (hbs b hb)]

theorem all_fitsByte (hbs : ∀ b ∈ bs, b ≤ 255) : bs.all fitsByte = true :=
  List.all_eq_true.2 fun b hb => (fitsByte_iff b).2 (hbs b hb)

/-! ### Statements by their shape -/

theorem assemble_of_wellFormed (h : a.wellFormed = true) : assemble a = some (a.expand.map encode) := if_pos h

/-- One command with one number, which must be at most `top`. -/
theorem assemble_operand {b top : Nat} {w : Word} (hwf : a.wellFormed = true ↔ b ≤ top) (he : a.expand = [i])
    (hw : b ≤ top → encode i = w) : assemble a = if b ≤ top then some [w] else none := by
  by_cases h : b ≤ top
  · rw [assemble_of_wellFormed (hwf.2 h), he, List.map_singleton, hw h, if_pos h]
  · rw [assemble, if_neg (mt hwf.1 h), if_neg h]

/-- One command of format B. -/
theorem assemble_byte {b : Nat} (hwf : a.wellFormed = fitsByte b) (he : a.expand = eachByte f [b])
    (hf : ∀ x, encode (f x) = wordB opc x) :
    assemble a = if b ≤ 255 then some [BitVec.ofNat 32 (opc.toNat * 2 ^ 24 + b)] else none :=
  assemble_operand (by rw [hwf, fitsByte_iff]) he fun hb => by rw [hf, wordB_ofNat opc hb]

/-- A command, then one of format B for each byte: what KEY and IV expand to. -/
theorem assemble_cons_bytes (hwf : a.wellFormed = (!bs.isEmpty && bs.all fitsByte))
    (he : a.expand = i :: eachByte f bs) (hf : ∀ x, encode (f x) = wordB opc x) (hne : bs ≠ [])
    (hbs : ∀ b ∈ bs, b ≤ 255) :
    assemble a = some (encode i :: bs.map fun b => BitVec.ofNat 32 (opc.toNat * 2 ^ 24 + b)) := by
  have hok : a.wellFormed = true := by simp [hwf, hne, all_fitsByte hbs]
  rw [assemble_of_wellFormed hok, he, List.map_cons, map_encode_eachByte opc hf hbs]

theorem assemble_stream (hbs : ∀ b ∈ bs, b ≤ 255) : assemble (.stream bs) =
    some ((bs.map fun b => BitVec.ofNat 32 (0x40000000 + b)) ++ [0x41000000#32]) := by
  have hok : (AsmStmt.stream bs).wellFormed = true := all_fitsByte hbs
  rw [assemble_of_wellFormed hok, AsmStmt.expand, List.map_append,
    map_encode_eachByte 0x40 (fun _ => rfl) hbs]
  rfl

/-- A statement that stands for two others in a row has their words in a row, and fails where one of them does. -/
theorem assemble_append {a₁ a₂ : AsmStmt} (hwf : a.wellFormed = (a₁.wellFormed && a₂.wellFormed))
    (he : a.expand = a₁.expand ++ a₂.expand) :
    assemble a = (assemble a₁).bind fun e => (assemble a₂).map fun d => e ++ d := by
  unfold assemble
  rw [hwf, he, List.map_append]
  cases a₁.wellFormed <;> cases a₂.wellFormed <;> rfl

end

/-- Settles O5: each statement of the table by its shape. -/
theorem assembledWordsAreTheTable : Obligations.AssembledWordsAreTheTable := by
  unfold Obligations.AssembledWordsAreTheTable
  refine ⟨by decide, fun b => ?keyb, fun o => ?kwin, fun n => ?setbs, fun b => ?setfill, fun b => ?ivb,
    fun b => ?data, fun bs hne hbs => ⟨?key, ?iv⟩,
    fun bs hbs => ⟨assemble_stream hbs, fun mode src => ⟨?encrypt, ?decrypt⟩⟩⟩
  case keyb => exact assemble_byte 0x11 rfl rfl fun _ => rfl
  case kwin => exact assemble_operand (fitsOff_iff o) rfl encode_kwin_ofNat
  case setbs => exact assemble_operand (fitsSize_iff n) rfl (wordH_ofNat 0x20)
  case setfill => exact assemble_byte 0x21 rfl rfl fun _ => rfl
  case ivb => exact assemble_byte 0x23 rfl rfl fun _ => rfl
  case data => exact assemble_byte 0x40 rfl rfl fun _ => rfl
  case key => exact assemble_cons_bytes (a := .key bs) (i := .keyclr) 0x11 rfl rfl (fun _ => rfl) hne hbs
  case iv => exact assemble_cons_bytes (a := .iv bs) (i := .ivclr) 0x23 rfl rfl (fun _ => rfl) hne hbs
  case encrypt => exact assemble_append rfl rfl
  case decrypt => exact assemble_append rfl rfl

end Sys2Proof
end

section
/-! SUPPORT. How a command is refused (60_exceptions.md R163, R167): outside its phases, on a full array, by the start
checks. -/

namespace Sys2Proof.Machine

section
variable {i : Instr} {s : State}

/-- A command outside the phases that accept it raises IllegalCommand (R163 b). -/
theorem exec_of_not_allowed (h : allowedIn i s.phase = false) : exec i s = .next (raise .illegalCommand s) := by
  cases i with
  | nop | srst => cases h
  | keyclr | keyb | kwin | setbs | setfill | ivclr | ivb | enc | dec => exact if_pos (of_decide_eq_false h)
  | data | fin => exact if_pos (by simpa [allowedIn] using h)

/-- A command that finds its array full raises IllegalCommand (R163 c, d). -/
theorem exec_of_arrayFull (h : arrayFull i s = true) : exec i s = .next (raise .illegalCommand s) := by
  cases hp : allowedIn i s.phase with
  | false => exact exec_of_not_allowed hp
  | true =>
    cases i with
    | keyb | ivb => exact (if_neg (not_not.2 (of_decide_eq_true hp))).trans (if_pos (of_decide_eq_true h))
    | nop | srst | keyclr | kwin | setbs | setfill | ivclr | enc | dec | data | fin => cases h

/-- ENC, DEC and KWIN raise what the start checks find, their flags cleared first (R124). -/
theorem exec_of_startCheck_some {e : ErrKind} (hc : clearsFlags i = true) (hp : s.phase = .idle)
    (hs : startCheck s = some e) : exec i s = .next (raise e (clearFlags s)) := by
  cases i with
  | kwin => simp [exec, execKwin, hp, hs]
  | enc => simp [exec, execEnc, hp, hs]
  | dec => simp [exec, execDec, hp, hs]
  | nop | srst | keyclr | keyb | setbs | setfill | ivclr | ivb | data | fin => cases hc

theorem startCheck_of_no_key (h1 : 1 ≤ s.bs.toNat) (h2 : s.bs.toNat ≤ s.cfg.bsMax) (hk : s.klen = 0#16) :
    startCheck s = some .invalidKey := by
  have hb : s.bs ≠ 0#16 := fun h0 => by simp [h0] at h1
  rw [startCheck, if_neg (not_or.2 ⟨hb, Nat.not_lt.2 h2⟩), if_pos hk]

end

end Sys2Proof.Machine
end

section
/-! SUPPORT. The key-material unit (40_key_material.md R83 to R89): the window as a function of its offset modulo KLEN,
the tiled length, the commands KEYCLR and KEYB in IDLE, and the statements about them settled. -/

namespace Sys2Proof.Machine

section
variable {s : State}

/-! ### The key window -/

/-- A window is determined by its offset modulo KLEN (R86). -/
theorem window_eq_of_mod_eq {o o' : Nat} (h : o ≡ o' [MOD s.klen.toNat]) (n : Nat) :
    window s o n = window s o' n := by
  apply List.ext_getElem
  · simp
  · intro j _ _
    rw [window_getElem, window_getElem, h.add_right j]

/-- The period of R87, in bytes. -/
theorem period_mul_bs (s : State) :
    s.klen.toNat / Nat.gcd s.klen.toNat s.bs.toNat * s.bs.toNat = Nat.lcm s.klen.toNat s.bs.toNat :=
  Nat.div_mul_right_comm (Nat.gcd_dvd_left _ _) _

/-- Block indices that differ by a multiple of the period differ by a multiple of KLEN in bytes. -/
theorem aligned_offset_modEq (s : State) (i m : Nat) :
    (i + m * (s.klen.toNat / Nat.gcd s.klen.toNat s.bs.toNat)) * s.bs.toNat ≡ i * s.bs.toNat [MOD s.klen.toNat] := by
  rw [Nat.add_mul, Nat.mul_assoc, period_mul_bs]
  have hdvd : s.klen.toNat ∣ m * Nat.lcm s.klen.toNat s.bs.toNat := (Nat.dvd_lcm_left _ _).mul_left m
  exact (Nat.modEq_zero_iff_dvd.2 hdvd).add_left (i * s.bs.toNat)

/-! ### KEYCLR and KEYB, accepted -/

theorem exec_keyclr_idle (hp : s.phase = .idle) : exec .keyclr s = .next { s with klen := 0 } :=
  if_neg (not_not.2 hp)

theorem exec_keyb_idle (hp : s.phase = .idle) (hk : s.klen.toNat < s.cfg.keyMax) (b : Byte) : exec (.keyb b) s =
    .next { s with key := Memory.write s.key s.klen.toNat b, klen := s.klen + 1#16 } :=
  (if_neg (not_not.2 hp)).trans (if_neg hk.ne)

/-- KLEN is wide enough to count up to KEY_MAX (R10, R17). -/
theorem klen_succ_toNat (h : s.Inv) (hk : s.klen.toNat < s.cfg.keyMax) :
    (s.klen + 1#16).toNat = s.klen.toNat + 1 := by
  have hc := h.cfg_legal
  simp only [Config.legal, Bool.and_eq_true, decide_eq_true_eq] at hc
  obtain ⟨⟨-, hmax⟩, -⟩ := hc
  exact BitVec.toNat_add_of_lt (by simp; omega)

end

/-- Settles O30: the byte written is read back because KEY is canonical, and KLEN does not wrap because KEY_MAX
fits 16 bits. -/
theorem keybAppendsOneKeyByte : Obligations.KeybAppendsOneKeyByte := by
  unfold Obligations.KeybAppendsOneKeyByte
  intro s b
  refine ⟨decode_encode (.keyb b), fun hinv hp hk => ?room, ?refused⟩
  case room =>
    exact ⟨_, exec_keyb_idle hp hk b, Memory.read_write_same hinv.key_wf _ b,
      fun j hj => Memory.read_write_other hj.symm s.key b, klen_succ_toNat hinv hk, rfl⟩
  case refused =>
    rintro (hp | hfull)
    · exact exec_of_not_allowed (decide_eq_false hp)
    · exact exec_of_arrayFull (decide_eq_true hfull)

/-- Settles O45: a whole number of periods is a multiple of KLEN bytes, and a window is determined by its offset
modulo KLEN. -/
theorem alignedWindowsRepeat : Obligations.AlignedWindowsRepeat := by
  unfold Obligations.AlignedWindowsRepeat
  intro s i m _
  exact ⟨window_eq_of_mod_eq (aligned_offset_modEq s i m) s.bs.toNat, period_mul_bs s, Nat.div_le_self _ _⟩

/-- Settles O46: the capacities bound the product, and an aligned window and TLEN are multiples of BS. -/
theorem tiledLengthIsBounded : Obligations.TiledLengthIsBounded := by
  unfold Obligations.TiledLengthIsBounded
  intro s hinv hpass
  obtain ⟨hpos, hle⟩ := tlen_bounds hinv hpass
  have hbs : s.bs.toNat ∣ tlen s := Nat.dvd_mul_left _ _
  refine ⟨rfl, hpos, hle, Nat.dvd_mul_right _ _, hbs, Nat.le_of_dvd hpos hbs, fun o ho hdvd => ?_⟩
  have hmod : o ≡ tlen s [MOD s.bs.toNat] := (Nat.modEq_zero_iff_dvd.2 hdvd).trans (Nat.modEq_zero_iff_dvd.2 hbs).symm
  exact hmod.add_le_of_lt ho

/-- Settles O29: an empty key is what the start checks find once the block size is legal. -/
theorem keyclrEmptiesTheKey : Obligations.KeyclrEmptiesTheKey := by
  unfold Obligations.KeyclrEmptiesTheKey
  refine ⟨decode_encode .keyclr, fun s => ⟨exec_keyclr_idle, fun hp => ?refused,
    fun c v off i hp h1 h2 hi => ?noKey⟩⟩
  case refused => exact exec_of_not_allowed (decide_eq_false hp)
  case noKey =>
    have hc : clearsFlags i = true := by rcases hi with rfl | rfl | rfl <;> rfl
    exact exec_of_startCheck_some (s := { s with klen := 0 }) hc hp (startCheck_of_no_key h1 h2 rfl)

end Sys2Proof.Machine
end

section
/-! SUPPORT. The block-transform unit (41_block_transform.md R97 to R101): its length check, the reference transform
byte by byte, why no command and no step ever meets the length check, and the statements about them settled. -/

namespace Sys2Proof.Machine

/-! ### The length check (R99) -/

section
variable (x : Xform) (d k : List Byte)

theorem forward_eq_mismatch_iff : forward x d k = .error .blockLengthMismatch ↔ d.length ≠ k.length := by
  constructor
  · intro he hlen
    obtain ⟨y, hy, -⟩ := forward_ok x hlen.symm
    cases hy.symm.trans he
  · exact fun hne => dif_neg hne.symm

theorem inverse_eq_mismatch_iff : inverse x d k = .error .blockLengthMismatch ↔ d.length ≠ k.length := by
  constructor
  · intro he hlen
    obtain ⟨y, hy, -⟩ := inverse_ok x hlen.symm
    cases hy.symm.trans he
  · exact fun hne => dif_neg hne.symm

end

/-- Settles O48: operands of equal length have an answer, all others fail the unit's check. -/
theorem unequalOperandsRaiseMismatch : Obligations.UnequalOperandsRaiseMismatch := by
  unfold Obligations.UnequalOperandsRaiseMismatch
  exact ⟨rfl, fun x d k => ⟨forward_eq_mismatch_iff x d k, inverse_eq_mismatch_iff x d k⟩⟩

/-! ### The reference transform (R97, R98) -/

section
variable {d k : List Byte}

theorem xorBytes_getD (h : k.length = d.length) {j : Nat} (hj : j < d.length) :
    (xorBytes d k).getD j 0 = d.getD j 0 ^^^ k.getD j 0 := by
  have hk : j < k.length := h ▸ hj
  have hx : j < (xorBytes d k).length := by simp [hj, hk]
  rw [List.getD_eq_getElem _ _ hx, List.getD_eq_getElem _ _ hj, List.getD_eq_getElem _ _ hk, xorBytes_getElem]

theorem forward_xor_twice (h : k.length = d.length) : forward .xor (xorBytes d k) k = .ok d := by
  rw [forward_xor (by simp [h]), xorBytes_cancel h.ge]

end

/-- Settles O49: in both directions the answer is the XOR of the operands, which cancels under the same key block. -/
theorem referenceTransformIsXor : Obligations.ReferenceTransformIsXor := by
  unfold Obligations.ReferenceTransformIsXor
  intro d k h
  exact ⟨xorBytes d k, forward_xor h, inverse_xor h, by simp [h], fun _ => xorBytes_getD h, forward_xor_twice h⟩

/-! ### The length check is never met (R101)

The operands of the IV-seed step and of a block step have equal lengths, so neither raises (`ivSeedStep_ok`,
`blockStep_ok`, and through them the `_cases` lemma of each command); every other `raise` names another error. -/

section
variable {s t : State}

theorem startCheck_ne_mismatch {e : ErrKind} (h : startCheck s = some e) : e ≠ .blockLengthMismatch := by
  rintro rfl
  unfold startCheck at h
  split at h
  · cases h
  · split at h <;> cases h

theorem blockStep_err {n : Nat} (h : blockStep n s = .ok t) : t.err = s.err := by
  obtain ⟨e, c, -, -, hb⟩ := blockStep_ok n s
  cases hb.symm.trans h
  simp

/-- The guard every command but NOP and SRST begins with: the command is refused, or goes on. -/
theorem refused_or_accepted {p : Prop} [Decidable p] {r : Result}
    (h : (if p then .next (raise .illegalCommand s) else r) = .next t) :
    t = raise .illegalCommand s ∨ r = .next t := by
  split at h
  · cases h
    exact .inl rfl
  · exact .inr h

theorem exec_err_ne_mismatch {i : Instr} (h : exec i s = .next t) (hs : s.err ≠ some .blockLengthMismatch) :
    t.err ≠ some .blockLengthMismatch := by
  cases i with
  | nop =>
    cases h
    exact hs
  | srst =>
    cases h
    simp
  | keyclr | setbs | setfill | ivclr =>
    obtain rfl | h := refused_or_accepted h
    · simp
    · cases h
      exact hs
  | keyb | ivb =>
    obtain rfl | h := refused_or_accepted h
    · simp
    obtain rfl | h := refused_or_accepted h
    · simp
    · cases h
      exact hs
  | kwin o =>
    obtain ⟨-, he⟩ | ⟨-, e, hc, he⟩ | ⟨-, -, he⟩ := execKwin_cases o s <;> cases he.symm.trans h
    · simp
    · simpa using startCheck_ne_mismatch hc
    · simp
  | enc c v =>
    obtain ⟨-, he⟩ | ⟨-, e, hc, he⟩ | ⟨-, -, -, he⟩ | ⟨-, -, -, c0, -, -, he⟩ := execEnc_cases c v s <;>
      cases he.symm.trans h
    · simp
    · simpa using startCheck_ne_mismatch hc
    · simp
    · simp
  | dec c =>
    obtain ⟨-, he⟩ | ⟨-, e, hc, he⟩ | ⟨-, -, he⟩ := execDec_cases c s <;> cases he.symm.trans h
    · simp
    · simpa using startCheck_ne_mismatch hc
    · simp
  | data b =>
    obtain ⟨-, -, he⟩ | ⟨-, -, he⟩ | ⟨-, -, he⟩ | ⟨-, -, s', hb, he⟩ := execData_cases b s <;>
      cases he.symm.trans h
    · simp
    · simpa using hs
    · simpa using hs
    · simpa [blockStep_err hb] using hs
  | fin =>
    obtain ⟨-, -, he⟩ | ⟨-, he⟩ | ⟨-, -, he⟩ | ⟨-, -, s', hb, he⟩ := execFin_cases s <;>
      cases he.symm.trans h
    · simp
    · simp
    · simpa using hs
    · simpa [blockStep_err hb] using hs

theorem serve_err_ne_mismatch {e : HostEvent} (h : serve e s = .next t) (hs : s.err ≠ some .blockLengthMismatch) :
    t.err ≠ some .blockLengthMismatch := by
  obtain ⟨-, rfl⟩ | ⟨w, i, -, -, hi⟩ | ⟨w, f, -, -, rfl⟩ | ⟨w, rfl⟩ | ⟨k, rest, -, rfl⟩ | rfl := serve_cases h
  · simp
  · exact exec_err_ne_mismatch hi hs
  · simp
  · exact hs
  · exact hs
  · exact hs

theorem step_err_ne_mismatch (h : step s = .next t) (hs : s.err ≠ some .blockLengthMismatch) :
    t.err ≠ some .blockLengthMismatch := by
  obtain ⟨-, -, rfl⟩ | ⟨e, rest, -, -, he⟩ | ⟨-, rest, -, rfl⟩ := step_cases h
  · exact hs
  · exact serve_err_ne_mismatch (s := { s with inbox := rest }) he hs
  · simp

end

/-- Settles O25: a step serves at most one access, an access runs at most one command, and no command raises code 2. -/
theorem blockLengthMismatchIsNeverRaised : Obligations.BlockLengthMismatchIsNeverRaised := by
  unfold Obligations.BlockLengthMismatchIsNeverRaised
  exact ⟨fun _ _ _ => exec_err_ne_mismatch, fun _ _ => step_err_ne_mismatch⟩

end Sys2Proof.Machine
end

section
/-! SUPPORT. The segmentation unit's configuration commands (42_segmentation_iv.md R105 to R108): what SETBS, SETFILL,
IVCLR and IVB do in IDLE, and the statements about them settled. -/

namespace Sys2Proof.Machine

section
variable {s : State}

/-! ### The configuration commands, accepted -/

theorem exec_setbs_idle (hp : s.phase = .idle) (n : BitVec 16) : exec (.setbs n) s = .next { s with bs := n } :=
  if_neg (not_not.2 hp)

theorem exec_setfill_idle (hp : s.phase = .idle) (b : Byte) : exec (.setfill b) s = .next { s with filler := b } :=
  if_neg (not_not.2 hp)

theorem exec_ivclr_idle (hp : s.phase = .idle) : exec .ivclr s = .next { s with ivfix := [], ivlen := 0 } :=
  if_neg (not_not.2 hp)

theorem exec_ivb_idle (hp : s.phase = .idle) (hroom : s.ivlen.toNat < s.cfg.bsMax) (b : Byte) : exec (.ivb b) s =
    .next { s with ivfix := Memory.write s.ivfix s.ivlen.toNat b, ivlen := s.ivlen + 1#16 } :=
  (if_neg (not_not.2 hp)).trans (if_neg hroom.ne)

/-! ### The fixed IV -/

/-- BS_MAX fits a 16-bit register (R10). -/
theorem bsMax_le_of_inv (h : s.Inv) : s.cfg.bsMax ≤ 65535 := by
  have hlegal := h.cfg_legal
  simp only [Config.legal, Bool.and_eq_true, decide_eq_true_eq] at hlegal
  obtain ⟨⟨⟨⟨-, hbs⟩, -⟩, -⟩, -⟩ := hlegal
  exact hbs

/-- IVLEN is wide enough to count up to BS_MAX (R21). -/
theorem ivlen_succ_toNat (h : s.Inv) (hroom : s.ivlen.toNat < s.cfg.bsMax) :
    (s.ivlen + 1#16).toNat = s.ivlen.toNat + 1 := by
  have hbs := bsMax_le_of_inv h
  exact BitVec.toNat_add_of_lt (by simp; omega)

/-- A byte appended to the fixed IV leaves the bytes above it 0x00 (R21). -/
theorem ivfix_append_above (h : s.Inv) (b : Byte) {j : Nat} (hj : s.ivlen.toNat < j) :
    Memory.read (Memory.write s.ivfix s.ivlen.toNat b) j = 0 :=
  (Memory.read_write_other hj.ne s.ivfix b).trans (Memory.read_above h.ivfix_below hj.le)

end

/-- Settles O33: the byte written is read back because IVFIX is canonical, it lists nothing at or above IVLEN, and
IVLEN does not wrap because BS_MAX fits 16 bits. -/
theorem ivbAppendsOneIvByte : Obligations.IvbAppendsOneIvByte := by
  unfold Obligations.IvbAppendsOneIvByte
  intro s b
  refine ⟨decode_encode (.ivb b), fun hinv hp hroom => ?room, ?refused⟩
  case room =>
    have hlen := ivlen_succ_toNat hinv hroom
    exact ⟨_, exec_ivb_idle hp hroom b, Memory.read_write_same hinv.ivfix_wf _ b,
      fun j hj => Memory.read_write_other hj.symm s.ivfix b, hlen,
      fun j hj => ivfix_append_above hinv b (hlen.symm.trans_le hj), rfl⟩
  case refused =>
    rintro (hp | hfull)
    · exact exec_of_not_allowed (decide_eq_false hp)
    · exact exec_of_arrayFull (decide_eq_true hfull)

/-- Settles O32: each command's meaning in IDLE; outside IDLE none of the three is allowed. -/
theorem configurationCommandsWriteTheirRegister : Obligations.ConfigurationCommandsWriteTheirRegister := by
  unfold Obligations.ConfigurationCommandsWriteTheirRegister
  intro s n b
  refine ⟨fun hp => ?idle, fun hp i hi => ?refused, decode_encode (.setbs n), decode_encode (.setfill b),
    decode_encode .ivclr⟩
  case idle =>
    exact ⟨exec_setbs_idle hp n, exec_setfill_idle hp b, _, exec_ivclr_idle hp, Memory.read_nil, rfl⟩
  case refused =>
    have hno : allowedIn i s.phase = false := by
      rcases hi with rfl | rfl | rfl <;> exact decide_eq_false hp
    exact exec_of_not_allowed hno

end Sys2Proof.Machine
end

section
/-! SUPPORT. The start checks of ENC, DEC and KWIN (43_chaining_engine.md R124): what they find in a block size that
is not legal, what a command they let pass leaves in ERR, and the statement about them settled. -/

namespace Sys2Proof.Machine

section
variable {i : Instr} {s t : State}

theorem startCheck_of_bad_size (h : s.bs.toNat = 0 ∨ s.cfg.bsMax < s.bs.toNat) :
    startCheck s = some .invalidBlockSize :=
  if_pos (h.imp_left fun h0 => BitVec.eq_of_toNat_eq h0)

/-- Once its checks pass, an ENC, a DEC or a KWIN leaves ERR cleared. -/
theorem exec_err_of_checksPass (hc : clearsFlags i = true) (hp : s.phase = .idle) (hpass : checksPass s = true)
    (h : exec i s = .next t) : t.err = none := by
  have hs : startCheck s = none := (startCheck_none_iff s).2 hpass
  cases i with
  | kwin o =>
    obtain ⟨hn, -⟩ | ⟨-, e, he, -⟩ | ⟨-, -, hok⟩ := execKwin_cases o s
    · exact absurd hp hn
    · cases hs.symm.trans he
    · cases hok.symm.trans h
      simp
  | enc c v =>
    obtain ⟨hn, -⟩ | ⟨-, e, he, -⟩ | ⟨-, -, -, hwait⟩ | ⟨-, -, -, c0, -, -, hok⟩ := execEnc_cases c v s
    · exact absurd hp hn
    · cases hs.symm.trans he
    · cases hwait.symm.trans h
      simp
    · cases hok.symm.trans h
      simp
  | dec c =>
    obtain ⟨hn, -⟩ | ⟨-, e, he, -⟩ | ⟨-, -, hok⟩ := execDec_cases c s
    · exact absurd hp hn
    · cases hs.symm.trans he
    · cases hok.symm.trans h
      simp
  | nop | srst | keyclr | keyb | setbs | setfill | ivclr | ivb | data | fin => cases hc

end

/-- Settles O34: each refusal is what the start checks find, raised with the flags cleared; once they pass, no arm
of the three commands writes ERR again. -/
theorem startChecksRefuseBeforeAnyOutput : Obligations.StartChecksRefuseBeforeAnyOutput := by
  unfold Obligations.StartChecksRefuseBeforeAnyOutput
  intro s c v off i hi hp
  have hc : clearsFlags i = true := by rcases hi with rfl | rfl | rfl <;> rfl
  refine ⟨fun hbad => ?size, fun h1 h2 hk => ?key, fun h1 h2 hk t => ?pass⟩
  case size => exact exec_of_startCheck_some hc hp (startCheck_of_bad_size hbad)
  case key => exact exec_of_startCheck_some hc hp (startCheck_of_no_key h1 h2 (BitVec.eq_of_toNat_eq hk))
  case pass => exact exec_err_of_checksPass hc hp ((checksPass_iff s).2 ⟨h1, h2, hk⟩)

end Sys2Proof.Machine
end

section
/-! SUPPORT. The call level slice by slice (43_chaining_engine.md R112, R129 to R131, R136, R137): a stream as its
first slice and the rest, the chaining XOR, and what each loop does with one slice and with a whole stream. -/

namespace Sys2Proof.Machine

/-! ### A stream's first slice and the rest -/

section
variable {bs : Nat}

theorem slices_nil (hb : 1 ≤ bs) : slices bs [] = [] := by
  have hcount : (([] : List Byte).length + bs - 1) / bs = 0 := Nat.div_eq_of_lt (by simp; omega)
  rw [slices, hcount]
  rfl

theorem slices_of_ne_nil (hb : 1 ≤ bs) {S : List Byte} (hS : S ≠ []) :
    slices bs S = S.take bs :: slices bs (S.drop bs) := by
  have hpos : 1 ≤ S.length := List.length_pos_iff.2 hS
  have hcount : (S.length + bs - 1) / bs = ((S.drop bs).length + bs - 1) / bs + 1 := by
    rw [← Nat.add_div_right _ hb, List.length_drop]
    obtain hle | hlt := Nat.le_total S.length bs
    · rw [Nat.div_eq_of_lt_le (k := 1), Nat.div_eq_of_lt_le (k := 1)] <;> omega
    · congr 1
      omega
  rw [slices, hcount, List.range_succ_eq_map]
  simp [slices, Nat.succ_mul, Nat.add_comm]

/-- Induction on a stream, one slice at a time. -/
theorem slice_induction (hb : 1 ≤ bs) {motive : List Byte → Prop} (nil : motive [])
    (slice : ∀ S, S ≠ [] → motive (S.drop bs) → motive S) (S : List Byte) : motive S := by
  by_cases hS : S = []
  · exact hS ▸ nil
  · exact slice S hS (slice_induction hb nil slice (S.drop bs))
termination_by S.length
decreasing_by
  have := List.length_pos_iff.2 hS
  simp
  omega

/-- All slices but the last are full (R112). -/
theorem take_length_of_drop_ne_nil {S : List Byte} (h : S.drop bs ≠ []) : (S.take bs).length = bs := by
  rw [Ne, List.drop_eq_nil_iff] at h
  simp
  omega

/-- A block as long as a stream's first slice, before as many bytes as the rest has, is the first slice of the two. -/
theorem take_drop_append_of_lengths {A B S : List Byte} (hA : A.length = (S.take bs).length)
    (hB : B.length = (S.drop bs).length) : (A ++ B).take bs = A ∧ (A ++ B).drop bs = B := by
  by_cases h : S.drop bs = []
  · have hnil : B = [] := List.eq_nil_of_length_eq_zero (by rw [hB, h]; rfl)
    have hle : A.length ≤ bs := hA ▸ List.length_take_le bs S
    simp [hnil, hle]
  · have hfull : A.length = bs := hA.trans (take_length_of_drop_ne_nil h)
    exact ⟨List.take_left' hfull, List.drop_left' hfull⟩

end

/-! ### The chaining XOR (R129 to R131) -/

/-- A block XORed with as many bytes of the cipher block before it, when chaining is on: what an encryption transforms
and what a decryption answers. -/
def chainWith (c : Bool) (d prev : List Byte) : List Byte := if c then xorBytes d (prev.take d.length) else d

section
variable {c : Bool} {d prev : List Byte}

theorem chainWith_length (h : d.length ≤ prev.length) : (chainWith c d prev).length = d.length := by
  cases c <;> simp [chainWith, h]

/-- Chaining twice with the same block changes nothing. -/
theorem chainWith_cancel (h : d.length ≤ prev.length) : chainWith c (chainWith c d prev) prev = d := by
  cases c with
  | false => rfl
  | true => simp [chainWith, h, xorBytes_cancel]

theorem chainWith_getD (h : d.length ≤ prev.length) {j : Nat} (hj : j < d.length) :
    (chainWith c d prev).getD j 0 = d.getD j 0 ^^^ (if c then prev.getD j 0 else 0) := by
  cases c with
  | false => simp [chainWith]
  | true =>
    have hlen : (prev.take d.length).length = d.length := by simp [h]
    rw [chainWith, if_pos rfl, xorBytes_getD hlen hj]
    simp [hj]

end

/-! ### One slice of each loop -/

section
variable (x : Xform) (K : List Byte) (c : Bool) {bs : Nat} (o : Nat) {prev S : List Byte}

theorem encryptSlices_cons {C : List Byte} (rest : List (List Byte))
    (h : forward x (chainWith c S prev) (keyWindow K o S.length) = .ok C) :
    encryptSlices x K c bs o prev (S :: rest) = (encryptSlices x K c bs (o + bs) C rest).map fun out => C ++ out := by
  rw [chainWith] at h
  simp only [encryptSlices, h]
  cases encryptSlices x K c bs (o + bs) C rest <;> rfl

theorem decryptSlices_cons {Y : List Byte} (rest : List (List Byte))
    (h : inverse x S (keyWindow K o S.length) = .ok Y) (hlen : Y.length = S.length) :
    decryptSlices x K c bs o prev (S :: rest) =
      (decryptSlices x K c bs (o + bs) S rest).map fun out => chainWith c Y prev ++ out := by
  simp only [decryptSlices, h, chainWith, hlen]
  cases decryptSlices x K c bs (o + bs) S rest <;> rfl

/-- The first slice of an encryption: it never fails (R101), and the rest goes on from the block it answers. -/
theorem encryptSlices_of_ne_nil (hb : 1 ≤ bs) (hS : S ≠ []) (hp : prev.length = bs) : ∃ C,
    forward x (chainWith c (S.take bs) prev) (keyWindow K o (S.take bs).length) = .ok C ∧
    C.length = (S.take bs).length ∧
    inverse x C (keyWindow K o C.length) = .ok (chainWith c (S.take bs) prev) ∧
    encryptSlices x K c bs o prev (slices bs S) =
      (encryptSlices x K c bs (o + bs) C (slices bs (S.drop bs))).map fun out => C ++ out := by
  have hlen : (chainWith c (S.take bs) prev).length = (S.take bs).length :=
    chainWith_length (hp ▸ List.length_take_le bs S)
  obtain ⟨C, hC, hClen, hinv⟩ := forward_ok x ((keyWindow_length K o (S.take bs).length).trans hlen.symm)
  rw [hlen] at hClen
  refine ⟨C, hC, hClen, hClen ▸ hinv, ?_⟩
  rw [slices_of_ne_nil hb hS, encryptSlices_cons x K c o _ hC]

/-- The first slice of a decryption: it never fails, and the rest goes on from the cipher slice itself (R130). -/
theorem decryptSlices_of_ne_nil (hb : 1 ≤ bs) (hS : S ≠ []) (hp : prev.length = bs) : ∃ Y,
    inverse x (S.take bs) (keyWindow K o (S.take bs).length) = .ok Y ∧
    Y.length = (S.take bs).length ∧ (chainWith c Y prev).length = (S.take bs).length ∧
    decryptSlices x K c bs o prev (slices bs S) =
      (decryptSlices x K c bs (o + bs) (S.take bs) (slices bs (S.drop bs))).map fun out =>
        chainWith c Y prev ++ out := by
  obtain ⟨Y, hY, hYlen, -⟩ := inverse_ok x (d := S.take bs) (keyWindow_length K o (S.take bs).length)
  have hle : Y.length ≤ prev.length := by rw [hYlen, hp]; exact List.length_take_le bs S
  refine ⟨Y, hY, hYlen, (chainWith_length hle).trans hYlen, ?_⟩
  rw [slices_of_ne_nil hb hS, decryptSlices_cons x K c o _ hY hYlen]

end

/-! ### A whole stream -/

section
variable (x : Xform) (K : List Byte) (c : Bool) {bs : Nat} (o : Nat) {prev : List Byte}

theorem decryptSlices_ok (hb : 1 ≤ bs) (S : List Byte) (hp : S ≠ [] → prev.length = bs) :
    ∃ out, decryptSlices x K c bs o prev (slices bs S) = .ok out ∧ out.length = S.length := by
  induction S using slice_induction hb generalizing o prev with
  | nil => exact ⟨[], by rw [slices_nil hb]; rfl, rfl⟩
  | slice S hS ih =>
    obtain ⟨Y, -, -, hlen, heq⟩ := decryptSlices_of_ne_nil x K c o hb hS (hp hS)
    obtain ⟨out, hout, holen⟩ := ih (o + bs) take_length_of_drop_ne_nil
    refine ⟨chainWith c Y prev ++ out, by rw [heq, hout]; rfl, ?_⟩
    rw [List.length_append, hlen, holen, ← List.length_append, List.take_append_drop]

/-- The encryption loop answers as many bytes as it is given, and the decryption loop takes them back. -/
theorem encryptSlices_ok (hb : 1 ≤ bs) (S : List Byte) (hp : S ≠ [] → prev.length = bs) :
    ∃ out, encryptSlices x K c bs o prev (slices bs S) = .ok out ∧ out.length = S.length ∧
      decryptSlices x K c bs o prev (slices bs out) = .ok S := by
  induction S using slice_induction hb generalizing o prev with
  | nil => exact ⟨[], by rw [slices_nil hb]; rfl, rfl, by rw [slices_nil hb]; rfl⟩
  | slice S hS ih =>
    obtain ⟨C, -, hClen, hinv, heq⟩ := encryptSlices_of_ne_nil x K c o hb hS (hp hS)
    obtain ⟨out, hout, holen, hdec⟩ := ih (o + bs) fun hne => hClen.trans (take_length_of_drop_ne_nil hne)
    have hlen : (C ++ out).length = S.length := by
      rw [List.length_append, hClen, holen, ← List.length_append, List.take_append_drop]
    have hne : C ++ out ≠ [] := fun h => hS (List.eq_nil_of_length_eq_zero (by rw [← hlen, h]; rfl))
    obtain ⟨htake, hdrop⟩ := take_drop_append_of_lengths hClen holen
    refine ⟨C ++ out, by rw [heq, hout]; rfl, hlen, ?_⟩
    obtain ⟨Y, hY, -, -, hdeq⟩ := decryptSlices_of_ne_nil x K c o hb hne (hp hS)
    rw [htake, hinv] at hY
    cases hY
    have hle : (S.take bs).length ≤ prev.length := hp hS ▸ List.length_take_le bs S
    rw [hdeq, htake, hdrop, hdec, chainWith_cancel hle]
    exact congrArg _ (List.take_append_drop bs S)

end

/-! ### The two calls within their preconditions -/

section
variable (x : Xform) {K : List Byte} (c : Bool) {bs : Nat}

/-- An encryption answers the block made from the IV, then what the loop makes of the plaintext (R136). -/
theorem encryptStream_ok (P : List Byte) {iv : List Byte} (f : Byte) (hb : 1 ≤ bs) (hK : K ≠ [])
    (hiv : iv.length = bs) : ∃ C0 out,
    forward x (xorBytes (List.replicate bs f) iv) (keyWindow K 0 bs) = .ok C0 ∧ C0.length = bs ∧
    encryptSlices x K c bs bs C0 (slices bs P) = .ok out ∧ out.length = P.length ∧
    decryptSlices x K c bs bs C0 (slices bs out) = .ok P ∧
    encryptStream x P K c bs f iv = .ok (C0 ++ out) := by
  have hlen : (xorBytes (List.replicate bs f) iv).length = bs := by simp [hiv]
  obtain ⟨C0, hC0, hC0len, -⟩ := forward_ok x ((keyWindow_length K 0 bs).trans hlen.symm)
  rw [hlen] at hC0len
  obtain ⟨out, hout, holen, hdec⟩ := encryptSlices_ok x K c bs hb P fun _ => hC0len
  refine ⟨C0, out, hC0, hC0len, hout, holen, hdec, ?_⟩
  rw [encryptStream_eq x P c f iv hb hK, encryptBody, hC0]
  simp [hout]

/-- A decryption of at least `bs` bytes answers as many bytes less, whatever they are (R137). -/
theorem decryptStream_ok {C : List Byte} (hb : 1 ≤ bs) (hK : K ≠ []) (hC : bs ≤ C.length) :
    ∃ D, decryptStream x C K c bs = .ok D ∧ D.length = C.length - bs := by
  obtain ⟨D, hD, hlen⟩ := decryptSlices_ok x K c bs (prev := C.take bs) hb (C.drop bs) take_length_of_drop_ne_nil
  exact ⟨D, (decryptStream_eq x c hb hK hC).trans hD, hlen.trans (List.length_drop ..)⟩

end

/-- Settles O51: the lengths are those of the two loops; the loops have nothing to do without a slice. -/
theorem streamLengths : Obligations.StreamLengths := by
  unfold Obligations.StreamLengths
  intro x K c bs hb hK
  refine ⟨fun P iv f hiv => ?encrypt, fun C => decryptStream_ok x c hb hK, fun iv f hiv => ?noPlaintext,
    fun C hC => ?oneBlock⟩
  case encrypt =>
    obtain ⟨C0, out, -, hlen, -, holen, -, hE⟩ := encryptStream_ok x c P f hb hK hiv
    exact ⟨_, hE, by rw [List.length_append, hlen, holen]⟩
  case noPlaintext =>
    obtain ⟨C0, out, hC0, -, -, holen, -, hE⟩ := encryptStream_ok x c [] f hb hK hiv
    rw [hE, hC0, List.eq_nil_of_length_eq_zero holen, List.append_nil]
  case oneBlock =>
    obtain ⟨D, hD, hlen⟩ := decryptStream_ok x c hb hK hC.ge
    rw [hD, List.eq_nil_of_length_eq_zero (l := D) (by omega)]

/-- Settles O52: the decryption drops the block made from the IV, and its loop takes back what the encryption's made. -/
theorem decryptionUndoesEncryption : Obligations.DecryptionUndoesEncryption := by
  unfold Obligations.DecryptionUndoesEncryption
  intro x P K c bs f iv hb hK hiv
  obtain ⟨C0, out, -, hlen, -, -, hdec, hE⟩ := encryptStream_ok x c P f hb hK hiv
  refine ⟨C0 ++ out, hE, ?_⟩
  rw [decryptStream_eq x c hb hK (by simp; omega), List.take_left' hlen, List.drop_left' hlen, hdec]

end Sys2Proof.Machine
end

section
/-! SUPPORT. The two calls with the reference transform, byte by byte (43_chaining_engine.md R139): what one byte of
each answer is, and what a changed byte of the stream does to it (R143, R145). -/

namespace Sys2Proof.Machine

/-! ### The bytes of the operands -/

theorem keyWindow_getD (K : List Byte) (o : Nat) {n j : Nat} (hj : j < n) :
    (keyWindow K o n).getD j 0 = K.getD ((o + j) % K.length) 0 := by
  rw [List.getD_eq_getElem _ _ (by simpa using hj)]
  simp [keyWindow]

/-- A byte of a stream past its first slice, as a byte of the rest. -/
theorem drop_getD {S : List Byte} {bs j : Nat} (hj : bs ≤ j) : (S.drop bs).getD (j - bs) 0 = S.getD j 0 := by
  simp [Nat.add_sub_cancel' hj]

section
variable {d k y : List Byte} {j : Nat}

theorem forward_xor_getD (hlen : k.length = d.length) (h : forward .xor d k = .ok y) (hj : j < d.length) :
    y.getD j 0 = d.getD j 0 ^^^ k.getD j 0 := by
  cases (forward_xor hlen).symm.trans h
  exact xorBytes_getD hlen hj

theorem inverse_xor_getD (hlen : k.length = d.length) (h : inverse .xor d k = .ok y) (hj : j < d.length) :
    y.getD j 0 = d.getD j 0 ^^^ k.getD j 0 := by
  cases (inverse_xor hlen).symm.trans h
  exact xorBytes_getD hlen hj

end

/-! ### The bytes of the loops -/

section
variable {K : List Byte} {c : Bool} {bs o p : Nat} {prev S out : List Byte}

/-- A byte an encryption answers: the byte `bs` positions before it in what stands before the answer is chained in. -/
theorem encryptSlices_xor_getD (hb : 1 ≤ bs) (hp : S ≠ [] → prev.length = bs)
    (h : encryptSlices .xor K c bs o prev (slices bs S) = .ok out) (hlt : p < S.length) :
    out.getD p 0 = S.getD p 0 ^^^ (if c then (prev ++ out).getD p 0 else 0) ^^^ K.getD ((o + p) % K.length) 0 := by
  induction S using slice_induction hb generalizing o p prev out with
  | nil => cases hlt
  | slice S hS ih =>
    have hprev := hp hS
    obtain ⟨C, hC, hClen, -, heq⟩ := encryptSlices_of_ne_nil .xor K c o hb hS hprev
    have hrest : S.drop bs ≠ [] → C.length = bs := fun hne => hClen.trans (take_length_of_drop_ne_nil hne)
    obtain ⟨out', hout', -, -⟩ := encryptSlices_ok .xor K c (o + bs) hb (S.drop bs) hrest
    rw [heq, hout'] at h
    cases h
    obtain hfirst | hlater := Nat.lt_or_ge p bs
    · have hle : (S.take bs).length ≤ prev.length := hprev ▸ List.length_take_le bs S
      have hpt : p < (S.take bs).length := by simp; omega
      have hlen := chainWith_length (c := c) hle
      rw [List.getD_append _ _ _ _ (hpt.trans_eq hClen.symm), List.getD_append _ _ _ _ (hfirst.trans_eq hprev.symm),
        forward_xor_getD ((keyWindow_length ..).trans hlen.symm) hC (hpt.trans_eq hlen.symm),
        chainWith_getD hle hpt, keyWindow_getD K o hpt]
      simp [hfirst]
    · have hpd : p - bs < (S.drop bs).length := by simp; omega
      have hfull := hrest (List.length_pos_iff.1 (by omega))
      rw [List.getD_append_right _ _ _ _ (hfull ▸ hlater), List.getD_append_right _ _ _ _ (hprev ▸ hlater),
        hfull, hprev, ih hrest hout' hpd, drop_getD hlater, Nat.add_assoc, Nat.add_sub_cancel' hlater]

/-- A byte a decryption answers: the byte `bs` positions before it in the cipher stream is chained in. -/
theorem decryptSlices_xor_getD (hb : 1 ≤ bs) (hp : S ≠ [] → prev.length = bs)
    (h : decryptSlices .xor K c bs o prev (slices bs S) = .ok out) (hlt : p < S.length) :
    out.getD p 0 = S.getD p 0 ^^^ K.getD ((o + p) % K.length) 0 ^^^ (if c then (prev ++ S).getD p 0 else 0) := by
  induction S using slice_induction hb generalizing o p prev out with
  | nil => cases hlt
  | slice S hS ih =>
    have hprev := hp hS
    obtain ⟨Y, hY, hYlen, hlen, heq⟩ := decryptSlices_of_ne_nil .xor K c o hb hS hprev
    obtain ⟨out', hout', -⟩ := decryptSlices_ok .xor K c (o + bs) hb (S.drop bs) take_length_of_drop_ne_nil
    rw [heq, hout'] at h
    cases h
    obtain hfirst | hlater := Nat.lt_or_ge p bs
    · have hle : Y.length ≤ prev.length := by rw [hYlen, hprev]; exact List.length_take_le bs S
      have hpt : p < (S.take bs).length := by simp; omega
      rw [List.getD_append _ _ _ _ (hpt.trans_eq hlen.symm), List.getD_append _ _ _ _ (hfirst.trans_eq hprev.symm),
        chainWith_getD hle (hpt.trans_eq hYlen.symm), inverse_xor_getD (keyWindow_length ..) hY hpt,
        keyWindow_getD K o hpt]
      simp [hfirst]
    · have hpd : p - bs < (S.drop bs).length := by simp; omega
      have hfull : (S.take bs).length = bs := take_length_of_drop_ne_nil (List.length_pos_iff.1 (by omega))
      rw [List.getD_append_right _ _ _ _ (by omega), List.getD_append_right _ _ _ _ (hprev ▸ hlater),
        hlen, hfull, hprev, ih take_length_of_drop_ne_nil hout' hpd, drop_getD hlater, Nat.add_assoc,
        Nat.add_sub_cancel' hlater, List.take_append_drop]

end

/-! ### The bytes of the calls -/

section
variable {P K iv C D : List Byte} {c : Bool} {bs p : Nat} {f : Byte}

theorem encryptStream_length {x : Xform} (hb : 1 ≤ bs) (hK : K ≠ []) (hiv : iv.length = bs)
    (h : encryptStream x P K c bs f iv = .ok C) : C.length = bs + P.length := by
  obtain ⟨C0, out, -, hlen, -, holen, -, hE⟩ := encryptStream_ok x c P f hb hK hiv
  cases hE.symm.trans h
  rw [List.length_append, hlen, holen]

theorem decryptStream_length {x : Xform} (hb : 1 ≤ bs) (hK : K ≠ []) (hC : bs ≤ C.length)
    (h : decryptStream x C K c bs = .ok D) : D.length = C.length - bs := by
  obtain ⟨D', hD', hlen⟩ := decryptStream_ok x c hb hK hC
  cases hD'.symm.trans h
  exact hlen

theorem encryptStream_xor_getD_first (hb : 1 ≤ bs) (hK : K ≠ []) (hiv : iv.length = bs)
    (h : encryptStream .xor P K c bs f iv = .ok C) (hp : p < bs) :
    C.getD p 0 = f ^^^ iv.getD p 0 ^^^ K.getD (p % K.length) 0 := by
  obtain ⟨C0, out, hC0, hlen, -, -, -, hE⟩ := encryptStream_ok .xor c P f hb hK hiv
  cases hE.symm.trans h
  have hivr : iv.length = (List.replicate bs f).length := by simp [hiv]
  have hseed : (xorBytes (List.replicate bs f) iv).length = bs := by simp [hiv]
  rw [List.getD_append _ _ _ _ (hp.trans_eq hlen.symm),
    forward_xor_getD ((keyWindow_length ..).trans hseed.symm) hC0 (hp.trans_eq hseed.symm),
    xorBytes_getD hivr (by simpa using hp), keyWindow_getD K 0 hp, Nat.zero_add]
  simp [hp]

theorem encryptStream_xor_getD_later (hb : 1 ≤ bs) (hK : K ≠ []) (hiv : iv.length = bs)
    (h : encryptStream .xor P K c bs f iv = .ok C) (hp : bs ≤ p) (hlt : p < C.length) :
    C.getD p 0 = P.getD (p - bs) 0 ^^^ (if c then C.getD (p - bs) 0 else 0) ^^^ K.getD (p % K.length) 0 := by
  have hClen := encryptStream_length hb hK hiv h
  obtain ⟨C0, out, -, hlen, hout, -, -, hE⟩ := encryptStream_ok .xor c P f hb hK hiv
  cases hE.symm.trans h
  rw [List.getD_append_right _ _ _ _ (hlen ▸ hp), hlen,
    encryptSlices_xor_getD hb (fun _ => hlen) hout (by omega), Nat.add_sub_cancel' hp]

theorem decryptStream_xor_getD (hb : 1 ≤ bs) (hK : K ≠ []) (h : decryptStream .xor C K c bs = .ok D)
    (hp : bs ≤ p) (hlt : p < C.length) :
    D.getD (p - bs) 0 = C.getD p 0 ^^^ K.getD (p % K.length) 0 ^^^ (if c then C.getD (p - bs) 0 else 0) := by
  rw [decryptStream_eq .xor c hb hK (hp.trans hlt.le)] at h
  have hpd : p - bs < (C.drop bs).length := by simp; omega
  rw [decryptSlices_xor_getD hb take_length_of_drop_ne_nil h hpd, drop_getD hp, Nat.add_sub_cancel' hp,
    List.take_append_drop]

/-! ### A changed byte -/

/-- XORing a value into one byte of a stream. -/
theorem set_xor_getD {q : Nat} (hq : q < P.length) (v : Byte) (j : Nat) :
    (P.set q (P.getD q 0 ^^^ v)).getD j 0 = P.getD j 0 ^^^ (if j = q then v else 0) := by
  by_cases hj : j = q
  · simp [hj, hq]
  · simp [hj, Ne.symm hj]

end

/-- What XORing `v` into plaintext byte `q` XORs into ciphertext byte `p` (R143). -/
def avalanche (c : Bool) (bs q : Nat) (v : Byte) (p : Nat) : Byte :=
  if q + bs ≤ p ∧ (p - q) % bs = 0 ∧ (c = true ∨ p = q + bs) then v else 0

section
variable {c : Bool} {bs q p : Nat} {v : Byte}

theorem avalanche_before (hp : p < q + bs) : avalanche c bs q v p = 0 :=
  if_neg fun ⟨hle, _⟩ => hp.not_ge hle

theorem avalanche_at : avalanche c bs q v (q + bs) = v := by
  simp [avalanche]

/-- Past its first position the change goes on exactly when chaining, from `bs` positions before. -/
theorem avalanche_after (hp : q + bs < p) :
    avalanche c bs q v p = if c then avalanche c bs q v (p - bs) else 0 := by
  cases c with
  | false => simp [avalanche, hp.ne']
  | true =>
    obtain ⟨m, rfl⟩ : ∃ m, p = q + m + bs := ⟨p - q - bs, by omega⟩
    have hstep : q + m + bs - q = m + bs := by omega
    have hmul : bs ≤ m ∧ m % bs = 0 ↔ m % bs = 0 :=
      and_iff_right_of_imp fun h => Nat.le_of_dvd (by omega) (Nat.dvd_of_mod_eq_zero h)
    simp [avalanche, hp.le, hstep, hmul]

/-- A ciphertext byte changes by what its plaintext byte does and, when chaining, by what the byte `bs` before does. -/
theorem avalanche_later (hb : 1 ≤ bs) (hp : bs ≤ p) :
    avalanche c bs q v p = (if p - bs = q then v else 0) ^^^ (if c then avalanche c bs q v (p - bs) else 0) := by
  obtain hlt | rfl | hgt := Nat.lt_trichotomy p (q + bs)
  · have hne : p - bs ≠ q := by omega
    have hlt' : p - bs < q + bs := by omega
    simp [avalanche_before hlt, avalanche_before hlt', hne]
  · have hlt' : q < q + bs := by omega
    simp [avalanche_at, avalanche_before hlt']
  · have hne : p - bs ≠ q := by omega
    simp [avalanche_after hgt, hne]

end

/-- A change of the byte that is chained in is chained in too. -/
theorem chained_xor (c : Bool) (b e : Byte) :
    (if c then b ^^^ e else 0) = (if c then b else 0) ^^^ (if c then e else 0) := by
  cases c with
  | false => exact BitVec.xor_zero.symm
  | true => rfl

section
variable {P K iv C C' D D' : List Byte} {c : Bool} {bs p q : Nat} {f v : Byte}

/-- By induction on the position: the change obeys the recurrence of the closed form. -/
theorem encryptStream_xor_set_getD (hb : 1 ≤ bs) (hK : K ≠ []) (hiv : iv.length = bs) (hq : q < P.length)
    (h : encryptStream .xor P K c bs f iv = .ok C)
    (h' : encryptStream .xor (P.set q (P.getD q 0 ^^^ v)) K c bs f iv = .ok C')
    (hlen : C'.length = C.length) (hp : p < C.length) :
    C'.getD p 0 = C.getD p 0 ^^^ avalanche c bs q v p := by
  induction p using Nat.strong_induction_on with
  | h p ih =>
    obtain hfirst | hlater := Nat.lt_or_ge p bs
    · rw [encryptStream_xor_getD_first hb hK hiv h hfirst, encryptStream_xor_getD_first hb hK hiv h' hfirst,
        avalanche_before (hfirst.trans_le (Nat.le_add_left ..))]
      exact BitVec.xor_zero.symm
    · rw [encryptStream_xor_getD_later hb hK hiv h hlater hp,
        encryptStream_xor_getD_later hb hK hiv h' hlater (hlen ▸ hp), avalanche_later hb hlater,
        set_xor_getD hq, ih (p - bs) (by omega) (by omega), chained_xor]
      ac_rfl

/-- A plaintext byte depends on two cipher bytes: the one `bs` after it and, when chaining, the one at its own
position. -/
theorem decryptStream_xor_set_getD (hb : 1 ≤ bs) (hK : K ≠ []) (hp : p < C.length)
    (h : decryptStream .xor C K c bs = .ok D)
    (h' : decryptStream .xor (C.set p (C.getD p 0 ^^^ v)) K c bs = .ok D') (hq : q + bs < C.length) :
    D'.getD q 0 = D.getD q 0 ^^^ (if q + bs = p then v else 0) ^^^ (if c = true ∧ q = p then v else 0) := by
  have hpos : bs ≤ q + bs := Nat.le_add_left ..
  have hbyte := decryptStream_xor_getD hb hK h hpos hq
  have hbyte' := decryptStream_xor_getD hb hK h' hpos (by simpa using hq)
  rw [Nat.add_sub_cancel] at hbyte hbyte'
  rw [hbyte, hbyte', set_xor_getD hp, set_xor_getD hp, chained_xor, ite_and]
  ac_rfl

end

/-! ### The statements settled -/

/-- Settles O53: the closed form of each call, whose first slice is chained to the block before it as any other. -/
theorem xorStreamsHaveAClosedForm : Obligations.XorStreamsHaveAClosedForm := by
  unfold Obligations.XorStreamsHaveAClosedForm
  intro K c bs hb hK
  refine ⟨fun P iv C f hiv h => ⟨fun p => ?first, fun p => ?later⟩, fun C D _ h p => ?decrypt⟩
  case first => exact encryptStream_xor_getD_first hb hK hiv h
  case later => exact encryptStream_xor_getD_later hb hK hiv h
  case decrypt => exact decryptStream_xor_getD hb hK h

/-- Settles O56: the lengths agree, and at each position the change is `avalanche`. -/
theorem cbcAvalancheIsExact : Obligations.CbcAvalancheIsExact := by
  unfold Obligations.CbcAvalancheIsExact
  intro P K c bs f v iv C C' q hb hK hiv hq h h'
  have hlen : C'.length = C.length := by
    rw [encryptStream_length hb hK hiv h, encryptStream_length hb hK hiv h', List.length_set]
  exact ⟨hlen, fun p hp => encryptStream_xor_set_getD hb hK hiv hq h h' hlen hp⟩

/-- Settles O57: any stream of at least `bs` bytes decrypts, the changed one too, and a plaintext byte depends on two
of its bytes. -/
theorem corruptionIsLocalAndSilent : Obligations.CorruptionIsLocalAndSilent := by
  unfold Obligations.CorruptionIsLocalAndSilent
  intro C K c bs hb hK hC
  refine ⟨fun x => ?silent, fun v D p hp hD => ?twoBytes⟩
  case silent =>
    obtain ⟨D, hD, -⟩ := decryptStream_ok x c hb hK hC
    exact ⟨D, hD⟩
  case twoBytes =>
    have hlen := decryptStream_length hb hK hC hD
    obtain ⟨D', hD', hlen'⟩ := decryptStream_ok .xor c (C := C.set p (C.getD p 0 ^^^ v)) hb hK (by simpa using hC)
    rw [List.length_set] at hlen'
    exact ⟨D', hD', hlen'.trans hlen.symm, fun q hq => decryptStream_xor_set_getD hb hK hp hD hD' (by omega)⟩

end Sys2Proof.Machine
end

section
/-! SUPPORT. NOP and the window accesses without an effect (44_system_commands.md R149, R156): the step that reads CMD
or the reserved word, the step that writes a word of the window other than CMD, and the statements about them settled. -/

namespace Sys2Proof.Machine

section
variable {addr : Nat} {value : Word} {s : State} {rest : List HostEvent}

/-- CMD reads 0. -/
theorem step_read_cmd (h : s.inbox = .read 0x00 4 :: rest) :
    step s = .next { s with inbox := rest, replies := s.replies ++ [0#32] } :=
  step_read h (by decide) rfl

/-- The reserved word reads 0. -/
theorem step_read_reserved (h : s.inbox = .read 0x1C 4 :: rest) :
    step s = .next { s with inbox := rest, replies := s.replies ++ [0#32] } :=
  step_read h (by decide) rfl

theorem writeWindow_of_ne_cmd (h0 : addr ≠ 0x00) : writeWindow addr value s = .next s := by
  cases addr with
  | zero => exact absurd rfl h0
  | succ n => rfl

/-- A write beside CMD is no command word, so no stall holds it back, and serving it changes nothing. -/
theorem step_write_of_ne_cmd (h : s.inbox = .write addr 4 value :: rest) (hw : addr < 0x20) (ha : addr % 4 = 0)
    (h0 : addr ≠ 0x00) : step s = .next { s with inbox := rest } := by
  have hcmd : isCommandWord (.write addr 4 value) = false := by simp [isCommandWord, h0]
  rw [step_serve h (.inr hcmd)]
  simp [serve, inWindow, accessDefined, hw, ha, writeWindow_of_ne_cmd h0]

end

theorem exec_nop (s : State) : exec .nop s = .next s := rfl

/-- Settles O13: the two reads answer no register's word, and a write at 0x04 or above is not a write of CMD. -/
theorem otherWindowAccessesChangeNothing : Obligations.OtherWindowAccessesChangeNothing := by
  unfold Obligations.OtherWindowAccessesChangeNothing
  intro s rest addr v
  refine ⟨fun haddr h => ?read, fun hlo hhi ha h => ?write⟩
  case read =>
    rcases haddr with rfl | rfl
    · exact step_read_cmd h
    · exact step_read_reserved h
  case write => exact step_write_of_ne_cmd h (by omega) ha (by omega)

/-- Settles O28: the word 0 is the encoding of NOP, whose arm answers the state it is given. -/
theorem nopChangesNothing : Obligations.NopChangesNothing := by
  unfold Obligations.NopChangesNothing
  exact ⟨decode_encode .nop, exec_nop⟩

end Sys2Proof.Machine
end

section
/-! SUPPORT. The encoding read both ways, and the step that takes a command word (30_encoding.md R67, R68; 10_state.md
R59): the statements about them settled. -/

namespace Sys2Proof

/-- Settles O1: the decoder reads back each format's word. -/
theorem decodeOfEncodeIsTheCommand : Obligations.DecodeOfEncodeIsTheCommand := by
  unfold Obligations.DecodeOfEncodeIsTheCommand
  exact decode_encode

/-- Settles O2: the bits of a word are its opcode, the operand the decoder reads and the bits it checks to be zero. -/
theorem encodeOfDecodeIsTheWord : Obligations.EncodeOfDecodeIsTheWord := by
  unfold Obligations.EncodeOfDecodeIsTheWord
  exact fun _ _ => encode_of_decode

end Sys2Proof

namespace Sys2Proof.Machine

section
variable {s : State} {w : Word} {i : Instr} {rest : List HostEvent}

theorem runWord_of_decode (h : decode w = .ok i) (s : State) : runWord w s = exec i s := by simp [runWord, h]

theorem runWord_of_illegal {f : Illegal} (h : decode w = .error f) (s : State) :
    runWord w s = .next (raise .illegalCommand s) := by simp [runWord, h]

/-- Outside a stall a step takes the command word that is pending. -/
theorem step_command (hp : s.phase ≠ .ivseed) (h : s.inbox = cmdWrite w :: rest) :
    step s = runWord w { s with inbox := rest } :=
  step_cmdWrite h ((stalled_eq_false_iff s).2 hp)

end

/-- Settles O6: a legal word is run as its command. -/
theorem stepRunsTheDecodedCommand : Obligations.StepRunsTheDecodedCommand := by
  unfold Obligations.StepRunsTheDecodedCommand
  intro s w i rest hp hin hd
  rw [step_command hp hin, runWord_of_decode hd]

/-- Settles O7: an illegal word raises IllegalCommand, whose entry action is empty. -/
theorem illegalWordWritesErrOnly : Obligations.IllegalWordWritesErrOnly := by
  unfold Obligations.IllegalWordWritesErrOnly
  intro s w f rest hp hin hd
  refine ⟨?_, rfl⟩
  rw [step_command hp hin, runWord_of_illegal hd, raise_illegalCommand]

/-- Settles O8: the word placed is the command's own, which decodes to it. -/
theorem fetchWordRunsNext : Obligations.FetchWordRunsNext := by
  unfold Obligations.FetchWordRunsNext
  intro s i hp
  have hw : BitVec.ofNat 32 ((encode i).toNat % 2 ^ 32) = encode i := by
    rw [Nat.mod_eq_of_lt (encode i).isLt, BitVec.ofNat_toNat, BitVec.setWidth_eq]
  rw [step_command (s := State.withFetchWord s 32 (encode i).toNat) hp rfl, hw, runWord_of_decode (decode_encode i)]
  rfl

end Sys2Proof.Machine
end

section
/-! SUPPORT. What a command does (60_exceptions.md R163 to R167, and the rule of each command): it raises the first
error that applies, with that error's entry action, or it is accepted and answers one state. Every rule about all
commands is a case analysis on this. -/

namespace Sys2Proof.Machine

/-! ### Refused -/

/-- What a command that raises `e` leaves: ERR written, the entry action of `e` (R161, R162), and DONE cleared by the
commands whose start checks fail. -/
def raised (e : ErrKind) (s : State) : State :=
  { s with
    err := some e
    done := if e = .invalidBlockSize ∨ e = .invalidKey then false else s.done
    phase := if e = .shortCipher then .idle else s.phase
    fill := if e = .shortCipher then 0 else s.fill }

section
variable {i : Instr} {s : State}

/-- ENC, DEC and KWIN are allowed in IDLE and nowhere else, and fill no array. -/
theorem allowedIn_of_clearsFlags (hc : clearsFlags i = true) :
    (allowedIn i s.phase = true ↔ s.phase = .idle) ∧ arrayFull i s = false ∧ i ≠ .fin := by
  cases i with
  | kwin | enc | dec => exact ⟨decide_eq_true_iff, rfl, nofun⟩
  | nop | srst | keyclr | keyb | setbs | setfill | ivclr | ivb | data | fin => cases hc

/-- A command raises nothing exactly when its phase, its array and, for ENC, DEC and KWIN, the start checks allow it,
and it is no FIN in DROP (R167). -/
theorem errorOf_none_iff : errorOf i s = none ↔ allowedIn i s.phase = true ∧ arrayFull i s = false ∧
    (clearsFlags i = true → checksPass s = true) ∧ ¬ (i = .fin ∧ s.phase = .drop) := by
  unfold errorOf
  rw [checksPass_iff]
  grind

theorem exec_of_errorOf {e : ErrKind} (h : errorOf i s = some e) : exec i s = .next (raised e s) := by
  unfold errorOf at h
  split at h
  case isTrue hphase =>
    cases h
    exact exec_of_not_allowed hphase
  case isFalse hphase =>
  have hallowed : allowedIn i s.phase = true := Bool.not_eq_false _ ▸ hphase
  split at h
  case isTrue hfull =>
    cases h
    exact exec_of_arrayFull hfull
  case isFalse =>
  split at h
  case isTrue hsize =>
    cases h
    obtain ⟨hc, hbad⟩ := hsize
    exact exec_of_startCheck_some hc ((allowedIn_of_clearsFlags hc).1.1 hallowed) (startCheck_of_bad_size hbad)
  case isFalse hsize =>
  split at h
  case isTrue hkey =>
    cases h
    obtain ⟨hc, hk⟩ := hkey
    have hlegal : 1 ≤ s.bs.toNat ∧ s.bs.toNat ≤ s.cfg.bsMax := by
      have := not_and.1 hsize hc
      omega
    exact exec_of_startCheck_some hc ((allowedIn_of_clearsFlags hc).1.1 hallowed)
      (startCheck_of_no_key hlegal.1 hlegal.2 (BitVec.eq_of_toNat_eq hk))
  case isFalse =>
  split at h
  case isTrue hshort =>
    cases h
    obtain ⟨rfl, hdrop⟩ := hshort
    simp [exec, execFin, hdrop, raise, raised]
  case isFalse => cases h

/-- DONE is cleared by the errors of the start checks, which are the ones that ENC, DEC and KWIN raise in IDLE. -/
theorem startError_iff {e : ErrKind} (h : errorOf i s = some e) :
    e = .invalidBlockSize ∨ e = .invalidKey ↔ clearsFlags i = true ∧ s.phase = .idle := by
  unfold errorOf at h
  cases hc : clearsFlags i with
  | false => grind
  | true =>
    obtain ⟨hallowed, hroom, hfin⟩ := allowedIn_of_clearsFlags (s := s) hc
    grind

end

/-! ### Accepted -/

/-- The two arms of a block step (R129, R130): from the slice `l`, the chain block `prev` and the key block `kb`, the
bytes emitted and the bytes that go into PREV. -/
inductive BlockOf (x : Xform) (c : Bool) (kb prev l : List Byte) : Dir → List Byte → List Byte → Prop
  | encrypt {y : List Byte} (h : forward x (chainWith c l prev) kb = .ok y) : BlockOf x c kb prev l .encrypt y y
  | decrypt {y : List Byte} (h : inverse x l kb = .ok y) : BlockOf x c kb prev l .decrypt (chainWith c y prev) l

/-- A block step of `n` bytes at `s` emits `e` and puts `q` into PREV (R128). -/
def BlockAt (n : Nat) (s : State) (e q : List Byte) : Prop :=
  BlockOf s.cfg.xform s.chain (window s s.off.toNat n) (prevBytes s n) (sliceBytes s n) s.dir e q

/-- The commands that raise nothing, each with the state it answers, every written register named. -/
inductive Accepted (s : State) : Instr → State → Prop
  | nop : Accepted s .nop s
  | srst : Accepted s .srst (resetState s)
  | keyclr (hp : s.phase = .idle) : Accepted s .keyclr { s with klen := 0#16 }
  | keyb (b : Byte) (hp : s.phase = .idle) (hroom : s.klen.toNat ≠ s.cfg.keyMax) : Accepted s (.keyb b)
      { s with key := Memory.write s.key s.klen.toNat b, klen := s.klen + 1#16 }
  | kwin (o : BitVec 24) (hp : s.phase = .idle) (hc : checksPass s = true) : Accepted s (.kwin o) { s with
      err := none, done := true
      out := s.out ++ (window s o.toNat s.bs.toNat).map Token.byte ++ [Token.endMark] }
  | setbs (n : BitVec 16) (hp : s.phase = .idle) : Accepted s (.setbs n) { s with bs := n }
  | setfill (b : Byte) (hp : s.phase = .idle) : Accepted s (.setfill b) { s with filler := b }
  | ivclr (hp : s.phase = .idle) : Accepted s .ivclr { s with ivfix := [], ivlen := 0#16 }
  | ivb (b : Byte) (hp : s.phase = .idle) (hroom : s.ivlen.toNat ≠ s.cfg.bsMax) : Accepted s (.ivb b)
      { s with ivfix := Memory.write s.ivfix s.ivlen.toNat b, ivlen := s.ivlen + 1#16 }
  | enc (c v : Bool) (hp : s.phase = .idle) (hc : checksPass s = true)
      (hiv : IvPort.canSupply s.ivin (ivDraws v s) = true) {y : List Byte}
      (hy : forward s.cfg.xform (seedBlock v s) (window s 0 s.bs.toNat) = .ok y) : Accepted s (.enc c v) { s with
      err := none, done := false, dir := .encrypt, chain := c, ivsel := v, fill := 0#16, phase := .main
      out := s.out ++ y.map Token.byte, prev := Memory.writeRun s.prev 0 y
      off := BitVec.ofNat 24 (s.bs.toNat % tlen s), ivin := IvPort.advance s.ivin (ivDraws v s) }
  | encStalls (c v : Bool) (hp : s.phase = .idle) (hc : checksPass s = true)
      (hiv : IvPort.canSupply s.ivin (ivDraws v s) = false) : Accepted s (.enc c v) { s with
      err := none, done := false, dir := .encrypt, chain := c, ivsel := v, fill := 0#16, phase := .ivseed
      ivin := IvPort.advance s.ivin s.ivin.offered.length }
  | dec (c : Bool) (hp : s.phase = .idle) (hc : checksPass s = true) : Accepted s (.dec c) { s with
      err := none, done := false, dir := .decrypt, chain := c, fill := 0#16, off := 0#24, phase := .drop }
  | dataBuffers (b : Byte) (hp : s.phase = .drop ∨ s.phase = .main) (hf : s.fill + 1#16 ≠ s.bs) :
      Accepted s (.data b) { s with buf := Memory.write s.buf s.fill.toNat b, fill := s.fill + 1#16 }
  | dataDrops (b : Byte) (hp : s.phase = .drop) (hf : s.fill + 1#16 = s.bs) : Accepted s (.data b) { s with
      buf := Memory.write s.buf s.fill.toNat b, fill := 0#16, phase := .main
      prev := Memory.writeRun s.prev 0 (sliceBytes (bufferByte b s) s.bs.toNat)
      off := BitVec.ofNat 24 (s.bs.toNat % tlen s) }
  | dataBlock (b : Byte) (hp : s.phase = .main) (hf : s.fill + 1#16 = s.bs) {e q : List Byte}
      (hb : BlockAt s.bs.toNat (bufferByte b s) e q) : Accepted s (.data b) { s with
      buf := Memory.write s.buf s.fill.toNat b, fill := 0#16
      out := s.out ++ e.map Token.byte, prev := Memory.writeRun s.prev 0 q
      off := BitVec.ofNat 24 ((s.off.toNat + s.bs.toNat) % tlen s) }
  | finEmpty (hp : s.phase = .main) (hf : s.fill = 0#16) : Accepted s .fin { s with
      out := s.out ++ [Token.endMark], done := true, phase := .idle }
  | finTail (hp : s.phase = .main) (hf : s.fill ≠ 0#16) {e q : List Byte} (hb : BlockAt s.fill.toNat s e q) :
      Accepted s .fin { s with
      out := s.out ++ e.map Token.byte ++ [Token.endMark], done := true, phase := .idle, fill := 0#16
      prev := Memory.writeRun s.prev 0 q, off := BitVec.ofNat 24 ((s.off.toNat + s.bs.toNat) % tlen s) }

/-! ### The block step -/

section
variable {x : Xform} {c : Bool} {kb prev l e q : List Byte} {d : Dir}

/-- Operands of equal length always give a block (R101). -/
theorem BlockOf.exists (hk : kb.length = l.length) (hp : l.length ≤ prev.length) :
    ∃ e q, BlockOf x c kb prev l d e q := by
  cases d with
  | encrypt =>
    obtain ⟨y, hy, -⟩ := forward_ok x (hk.trans (chainWith_length hp).symm)
    exact ⟨y, y, .encrypt hy⟩
  | decrypt =>
    obtain ⟨y, hy, -⟩ := inverse_ok x hk
    exact ⟨chainWith c y prev, l, .decrypt hy⟩

theorem BlockOf.length (h : BlockOf x c kb prev l d e q) (hk : kb.length = l.length) (hp : l.length ≤ prev.length) :
    e.length = l.length ∧ q.length = l.length := by
  cases h with
  | encrypt hf =>
    have hlen := chainWith_length (c := c) hp
    obtain ⟨y, hy, hylen, -⟩ := forward_ok x (hk.trans hlen.symm)
    cases hy.symm.trans hf
    exact ⟨hylen.trans hlen, hylen.trans hlen⟩
  | decrypt hi =>
    obtain ⟨y, hy, hylen, -⟩ := inverse_ok x hk
    cases hy.symm.trans hi
    exact ⟨(chainWith_length (hylen ▸ hp)).trans hylen, rfl⟩

end

section
variable {n : Nat} {s : State} {e q : List Byte}

theorem BlockAt.exists (n : Nat) (s : State) : ∃ e q, BlockAt n s e q := BlockOf.exists (by simp) (by simp)

theorem BlockAt.length (h : BlockAt n s e q) : e.length = n ∧ q.length = n := by
  simpa using BlockOf.length h (by simp) (by simp)

theorem chainIn_eq (n : Nat) (s : State) : chainIn s n = chainWith s.chain (sliceBytes s n) (prevBytes s n) := by
  simp [chainIn, chainWith, List.take_of_length_le]

theorem chainOut_eq (s : State) (y : List Byte) : chainOut s y = chainWith s.chain y (prevBytes s y.length) := by
  simp [chainOut, chainWith, List.take_of_length_le]

theorem blockStep_of_blockAt (h : BlockAt n s e q) :
    blockStep n s = .ok (advanceOffset (setPrev q (emitBytes e s))) := by
  obtain ⟨-, hq⟩ := h.length
  unfold BlockAt at h
  cases hd : s.dir with
  | encrypt =>
    rw [hd] at h
    obtain ⟨y, hy, -, hb⟩ := blockStep_encrypt hd n
    cases h with
    | encrypt hf =>
      rw [chainIn_eq, hf] at hy
      cases hy
      exact hb
  | decrypt =>
    rw [hd] at h
    obtain ⟨y, hy, hlen, hb⟩ := blockStep_decrypt hd n
    cases h with
    | decrypt hi =>
      rw [hi] at hy
      cases hy
      rw [hb, chainOut_eq, hlen]

end

/-! ### The meaning of every command -/

section
variable {i : Instr} {s t : State}

theorem startCheck_none (hc : checksPass s = true) : startCheck s = none := (startCheck_none_iff s).2 hc

theorem exec_of_accepted (h : Accepted s i t) : exec i s = .next t := by
  cases h with
  | nop | srst => rfl
  | keyclr hp | setbs n hp | setfill b hp | ivclr hp => exact if_neg (not_not.2 hp)
  | keyb b hp hroom | ivb b hp hroom => exact (if_neg (not_not.2 hp)).trans (if_neg hroom)
  | kwin o hp hc => simp [exec, execKwin, hp, startCheck_none hc]
  | enc c v hp hc hiv hy => simp [exec, execEnc, hp, startCheck_none hc, hiv, ivSeedStep, hy]
  | encStalls c v hp hc hiv =>
    simp only [exec, execEnc, hp, startCheck_clearFlags, startCheck_none hc, hiv]
    rfl
  | dec c hp hc => simp [exec, execDec, hp, startCheck_none hc]
  | dataBuffers b hp hf => obtain hp | hp := hp <;> simp [exec, execData, hp, hf, bufferByte]
  | dataDrops b hp hf => simp [exec, execData, hp, hf, completeSlice]
  | dataBlock b hp hf hb => simp [exec, execData, hp, hf, completeSlice, blockStep_of_blockAt hb]
  | finEmpty hp hf => exact (if_neg (by simp [hp])).trans ((if_neg (by simp [hp])).trans (if_pos hf))
  | @finTail hp hf e q hb =>
    have hblock := blockStep_of_blockAt (s := { s with phase := .drain }) hb
    simp only [exec, execFin, hp, hf, hblock]
    rfl

theorem accepted_of_errorOf_none (h : errorOf i s = none) : ∃ t, Accepted s i t := by
  obtain ⟨ha, hroom, hc, hfin⟩ := errorOf_none_iff.1 h
  cases i with
  | nop => exact ⟨_, .nop⟩
  | srst => exact ⟨_, .srst⟩
  | keyclr => exact ⟨_, .keyclr (of_decide_eq_true ha)⟩
  | keyb b => exact ⟨_, .keyb b (of_decide_eq_true ha) (of_decide_eq_false hroom)⟩
  | kwin o => exact ⟨_, .kwin o (of_decide_eq_true ha) (hc rfl)⟩
  | setbs n => exact ⟨_, .setbs n (of_decide_eq_true ha)⟩
  | setfill b => exact ⟨_, .setfill b (of_decide_eq_true ha)⟩
  | ivclr => exact ⟨_, .ivclr (of_decide_eq_true ha)⟩
  | ivb b => exact ⟨_, .ivb b (of_decide_eq_true ha) (of_decide_eq_false hroom)⟩
  | enc c v =>
    have hp : s.phase = .idle := of_decide_eq_true ha
    cases hiv : IvPort.canSupply s.ivin (ivDraws v s) with
    | false => exact ⟨_, .encStalls c v hp (hc rfl) hiv⟩
    | true =>
      obtain ⟨y, hy, -⟩ := ivSeedStep_ok v s
      exact ⟨_, .enc c v hp (hc rfl) hiv hy⟩
  | dec c => exact ⟨_, .dec c (of_decide_eq_true ha) (hc rfl)⟩
  | data b =>
    have hp : s.phase = .drop ∨ s.phase = .main := by simpa [allowedIn] using ha
    by_cases hf : s.fill + 1#16 = s.bs
    · obtain hdrop | hmain := hp
      · exact ⟨_, .dataDrops b hdrop hf⟩
      · obtain ⟨e, q, hb⟩ := BlockAt.exists s.bs.toNat (bufferByte b s)
        exact ⟨_, .dataBlock b hmain hf hb⟩
    · exact ⟨_, .dataBuffers b hp hf⟩
  | fin =>
    have hp : s.phase = .drop ∨ s.phase = .main := by simpa [allowedIn] using ha
    have hmain : s.phase = .main := hp.resolve_left fun hdrop => hfin ⟨rfl, hdrop⟩
    by_cases hf : s.fill = 0#16
    · exact ⟨_, .finEmpty hmain hf⟩
    · obtain ⟨e, q, hb⟩ := BlockAt.exists s.fill.toNat s
      exact ⟨_, .finTail hmain hf hb⟩

/-- Every command answers a next state: the one an error leaves, or the one it is accepted with. -/
theorem exec_cases (i : Instr) (s : State) :
    (∃ e, errorOf i s = some e ∧ exec i s = .next (raised e s)) ∨
    (errorOf i s = none ∧ ∃ t, Accepted s i t ∧ exec i s = .next t) := by
  cases he : errorOf i s with
  | some e => exact .inl ⟨e, rfl, exec_of_errorOf he⟩
  | none =>
    obtain ⟨t, ht⟩ := accepted_of_errorOf_none he
    exact .inr ⟨rfl, t, ht, exec_of_accepted ht⟩

theorem exec_next_cases (h : exec i s = .next t) :
    (∃ e, errorOf i s = some e ∧ t = raised e s) ∨ (errorOf i s = none ∧ Accepted s i t) := by
  obtain ⟨e, he, hr⟩ | ⟨hn, t', ha, hr⟩ := exec_cases i s <;> cases hr.symm.trans h
  · exact .inl ⟨e, he, rfl⟩
  · exact .inr ⟨hn, ha⟩

end

/-- Settles O17: what `raised` names is the statement's own state. -/
theorem errorsArePreciseAndOrdered : Obligations.ErrorsArePreciseAndOrdered := by
  unfold Obligations.ErrorsArePreciseAndOrdered
  exact fun _ _ _ => exec_of_errorOf

/-- Settles O18: ERR and DONE are what the error leaves, or what the accepted command does. -/
theorem flagsAfterEveryCommand : Obligations.FlagsAfterEveryCommand := by
  unfold Obligations.FlagsAfterEveryCommand
  intro i s t h
  obtain ⟨e, he, rfl⟩ | ⟨hn, ha⟩ := exec_next_cases h
  · simp [errAfter, doneAfter, he, raised, startError_iff he]
  · cases ha <;> simp [errAfter, doneAfter, hn, clearsFlags]

end Sys2Proof.Machine
end

section
/-! SUPPORT. The rules about every command (10_state.md R31 to R33, 43_chaining_engine.md R134, R135, 20_memory.md R59,
42_segmentation_iv.md R116): each by the cases of what a command does. -/

namespace Sys2Proof.Machine

section
variable {i : Instr} {s t : State} {e : ErrKind}

/-! ### The phase (R135) -/

theorem shortCipher_iff (h : errorOf i s = some e) : e = .shortCipher ↔ i = .fin ∧ s.phase = .drop := by
  unfold errorOf at h
  cases hc : clearsFlags i with
  | false => grind [allowedIn, arrayFull]
  | true =>
    obtain ⟨-, -, hfin⟩ := allowedIn_of_clearsFlags (s := s) hc
    grind

/-- Where a command raises, the table moves no phase but that of FIN in DROP. -/
theorem phaseAfter_of_errorOf (h : errorOf i s = some e) (hfin : ¬ (i = .fin ∧ s.phase = .drop)) :
    phaseAfter i s = s.phase := by
  have hraises : ¬ (allowedIn i s.phase = true ∧ arrayFull i s = false ∧
      (clearsFlags i = true → checksPass s = true)) := fun ⟨ha, hroom, hc⟩ => by
    cases h.symm.trans (errorOf_none_iff.2 ⟨ha, hroom, hc, hfin⟩)
  cases i with
  | nop | srst => exact absurd ⟨rfl, rfl, nofun⟩ hraises
  | keyclr | keyb | kwin | setbs | setfill | ivclr | ivb => rfl
  | enc | dec => exact if_neg fun ⟨hp, hc⟩ => hraises ⟨decide_eq_true hp, rfl, fun _ => hc⟩
  | data => exact if_neg fun ⟨hp, _⟩ => hraises ⟨by simp [allowedIn, hp], rfl, nofun⟩
  | fin => exact if_neg fun hp => hraises ⟨by simpa [allowedIn] using hp, rfl, nofun⟩

theorem raised_phase (h : errorOf i s = some e) : (raised e s).phase = phaseAfter i s := by
  by_cases hfin : i = .fin ∧ s.phase = .drop
  · obtain ⟨rfl, hp⟩ := hfin
    simp [raised, (shortCipher_iff h).2 ⟨rfl, hp⟩, phaseAfter, hp]
  · rw [phaseAfter_of_errorOf h hfin]
    exact if_neg (mt (shortCipher_iff h).1 hfin)

theorem fill_lt_bs (h : s.Inv) (hp : s.phase = .drop ∨ s.phase = .main) : s.fill.toNat < s.bs.toNat := by
  obtain ⟨-, -, -, hfill, -⟩ := h.opened hp
  exact hfill

/-- FILL counts up without wrapping while it is below BS. -/
theorem fill_succ_toNat (h : s.fill.toNat < s.bs.toNat) : (s.fill + 1#16).toNat = s.fill.toNat + 1 := by
  have := s.bs.isLt
  exact BitVec.toNat_add_of_lt (by simp; omega)

/-- DATA completes the slice when its byte is the last one missing (R110). -/
theorem slice_complete_iff (h : s.fill.toNat < s.bs.toNat) :
    s.fill + 1#16 = s.bs ↔ s.fill.toNat + 1 = s.bs.toNat := by
  rw [← BitVec.toNat_inj, fill_succ_toNat h]

theorem accepted_phase (hinv : s.Inv) (h : Accepted s i t) : t.phase = phaseAfter i s := by
  cases h with
  | nop | srst | keyclr | keyb | kwin | setbs | setfill | ivclr | ivb => rfl
  | enc c v hp hc hiv => simp [phaseAfter, ivReady, hp, hc, hiv]
  | encStalls c v hp hc hiv => simp [phaseAfter, ivReady, hp, hc, hiv]
  | dec c hp hc => simp [phaseAfter, hp, hc]
  | dataBuffers b hp hf =>
    rw [Ne, slice_complete_iff (fill_lt_bs hinv hp)] at hf
    simp [phaseAfter, hf]
  | dataDrops b hp hf =>
    rw [slice_complete_iff (fill_lt_bs hinv (.inl hp))] at hf
    simp [phaseAfter, hp, hf]
  | dataBlock b hp => simp [phaseAfter, hp]
  | finEmpty hp | finTail hp => simp [phaseAfter, hp]

/-- Between commands an accepted one ends in a phase that is held, but for an ENC that its source lets down. -/
theorem accepted_phase_held (hs : s.phase ≠ .ivseed) (hd : s.phase ≠ .drain) (hready : ivReady i s = true)
    (h : Accepted s i t) : t.phase ≠ .ivseed ∧ t.phase ≠ .drain := by
  cases h with
  | nop | keyclr | keyb | kwin | setbs | setfill | ivclr | ivb | dataBuffers | dataBlock => exact ⟨hs, hd⟩
  | srst | enc | dec | dataDrops | finEmpty | finTail => exact ⟨nofun, nofun⟩
  | encStalls c v hp hc hiv => cases hready.symm.trans hiv

theorem raised_phase_held (hs : s.phase ≠ .ivseed) (hd : s.phase ≠ .drain) :
    (raised e s).phase ≠ .ivseed ∧ (raised e s).phase ≠ .drain := by
  cases e <;> exact ⟨by simp [raised, hs], by simp [raised, hd]⟩

/-! ### OUT (R33) -/

theorem accepted_out (h : Accepted s i t) (hi : i ≠ .srst) : ∃ new, t.out = s.out ++ new := by
  cases h with
  | srst => exact absurd rfl hi
  | kwin | finTail => exact ⟨_, List.append_assoc ..⟩
  | enc | dataBlock | finEmpty => exact ⟨_, rfl⟩
  | nop | keyclr | keyb | setbs | setfill | ivclr | ivb | encStalls | dec | dataBuffers | dataDrops =>
    exact ⟨[], (List.append_nil _).symm⟩

theorem exec_out (h : exec i s = .next t) (hi : i ≠ .srst) : ∃ new, t.out = s.out ++ new := by
  obtain ⟨e, -, rfl⟩ | ⟨-, ha⟩ := exec_next_cases h
  · exact ⟨[], (List.append_nil _).symm⟩
  · exact accepted_out ha hi

theorem serve_out {a : HostEvent} (h : serve a s = .next t) : (∃ new, t.out = s.out ++ new) ∨ t.out = s.out.tail ∨
    a = .hardReset ∨ a = cmdWrite (encode .srst) := by
  obtain ⟨rfl, -⟩ | ⟨w, i, rfl, hd, hx⟩ | ⟨w, f, -, -, rfl⟩ | ⟨w, rfl⟩ | ⟨k, q, ho, rfl⟩ | rfl := serve_cases h
  · exact .inr (.inr (.inl rfl))
  · by_cases hi : i = .srst
    · exact .inr (.inr (.inr (by rw [← hi, encode_of_decode hd])))
    · exact .inl (exec_out hx hi)
  · exact .inl ⟨[], (List.append_nil _).symm⟩
  · exact .inl ⟨[], (List.append_nil _).symm⟩
  · exact .inr (.inl (congrArg List.tail ho).symm)
  · exact .inl ⟨[], (List.append_nil _).symm⟩

/-! ### The fields no command writes, and the port (R59 d, R116) -/

/-- No command changes the build or the host's own lists. -/
theorem exec_host (h : exec i s = .next t) : t.cfg = s.cfg ∧ t.inbox = s.inbox ∧ t.replies = s.replies := by
  obtain ⟨e, -, rfl⟩ | ⟨-, ha⟩ := exec_next_cases h
  · exact ⟨rfl, rfl, rfl⟩
  · cases ha <;> simp

/-- The port after an ENC that the source lets have its bytes, or lets down. -/
def afterFreshEnc (s : State) : IvPort :=
  { s.ivin with
    offered := s.ivin.offered.drop s.bs.toNat
    taken := s.ivin.taken + if s.ivin.thenFree then s.bs.toNat else min s.bs.toNat s.ivin.offered.length }

theorem afterFreshEnc_supplied (h : IvPort.canSupply s.ivin s.bs.toNat = true) :
    afterFreshEnc s = IvPort.advance s.ivin s.bs.toNat := by
  have htaken : (if s.ivin.thenFree then s.bs.toNat else min s.bs.toNat s.ivin.offered.length) = s.bs.toNat := by
    split
    · rfl
    · simp_all [IvPort.canSupply]
  simp only [afterFreshEnc, htaken, IvPort.advance]

theorem afterFreshEnc_short (h : IvPort.canSupply s.ivin s.bs.toNat = false) :
    afterFreshEnc s = IvPort.advance s.ivin s.ivin.offered.length := by
  simp only [IvPort.canSupply, Bool.or_eq_false_iff, decide_eq_false_iff_not, Nat.not_le] at h
  obtain ⟨hfree, hlt⟩ := h
  simp [afterFreshEnc, IvPort.advance, hfree, hlt.le]

/-- Only a fresh IV can be short of bytes, and only if the source never goes on (U15). -/
theorem stall_source {v : Bool} (h : IvPort.canSupply s.ivin (ivDraws v s) = false) :
    v = false ∧ s.ivin.thenFree = false := by
  cases v with
  | false => exact ⟨rfl, by simp_all [IvPort.canSupply]⟩
  | true => simp [IvPort.canSupply, ivDraws] at h

theorem accepted_ivin (h : Accepted s i t) (hi : ∀ c, i ≠ .enc c false) : t.ivin = s.ivin := by
  cases h with
  | enc c v hp hc hiv =>
    cases v with
    | false => exact absurd rfl (hi c)
    | true => rfl
  | encStalls c v hp hc hiv =>
    obtain ⟨rfl, -⟩ := stall_source hiv
    exact absurd rfl (hi c)
  | nop | srst | keyclr | keyb | kwin | setbs | setfill | ivclr | ivb | dec | dataBuffers | dataDrops | dataBlock
  | finEmpty | finTail => simp

theorem accepted_enc {c v : Bool} (h : Accepted s (.enc c v) t) : s.phase = .idle ∧ checksPass s = true := by
  cases h with
  | enc _ _ hp hc | encStalls _ _ hp hc => exact ⟨hp, hc⟩

theorem accepted_fresh_ivin {c : Bool} (h : Accepted s (.enc c false) t) : t.ivin = afterFreshEnc s := by
  cases h with
  | enc _ _ hp hc hiv => exact (afterFreshEnc_supplied hiv).symm
  | encStalls _ _ hp hc hiv => exact (afterFreshEnc_short hiv).symm

end

/-- Settles O19: the table's row of a command that raises, and of one accepted. -/
theorem phaseTransitionsFollowTheTable : Obligations.PhaseTransitionsFollowTheTable := by
  unfold Obligations.PhaseTransitionsFollowTheTable
  intro i s t hinv h
  obtain ⟨e, he, rfl⟩ | ⟨-, ha⟩ := exec_next_cases h
  · exact raised_phase he
  · exact accepted_phase hinv ha

/-- Settles O20: the fields are written by SRST and by commands accepted in IDLE only. -/
theorem keyAndSelectorFixedDuringAnOperation : Obligations.KeyAndSelectorFixedDuringAnOperation := by
  unfold Obligations.KeyAndSelectorFixedDuringAnOperation
  intro i s t hp hi h
  obtain ⟨e, -, rfl⟩ | ⟨-, ha⟩ := exec_next_cases h
  · exact ⟨rfl, rfl, rfl, rfl, rfl, rfl, rfl, rfl, rfl⟩
  · cases ha with
    | srst => exact absurd rfl hi
    | nop | dataBuffers | dataDrops | dataBlock | finEmpty | finTail => simp
    | keyclr hidle | keyb _ hidle | kwin _ hidle | setbs _ hidle | setfill _ hidle | ivclr hidle | ivb _ hidle
    | enc _ _ hidle | encStalls _ _ hidle | dec _ hidle => exact absurd hidle hp

/-- Settles O21: a command appends to OUT, a read of OUT pops its head, and only a reset empties it. -/
theorem outOnlyGrowsAtItsTail : Obligations.OutOnlyGrowsAtItsTail := by
  unfold Obligations.OutOnlyGrowsAtItsTail
  refine ⟨fun i s t hi h => exec_out h hi, fun s t h => ?step⟩
  obtain ⟨-, -, rfl⟩ | ⟨a, rest, hin, -, ha⟩ | ⟨hst, rest, hr, rfl⟩ := step_cases h
  · exact .inl ⟨[], (List.append_nil _).symm⟩
  · obtain hnew | htail | rfl | rfl := serve_out ha
    · exact .inl hnew
    · exact .inr (.inl htail)
    · exact .inr (.inr (.inl ⟨rest, hin⟩))
    · exact .inr (.inr (.inr (.inr ⟨rest, hin⟩)))
  · obtain ⟨pre, post, hin, -, -⟩ := withoutReset_some hr
    exact .inr (.inr (.inr (.inl ⟨of_decide_eq_true hst, by simp [hin]⟩)))

/-- Settles O22: ENC with a fresh IV is the only arm that takes from the port, up to BS of the bytes it offers. -/
theorem onlyFreshEncTakesIvBytes : Obligations.OnlyFreshEncTakesIvBytes := by
  unfold Obligations.OnlyFreshEncTakesIvBytes
  intro i s t h
  obtain ⟨hcfg, hinbox, hreplies⟩ := exec_host h
  refine ⟨hcfg, hinbox, hreplies, ?port⟩
  obtain ⟨e, he, rfl⟩ | ⟨hn, ha⟩ := exec_next_cases h
  · refine (if_neg ?_).symm
    rintro ⟨⟨c, rfl⟩, hp, hc⟩
    cases he.symm.trans (errorOf_none_iff.2 ⟨decide_eq_true hp, rfl, fun _ => hc, nofun⟩)
  · split
    case isTrue hfresh =>
      obtain ⟨⟨c, rfl⟩, -⟩ := hfresh
      exact accepted_fresh_ivin ha
    case isFalse hother =>
      refine accepted_ivin ha ?_
      rintro c rfl
      exact hother ⟨⟨c, rfl⟩, accepted_enc ha⟩

end Sys2Proof.Machine
end

section
/-! SUPPORT. Completion, the stall inside ENC and reset (70_reset_and_hazards.md R179, R180, R190; 10_state.md R43):
the statements about them settled. -/

namespace Sys2Proof.Machine

/-! ### The stall (R190) -/

section
variable {s : State} {rest : List HostEvent}

/-- The oldest reset behind command words. -/
theorem withoutReset_words (ws : List Word) (post : List HostEvent) :
    withoutReset (ws.map cmdWrite ++ .hardReset :: post) = some (ws.map cmdWrite ++ post) := by
  induction ws with
  | nil => rfl
  | cons w ws ih => simp [cmdWrite, withoutReset, ih]

theorem blocked_of_cmdWrite {w : Word} (hp : s.phase = .ivseed) (h : s.inbox = cmdWrite w :: rest) :
    blocked s = true := by
  simp [blocked_cons h, stalled, hp, cmdWrite, isCommandWord]

theorem blocked_of_nothing (hp : s.phase = .ivseed) (h : s.inbox = []) : blocked s = true := by
  simp [blocked, stalled, hp, h]

theorem awaitReset_stuck (h : .hardReset ∉ s.inbox) : awaitReset s = .fault .ivSourceSilent := by
  simp [awaitReset, (withoutReset_none_iff _).2 h]

theorem step_hardReset (h : s.inbox = .hardReset :: rest) : step s = .next (resetState { s with inbox := rest }) :=
  step_serve h (.inr rfl)

/-- An access served in a stall leaves the phase, unless it is the reset or a command word. -/
theorem serve_phase {t : State} {a : HostEvent} (h : serve a s = .next t) (hw : isCommandWord a = false)
    (hr : a ≠ .hardReset) : t.phase = s.phase := by
  obtain ⟨ha, -⟩ | ⟨w, i, rfl, -⟩ | ⟨w, f, rfl, -⟩ | ⟨w, rfl⟩ | ⟨k, q, -, rfl⟩ | rfl := serve_cases h
  · exact absurd ha hr
  · cases hw
  · cases hw
  · rfl
  · rfl
  · rfl

end

/-- Settles O15: nothing refuses to answer, and the answer is in a held phase; the stall is one arm of ENC. -/
theorem commandsCompleteUnlessTheIvSourceIsSilent : Obligations.CommandsCompleteUnlessTheIvSourceIsSilent := by
  unfold Obligations.CommandsCompleteUnlessTheIvSourceIsSilent
  refine ⟨fun i s hs hd hready => ?completes, fun c s hp hc hfree hlt => ?stalls⟩
  case completes =>
    obtain ⟨e, -, hx⟩ | ⟨-, t, ha, hx⟩ := exec_cases i s
    · exact ⟨_, hx, raised_phase_held hs hd⟩
    · exact ⟨t, hx, accepted_phase_held hs hd hready ha⟩
  case stalls =>
    have hiv : IvPort.canSupply s.ivin (ivDraws false s) = false := by
      simp [IvPort.canSupply, ivDraws, hfree, hlt]
    have hport : IvPort.advance s.ivin s.ivin.offered.length =
        { s.ivin with offered := [], taken := s.ivin.taken + s.ivin.offered.length } := by
      simp [IvPort.advance]
    rw [exec_of_accepted (.encStalls c false hp hc hiv), hport]
    rfl

/-- Settles O16: a command word is blocked, a reset is not, and no other access moves the phase. -/
theorem onlyHardwareResetEndsTheIvStall : Obligations.OnlyHardwareResetEndsTheIvStall := by
  unfold Obligations.OnlyHardwareResetEndsTheIvStall
  refine ⟨fun s ws post hp hin => ?reset, fun s w rest hp hin hno => ?stuck, fun s hp hin => ?idle,
    fun s t hp h ht => ?leaves⟩
  case reset =>
    cases ws with
    | nil => exact step_hardReset hin
    | cons w ws =>
      have hr : withoutReset s.inbox = _ := hin ▸ withoutReset_words (w :: ws) post
      rw [step_blocked (blocked_of_cmdWrite hp hin), awaitReset, hr]
      rfl
  case stuck =>
    rw [step_blocked (blocked_of_cmdWrite hp hin), awaitReset_stuck (by simp [hin, hno])]
  case idle =>
    rw [step_blocked (blocked_of_nothing hp hin), awaitReset_stuck (by simp [hin])]
  case leaves =>
    have hst : stalled s = true := decide_eq_true hp
    obtain ⟨hn, -⟩ | ⟨a, rest, hin, hw, ha⟩ | ⟨-, rest, hr, rfl⟩ := step_cases h
    · cases hst.symm.trans hn
    · have hw := hw.resolve_left (by simp [hst])
      by_cases hreset : a = .hardReset
      · subst hreset
        exact ⟨[], rest, hin, by simp, ha⟩
      · exact absurd ((serve_phase ha hw hreset).trans hp) ht
    · obtain ⟨pre, post, hin, hpre, rfl⟩ := withoutReset_some hr
      exact ⟨pre, post, hin, hpre, rfl⟩

/-- Settles O9: the table's values are those of `resetState`, and a pending reset is served in every phase. -/
theorem srstAndHardResetRestoreTheResetTable : Obligations.SrstAndHardResetRestoreTheResetTable := by
  unfold Obligations.SrstAndHardResetRestoreTheResetTable
  intro s
  exact ⟨resetState s, rfl, fun _ => step_hardReset, rfl, rfl, rfl, Memory.read_nil, rfl, rfl, rfl, rfl, rfl, rfl,
    rfl, rfl, rfl, rfl, rfl, rfl, rfl, rfl⟩

end Sys2Proof.Machine
end

section
/-! SUPPORT. The invariant (10_state.md R16 to R32): the reset states have it, every command and every access keeps
it; the statements about it settled. -/

namespace Sys2Proof.Machine

/-! ### Reset -/

/-- The block size after reset is within every legal BS_MAX or is not used; nothing else is loaded. -/
theorem resetOf_inv {c : Config} (hc : c.legal = true) : (State.resetOf c).Inv where
  cfg_legal := hc
  key_wf := rfl
  key_below := rfl
  klen_le := Nat.zero_le _
  ivfix_wf := rfl
  ivfix_below := rfl
  ivlen_le := Nat.zero_le _
  buf_wf := rfl
  buf_below := rfl
  prev_wf := rfl
  prev_below := rfl
  phase_held := nofun
  stalled_enc := nofun
  fill_idle _ := rfl
  opened := nofun
  dropping := nofun
  err_reachable := nofun

section
variable {s t : State}

theorem resetState_inv (h : s.cfg.legal = true) : (resetState s).Inv :=
  { resetOf_inv h with stalled_enc := nofun }

/-! ### The offset (R29) -/

/-- A residue modulo TLEN of a multiple of BS is what OFF may hold. -/
theorem offset_legal (h : s.Inv) (hc : checksPass s = true) {o : Nat} (ho : s.bs.toNat ∣ o) :
    (BitVec.ofNat 24 (o % tlen s)).toNat < tlen s ∧ s.bs.toNat ∣ (BitVec.ofNat 24 (o % tlen s)).toNat := by
  obtain ⟨hpos, -⟩ := tlen_bounds h hc
  rw [off_toNat h hc]
  exact ⟨Nat.mod_lt _ hpos, (Nat.dvd_mod_iff (Nat.dvd_mul_left ..)).2 ho⟩

/-- A block that fits BS fits PREV. -/
theorem prev_below_of_length (h : s.Inv) (hc : checksPass s = true) {l : List Byte} (hl : l.length ≤ s.bs.toNat) :
    Memory.below (Memory.writeRun s.prev 0 l) s.cfg.bsMax = true := by
  obtain ⟨-, hbs, -⟩ := (checksPass_iff s).1 hc
  exact Memory.below_writeRun h.prev_below (by omega)

/-! ### Commands -/

theorem encBlock_length {v : Bool} {y : List Byte}
    (hy : forward s.cfg.xform (seedBlock v s) (window s 0 s.bs.toNat) = .ok y) : y.length = s.bs.toNat := by
  obtain ⟨y', hy', hlen, -⟩ := ivSeedStep_ok v s
  cases hy'.symm.trans hy
  exact hlen

theorem errorOf_ne_mismatch {i : Instr} {e : ErrKind} (h : errorOf i s = some e) : e ≠ .blockLengthMismatch := by
  unfold errorOf at h
  grind

theorem raised_inv {e : ErrKind} (h : s.Inv) (he : e ≠ .blockLengthMismatch) : (raised e s).Inv := by
  have herr : some e ≠ some ErrKind.blockLengthMismatch := by simpa using he
  cases e with
  | blockLengthMismatch => exact absurd rfl he
  | illegalCommand => exact { h with err_reachable := herr }
  | shortCipher =>
    exact { h with
      phase_held := nofun, stalled_enc := nofun, fill_idle := fun _ => rfl, opened := nofun, dropping := nofun
      err_reachable := herr }
  | invalidKey | invalidBlockSize =>
    exact { h with
      stalled_enc := fun hp => by
        obtain ⟨hdir, hsel, hfill, -, hrest⟩ := h.stalled_enc hp
        exact ⟨hdir, hsel, hfill, rfl, hrest⟩
      opened := fun hp => by
        obtain ⟨h1, h2, h3, h4, h5, h6, -⟩ := h.opened hp
        exact ⟨h1, h2, h3, h4, h5, h6, rfl⟩
      err_reachable := herr }

theorem accepted_inv {i : Instr} (h : s.Inv) (ha : Accepted s i t) : t.Inv := by
  cases ha with
  | nop => exact h
  | srst => exact resetState_inv h.cfg_legal
  | keyclr hp =>
    exact { h with klen_le := Nat.zero_le _, stalled_enc := by simp [hp], opened := by simp [hp] }
  | keyb b hp hroom =>
    have hlt := lt_of_le_of_ne h.klen_le hroom
    exact { h with
      key_wf := Memory.wf_write h.key_wf _ b
      key_below := Memory.below_write h.key_below hlt b
      klen_le := (klen_succ_toNat h hlt).trans_le hlt
      stalled_enc := by simp [hp]
      opened := by simp [hp] }
  | kwin o hp =>
    exact { h with stalled_enc := by simp [hp], opened := by simp [hp], err_reachable := nofun }
  | setbs n hp => exact { h with stalled_enc := by simp [hp], opened := by simp [hp] }
  | setfill b hp => exact { h with }
  | ivclr hp => exact { h with ivfix_wf := rfl, ivfix_below := rfl, ivlen_le := Nat.zero_le _ }
  | ivb b hp hroom =>
    have hlt := lt_of_le_of_ne h.ivlen_le hroom
    have hlen := ivlen_succ_toNat h hlt
    have hbelow : Memory.below (Memory.write s.ivfix s.ivlen.toNat b) (s.ivlen + 1#16).toNat = true := by
      rw [hlen]
      exact Memory.below_write (Memory.below_mono h.ivfix_below (Nat.le_succ _)) (Nat.lt_succ_self _) b
    exact { h with
      ivfix_wf := Memory.wf_write h.ivfix_wf _ b
      ivfix_below := hbelow
      ivlen_le := hlen.trans_le hlt }
  | enc c v hp hc hiv hy =>
    have hlen := encBlock_length hy
    obtain ⟨hb, hmax, hk⟩ := (checksPass_iff s).1 hc
    obtain ⟨hoff, hdvd⟩ := offset_legal h hc (dvd_refl s.bs.toNat)
    exact { h with
      prev_wf := Memory.wf_writeRun h.prev_wf 0 _
      prev_below := prev_below_of_length h hc hlen.le
      phase_held := nofun
      stalled_enc := nofun
      fill_idle := nofun
      opened := fun _ => ⟨hb, hmax, hk, hb, hoff, hdvd, rfl⟩
      dropping := nofun
      err_reachable := nofun }
  | encStalls c v hp hc hiv =>
    obtain ⟨rfl, hfree⟩ := stall_source hiv
    exact { h with
      phase_held := nofun
      stalled_enc := fun _ => ⟨rfl, rfl, rfl, rfl, hc, List.drop_length, hfree⟩
      fill_idle := nofun
      opened := nofun
      dropping := nofun
      err_reachable := nofun }
  | dec c hp hc =>
    obtain ⟨hb, hmax, hk⟩ := (checksPass_iff s).1 hc
    obtain ⟨hpos, -⟩ := tlen_bounds h hc
    exact { h with
      phase_held := nofun
      stalled_enc := nofun
      fill_idle := nofun
      opened := fun _ => ⟨hb, hmax, hk, hb, hpos, dvd_zero _, rfl⟩
      dropping := fun _ => ⟨rfl, rfl⟩
      err_reachable := nofun }
  | dataBuffers b hp hf =>
    obtain ⟨hb, hmax, hk, hfill, hoff, hdvd, hdone⟩ := h.opened hp
    have hroom : (s.fill + 1#16).toNat < s.bs.toNat := by
      rw [Ne, slice_complete_iff hfill] at hf
      rw [fill_succ_toNat hfill]
      omega
    exact { h with
      buf_wf := Memory.wf_write h.buf_wf _ b
      buf_below := Memory.below_write h.buf_below (by omega) b
      stalled_enc := fun hs => by simp_all
      fill_idle := fun hs => by simp_all
      opened := fun _ => ⟨hb, hmax, hk, hroom, hoff, hdvd, hdone⟩ }
  | dataDrops b hp hf =>
    obtain ⟨hb, hmax, hk, hfill, -, -, hdone⟩ := h.opened (.inl hp)
    have hc := (checksPass_iff s).2 ⟨hb, hmax, hk⟩
    obtain ⟨hoff, hdvd⟩ := offset_legal h hc (dvd_refl s.bs.toNat)
    exact { h with
      buf_wf := Memory.wf_write h.buf_wf _ b
      buf_below := Memory.below_write h.buf_below (by omega) b
      prev_wf := Memory.wf_writeRun h.prev_wf 0 _
      prev_below := prev_below_of_length h hc (by simp)
      phase_held := nofun
      stalled_enc := nofun
      fill_idle := nofun
      opened := fun _ => ⟨hb, hmax, hk, hb, hoff, hdvd, hdone⟩
      dropping := nofun }
  | dataBlock b hp hf hq =>
    obtain ⟨hb, hmax, hk, hfill, -, hdvd, hdone⟩ := h.opened (.inr hp)
    have hc := (checksPass_iff s).2 ⟨hb, hmax, hk⟩
    obtain ⟨hoff, hdvd⟩ := offset_legal h hc (Nat.dvd_add hdvd (dvd_refl s.bs.toNat))
    obtain ⟨-, hlen⟩ := hq.length
    exact { h with
      buf_wf := Memory.wf_write h.buf_wf _ b
      buf_below := Memory.below_write h.buf_below (by omega) b
      prev_wf := Memory.wf_writeRun h.prev_wf 0 _
      prev_below := prev_below_of_length h hc hlen.le
      stalled_enc := fun hs => by simp [hp] at hs
      fill_idle := fun _ => rfl
      opened := fun _ => ⟨hb, hmax, hk, hb, hoff, hdvd, hdone⟩
      dropping := fun hs => by simp [hp] at hs }
  | finEmpty hp hf =>
    exact { h with
      phase_held := nofun
      stalled_enc := nofun
      fill_idle := fun _ => hf
      opened := nofun
      dropping := nofun }
  | finTail hp hf hq =>
    obtain ⟨hb, hmax, hk, hfill, -⟩ := h.opened (.inr hp)
    obtain ⟨-, hlen⟩ := hq.length
    exact { h with
      prev_wf := Memory.wf_writeRun h.prev_wf 0 _
      prev_below := prev_below_of_length h ((checksPass_iff s).2 ⟨hb, hmax, hk⟩) (by omega)
      phase_held := nofun
      stalled_enc := nofun
      fill_idle := fun _ => rfl
      opened := nofun
      dropping := nofun }

theorem exec_inv {i : Instr} (h : s.Inv) (hx : exec i s = .next t) : t.Inv := by
  obtain ⟨e, he, rfl⟩ | ⟨-, ha⟩ := exec_next_cases hx
  · exact raised_inv h (errorOf_ne_mismatch he)
  · exact accepted_inv h ha

theorem serve_inv {a : HostEvent} (h : s.Inv) (ha : serve a s = .next t) : t.Inv := by
  obtain ⟨-, rfl⟩ | ⟨w, i, -, -, hx⟩ | ⟨w, f, -, -, rfl⟩ | ⟨w, rfl⟩ | ⟨k, q, -, rfl⟩ | rfl := serve_cases ha
  · exact resetState_inv h.cfg_legal
  · exact exec_inv h hx
  · exact raised_inv (e := .illegalCommand) h nofun
  · exact { h with }
  · exact { h with }
  · exact h

theorem step_inv (h : s.Inv) (hs : step s = .next t) : t.Inv := by
  obtain ⟨-, -, rfl⟩ | ⟨a, rest, -, -, ha⟩ | ⟨-, rest, -, rfl⟩ := step_cases hs
  · exact h
  · exact serve_inv (s := { s with inbox := rest }) { h with } ha
  · exact resetState_inv (s := { s with inbox := rest }) h.cfg_legal

end

/-- Settles O23: a step serves at most one access, an access runs at most one command, and each of the two keeps the
invariant. -/
theorem stepKeepsTheInvariant : Obligations.StepKeepsTheInvariant := by
  unfold Obligations.StepKeepsTheInvariant
  exact fun _ _ => step_inv

/-- Settles O24: the reference build is a legal one. -/
theorem resetStatesAreLegal : Obligations.ResetStatesAreLegal := by
  unfold Obligations.ResetStatesAreLegal
  exact ⟨resetOf_inv (by decide), fun _ => resetOf_inv⟩

end Sys2Proof.Machine
end

section
/-! SUPPORT. KWIN and the commands that begin, feed and close an operation (40_key_material.md R86, R90,
43_chaining_engine.md R123 to R131, 42_segmentation_iv.md R110, R111): the bytes of their operands and results, and the
statements about them settled. -/

namespace Sys2Proof.Machine

/-! ### The bytes of the operands -/

section
variable {s : State} {n j : Nat}

theorem window_getD (s : State) (o : Nat) (hj : j < n) :
    (window s o n).getD j 0 = Memory.read s.key ((o + j) % s.klen.toNat) := by
  rw [List.getD_eq_getElem _ _ (by simpa using hj), window_getElem]

theorem readRun_getD (m : Memory) (hj : j < n) : (Memory.readRun m n).getD j 0 = Memory.read m j := by
  rw [List.getD_eq_getElem _ _ (by simpa using hj), Memory.readRun_getElem]

theorem chainIn_getD (s : State) (hj : j < n) :
    (chainIn s n).getD j 0 = Memory.read s.buf j ^^^ (if s.chain then Memory.read s.prev j else 0) := by
  rw [List.getD_eq_getElem _ _ (by simpa using hj), chainIn_getElem]
  rfl

theorem chainOut_getD (s : State) {y : List Byte} (hj : j < y.length) :
    (chainOut s y).getD j 0 = y.getD j 0 ^^^ (if s.chain then Memory.read s.prev j else 0) := by
  rw [List.getD_eq_getElem _ _ (by simpa using hj), chainOut_getElem, List.getD_eq_getElem _ _ hj]
  rfl

theorem seedBlock_getD (v : Bool) (s : State) (hj : j < s.bs.toNat) : (seedBlock v s).getD j 0 =
    s.filler ^^^ (if v then Memory.read s.ivfix j else IvPort.byteAt s.ivin j) := by
  rw [List.getD_eq_getElem _ _ (by simpa using hj), seedBlock_getElem]

/-- A block put into a canonical array is read back, and what lies above it stays. -/
theorem read_block {m : Memory} (hm : Memory.wf m = true) {l : List Byte} (hl : l.length = n) :
    (∀ j, j < n → Memory.read (Memory.writeRun m 0 l) j = l.getD j 0) ∧
    (∀ j, n ≤ j → Memory.read (Memory.writeRun m 0 l) j = Memory.read m j) := by
  subst hl
  refine ⟨fun j hj => ?_, fun j hj => Memory.read_writeRun_outside m 0 l (by omega)⟩
  have := Memory.read_writeRun_inside hm 0 l hj
  rw [Nat.zero_add] at this
  rw [this, List.getD_eq_getElem _ _ hj]

/-- BUF after one more byte. -/
theorem read_buffered (h : s.Inv) (b : Byte) : Memory.read (Memory.write s.buf s.fill.toNat b) s.fill.toNat = b ∧
    ∀ j, j ≠ s.fill.toNat → Memory.read (Memory.write s.buf s.fill.toNat b) j = Memory.read s.buf j :=
  ⟨Memory.read_write_same h.buf_wf _ b, fun _ hj => Memory.read_write_other hj.symm s.buf b⟩

theorem read_buffered_eq (h : s.Inv) (b : Byte) (j : Nat) : Memory.read (Memory.write s.buf s.fill.toNat b) j =
    if j = s.fill.toNat then b else Memory.read s.buf j := by
  simp only [Memory.read_write h.buf_wf, eq_comm]

/-! ### The two arms of a block step, byte by byte -/

variable {e q : List Byte}

theorem blockAt_encrypt (hd : s.dir = .encrypt) (h : BlockAt n s e q) :
    forward s.cfg.xform (chainIn s n) (window s s.off.toNat n) = .ok e ∧ q = e := by
  rw [BlockAt, hd] at h
  cases h with
  | encrypt hf => exact ⟨chainIn_eq n s ▸ hf, rfl⟩

theorem blockAt_decrypt (hd : s.dir = .decrypt) (h : BlockAt n s e q) : ∃ y,
    inverse s.cfg.xform (sliceBytes s n) (window s s.off.toNat n) = .ok y ∧ y.length = n ∧ e = chainOut s y ∧
    q = sliceBytes s n := by
  obtain ⟨hlen, -⟩ := h.length
  rw [BlockAt, hd] at h
  cases h with
  | @decrypt y hi =>
    obtain ⟨y', hy', hy'len, -⟩ := blockStep_decrypt hd n
    cases hy'.symm.trans hi
    exact ⟨y, hi, hy'len, by rw [chainOut_eq, hy'len], rfl⟩

end

/-! ### Opening and closing -/

/-- Settles O44: the window is given byte by byte, and a byte by its place modulo KLEN. -/
theorem windowCyclesTheRawKey : Obligations.WindowCyclesTheRawKey := by
  unfold Obligations.WindowCyclesTheRawKey
  exact fun s o n _ => ⟨window_length s o n, fun _ => window_getD s o, fun _ h => window_eq_of_mod_eq h n⟩

/-- Settles O47: operands of equal length always have an answer. -/
theorem inverseUndoesForward : Obligations.InverseUndoesForward := by
  unfold Obligations.InverseUndoesForward
  intro x d k h
  obtain ⟨y, hy, hlen, -⟩ := inverse_ok x h
  exact ⟨forward_ok x h, y, hy, hlen⟩

/-- Settles O31: the bytes emitted are the window's. -/
theorem kwinEmitsTheKeyWindow : Obligations.KwinEmitsTheKeyWindow := by
  unfold Obligations.KwinEmitsTheKeyWindow
  intro s off hp hc
  exact ⟨window s off.toNat s.bs.toNat, window_length .., fun _ => window_getD s off.toNat,
    exec_of_accepted (.kwin off hp hc)⟩

/-- A fixed IV asks the source for nothing (R116). -/
theorem canSupply_of {s : State} {v : Bool} (h : v = true ∨ IvPort.canSupply s.ivin s.bs.toNat = true) :
    IvPort.canSupply s.ivin (ivDraws v s) = true := by
  cases v with
  | false => exact h.resolve_left nofun
  | true => simp [IvPort.canSupply, ivDraws]

/-- Settles O35: with a fixed IV the source is asked for nothing; the block emitted is the one PREV takes. -/
theorem encSeedsTheChain : Obligations.EncSeedsTheChain := by
  unfold Obligations.EncSeedsTheChain
  intro s c v h hp hc hiv
  obtain ⟨y, hy, hlen, -⟩ := ivSeedStep_ok v s
  obtain ⟨hin, hout⟩ := read_block h.prev_wf hlen
  exact ⟨_, seedBlock v s, window s 0 s.bs.toNat, y, exec_of_accepted (.enc c v hp hc (canSupply_of hiv) hy),
    seedBlock_length v s, fun _ => seedBlock_getD v s, window_length ..,
    fun j hj => by rw [window_getD s 0 hj, Nat.zero_add], hy, hlen, hin, hout, off_toNat h hc _, rfl⟩

/-- Settles O36: the accepted DEC. -/
theorem decOpensTheDropPhase : Obligations.DecOpensTheDropPhase := by
  unfold Obligations.DecOpensTheDropPhase
  exact fun s c hp hc => exec_of_accepted (.dec c hp hc)

/-- Settles O41: the accepted FIN of an empty slice. -/
theorem finWithoutTailEmitsEnd : Obligations.FinWithoutTailEmitsEnd := by
  unfold Obligations.FinWithoutTailEmitsEnd
  exact fun s hp hf => exec_of_accepted (.finEmpty hp hf)

/-! ### DATA -/

/-- Settles O37: FILL + 1 below BS is not BS, and does not wrap. -/
theorem dataBuffersOneByte : Obligations.DataBuffersOneByte := by
  unfold Obligations.DataBuffersOneByte
  intro s b h hp hlt
  have hfill := fill_lt_bs h hp
  have hf : s.fill + 1#16 ≠ s.bs := mt (slice_complete_iff hfill).1 hlt.ne
  obtain ⟨hsame, hother⟩ := read_buffered h b
  exact ⟨_, exec_of_accepted (.dataBuffers b hp hf), hsame, hother, fill_succ_toNat hfill, rfl⟩

/-- Settles O38: the dropped block is the buffer with the last byte in it. -/
theorem dataEndsTheDropPhase : Obligations.DataEndsTheDropPhase := by
  unfold Obligations.DataEndsTheDropPhase
  intro s b h hp hlast
  have hf := (slice_complete_iff (fill_lt_bs h (.inl hp))).2 hlast
  have hc := inv_checksPass h (by simp [hp])
  obtain ⟨hsame, hother⟩ := read_buffered h b
  obtain ⟨hin, hout⟩ := read_block h.prev_wf (sliceBytes_length (bufferByte b s) s.bs.toNat)
  refine ⟨_, exec_of_accepted (.dataDrops b hp hf), fun j hj => ?_, hout, hsame, hother, off_toNat h hc _, rfl⟩
  rw [hin j hj, sliceBytes, readRun_getD _ hj]
  exact read_buffered_eq h b j

/-- Settles O39: the block step of an encryption on the buffer with the last byte in it. -/
theorem dataEncryptsAFullSlice : Obligations.DataEncryptsAFullSlice := by
  unfold Obligations.DataEncryptsAFullSlice
  intro s b h hp hd hlast
  have hf := (slice_complete_iff (fill_lt_bs h (.inr hp))).2 hlast
  have hc := inv_checksPass h (by simp [hp])
  obtain ⟨e, q, hb⟩ := BlockAt.exists s.bs.toNat (bufferByte b s)
  obtain ⟨hfw, rfl⟩ := blockAt_encrypt (s := bufferByte b s) hd hb
  obtain ⟨hlen, -⟩ := hb.length
  obtain ⟨hsame, hother⟩ := read_buffered h b
  obtain ⟨hin, hout⟩ := read_block h.prev_wf hlen
  refine ⟨_, _, _, _, exec_of_accepted (.dataBlock b hp hf hb), chainIn_length .., fun j hj => ?_, window_length ..,
    fun _ => window_getD _ _, hfw, hlen, hin, hout, hsame, hother, off_toNat h hc _, rfl⟩
  rw [chainIn_getD _ hj, ← read_buffered_eq h b j]
  rfl

/-- Settles O40: the block step of a decryption on the buffer with the last byte in it. -/
theorem dataDecryptsAFullSlice : Obligations.DataDecryptsAFullSlice := by
  unfold Obligations.DataDecryptsAFullSlice
  intro s b h hp hd hlast
  have hf := (slice_complete_iff (fill_lt_bs h (.inr hp))).2 hlast
  have hc := inv_checksPass h (by simp [hp])
  obtain ⟨e, q, hb⟩ := BlockAt.exists s.bs.toNat (bufferByte b s)
  obtain ⟨y, hiv, hylen, rfl, rfl⟩ := blockAt_decrypt (s := bufferByte b s) hd hb
  obtain ⟨hlen, hqlen⟩ := hb.length
  obtain ⟨hsame, hother⟩ := read_buffered h b
  obtain ⟨hin, hout⟩ := read_block h.prev_wf hqlen
  refine ⟨_, _, _, y, _, exec_of_accepted (.dataBlock b hp hf hb), hqlen, fun j hj => ?_, window_length ..,
    fun _ => window_getD _ _, hiv, hlen, fun j hj => chainOut_getD _ (hj.trans_eq hylen.symm), hin, hout, hsame, hother,
    off_toNat h hc _, rfl⟩
  rw [sliceBytes, readRun_getD _ hj]
  exact read_buffered_eq h b j

/-! ### FIN -/

theorem fill_ne_zero {s : State} (h : 0 < s.fill.toNat) : s.fill ≠ 0#16 := fun h0 => by simp [h0] at h

/-- Settles O42: the block step of an encryption on the FILL bytes buffered. -/
theorem finEncryptsTheTail : Obligations.FinEncryptsTheTail := by
  unfold Obligations.FinEncryptsTheTail
  intro s h hp hd hpos
  have hc := inv_checksPass h (by simp [hp])
  obtain ⟨e, q, hb⟩ := BlockAt.exists s.fill.toNat s
  obtain ⟨hfw, rfl⟩ := blockAt_encrypt hd hb
  obtain ⟨hlen, -⟩ := hb.length
  obtain ⟨hin, hout⟩ := read_block h.prev_wf hlen
  exact ⟨_, _, _, _, exec_of_accepted (.finTail hp (fill_ne_zero hpos) hb), chainIn_length .., fun _ => chainIn_getD s,
    window_length .., fun _ => window_getD _ _, hfw, hlen, hin, hout, off_toNat h hc _, rfl⟩

/-- Settles O43: the block step of a decryption on the FILL bytes buffered. -/
theorem finDecryptsTheTail : Obligations.FinDecryptsTheTail := by
  unfold Obligations.FinDecryptsTheTail
  intro s h hp hd hpos
  have hc := inv_checksPass h (by simp [hp])
  obtain ⟨e, q, hb⟩ := BlockAt.exists s.fill.toNat s
  obtain ⟨y, hiv, hylen, rfl, rfl⟩ := blockAt_decrypt hd hb
  obtain ⟨hlen, hqlen⟩ := hb.length
  obtain ⟨hin, hout⟩ := read_block h.prev_wf hqlen
  exact ⟨_, _, _, y, _, exec_of_accepted (.finTail hp (fill_ne_zero hpos) hb), hqlen, fun _ => readRun_getD _,
    window_length .., fun _ => window_getD _ _, hiv, hlen, fun j hj => chainOut_getD s (hj.trans_eq hylen.symm), hin,
    hout, off_toNat h hc _, rfl⟩

end Sys2Proof.Machine
end

section
/-! SUPPORT. What is not observed (93_implementation_defined.md U7 to U9): states that a host cannot tell apart stay so
under every command, every access and every step; the statements about it settled. -/

namespace Sys2Proof.Machine

/-! ### Operands that two states share -/

section
variable {s t : State} {n : Nat} {e q : List Byte}

/-- A window reads KEY below KLEN only (R86, U7). -/
theorem window_congr (hk : 1 ≤ s.klen.toNat) (hklen : s.klen = t.klen)
    (hkey : ∀ i, i < s.klen.toNat → Memory.read s.key i = Memory.read t.key i) (o n : Nat) :
    window s o n = window t o n := by
  apply List.ext_getElem
  · simp
  · intro j _ _
    rw [window_getElem, window_getElem, ← hklen, hkey _ (Nat.mod_lt _ hk)]

theorem tlen_congr (hklen : s.klen = t.klen) (hbs : s.bs = t.bs) : tlen s = tlen t := by
  rw [tlen, tlen, hklen, hbs]

theorem checksPass_congr (hcfg : s.cfg = t.cfg) (hklen : s.klen = t.klen) (hbs : s.bs = t.bs) :
    checksPass s = checksPass t := by
  rw [checksPass, checksPass, hcfg, hklen, hbs]

theorem seedBlock_congr (hbs : s.bs = t.bs) (hfiller : s.filler = t.filler) (hivfix : s.ivfix = t.ivfix)
    (hivin : s.ivin = t.ivin) (v : Bool) : seedBlock v s = seedBlock v t := by
  rw [seedBlock, seedBlock, ivBlock, ivBlock, hbs, hfiller, hivfix, hivin]

theorem ivDraws_congr (hbs : s.bs = t.bs) (v : Bool) : ivDraws v s = ivDraws v t := by
  rw [ivDraws, ivDraws, hbs]

/-- The same block put into two canonical arrays makes them agree on it. -/
theorem read_block_congr {m m' : Memory} (hm : Memory.wf m = true) (hm' : Memory.wf m' = true) {l : List Byte}
    (hl : l.length = n) (j : Nat) (hj : j < n) :
    Memory.read (Memory.writeRun m 0 l) j = Memory.read (Memory.writeRun m' 0 l) j := by
  rw [(read_block hm hl).1 j hj, (read_block hm' hl).1 j hj]

/-- Arrays that agree below `n` agree below `n + 1` once both have the same byte there. -/
theorem read_append_congr {m m' : Memory} (hm : Memory.wf m = true) (hm' : Memory.wf m' = true)
    (h : ∀ j, j < n → Memory.read m j = Memory.read m' j) (b : Byte) (j : Nat) (hj : j < n + 1) :
    Memory.read (Memory.write m n b) j = Memory.read (Memory.write m' n b) j := by
  rw [Memory.read_write hm, Memory.read_write hm']
  split
  · rfl
  · exact h j (by omega)

/-- A block step reads KEY below KLEN, BUF below FILL and, in MAIN, PREV below BS. -/
theorem blockAt_congr (h : s.SameSeen t) (hk : 1 ≤ s.klen.toNat) (hp : s.phase = .main) (hfill : n ≤ s.fill.toNat)
    (hbs : n ≤ s.bs.toNat) (hb : BlockAt n s e q) : BlockAt n t e q := by
  have hslice : sliceBytes s n = sliceBytes t n := Memory.readRun_congr fun j hj => h.buf j (by omega)
  have hprev : prevBytes s n = prevBytes t n := Memory.readRun_congr fun j hj => h.prev hp j (by omega)
  rwa [BlockAt, ← h.cfg, ← h.chain, ← h.dir, ← h.off, ← hslice, ← hprev, ← window_congr hk h.klen h.key]

end

section
variable {s t s' : State} {i : Instr} {e : ErrKind}

/-! ### Commands -/

theorem errorOf_congr (h : s.SameSeen t) (i : Instr) : errorOf i s = errorOf i t := by
  have hfull : arrayFull i s = arrayFull i t := by
    cases i <;> simp [arrayFull, h.klen, h.ivlen, h.cfg]
  rw [errorOf, errorOf, hfull, h.phase, h.bs, h.cfg, h.klen]

theorem raised_sameSeen (h : s.SameSeen t) (e : ErrKind) : (raised e s).SameSeen (raised e t) := by
  cases e with
  | shortCipher => exact { h with buf := nofun, prev := nofun, phase := rfl, fill := rfl, err := rfl }
  | invalidKey | invalidBlockSize => exact { h with done := rfl, err := rfl }
  | illegalCommand | blockLengthMismatch => exact { h with err := rfl }

theorem resetState_sameSeen (h : s.SameSeen t) : (resetState s).SameSeen (resetState t) :=
  { h with
    key := nofun, klen := rfl, bs := rfl, filler := congrArg Config.fillerReset h.cfg, ivfix := rfl, ivlen := rfl
    dir := rfl, chain := rfl, ivsel := rfl, buf := nofun, prev := nofun, phase := rfl, fill := rfl, off := rfl
    done := rfl, err := rfl, out := rfl }

theorem bufferByte_sameSeen (hs : s.Inv) (ht : t.Inv) (h : s.SameSeen t) (hfill : s.fill.toNat < s.bs.toNat)
    (b : Byte) : (bufferByte b s).SameSeen (bufferByte b t) := by
  have hbuf := read_append_congr hs.buf_wf ht.buf_wf h.buf b
  rw [← fill_succ_toNat hfill] at hbuf
  exact { h with buf := by simpa [h.fill] using hbuf, fill := congrArg (· + 1#16) h.fill }

theorem accepted_sameSeen (hs : s.Inv) (ht : t.Inv) (h : s.SameSeen t) (ha : Accepted s i s') :
    ∃ t', Accepted t i t' ∧ s'.SameSeen t' := by
  cases ha with
  | nop => exact ⟨t, .nop, h⟩
  | srst => exact ⟨_, .srst, resetState_sameSeen h⟩
  | keyclr hp => exact ⟨_, .keyclr (h.phase ▸ hp), { h with key := nofun, klen := rfl }⟩
  | keyb b hp hroom =>
    have hkey := read_append_congr hs.key_wf ht.key_wf h.key b
    rw [← klen_succ_toNat hs (lt_of_le_of_ne hs.klen_le hroom)] at hkey
    exact ⟨_, .keyb b (h.phase ▸ hp) (h.klen ▸ h.cfg ▸ hroom),
      { h with key := by simpa [h.klen] using hkey, klen := congrArg (· + 1#16) h.klen }⟩
  | kwin o hp hc =>
    obtain ⟨-, -, hk⟩ := (checksPass_iff s).1 hc
    have hwin := window_congr hk h.klen h.key o.toNat t.bs.toNat
    exact ⟨_, .kwin o (h.phase ▸ hp) (checksPass_congr h.cfg h.klen h.bs ▸ hc),
      { h with done := rfl, err := rfl, out := by simp [hwin, h.out, h.bs] }⟩
  | setbs n hp =>
    exact ⟨_, .setbs n (h.phase ▸ hp), { h with bs := rfl, prev := fun hm => by simp [hp] at hm }⟩
  | setfill b hp => exact ⟨_, .setfill b (h.phase ▸ hp), { h with filler := rfl }⟩
  | ivclr hp => exact ⟨_, .ivclr (h.phase ▸ hp), { h with ivfix := rfl, ivlen := rfl }⟩
  | ivb b hp hroom =>
    exact ⟨_, .ivb b (h.phase ▸ hp) (h.ivlen ▸ h.cfg ▸ hroom),
      { h with ivfix := by simp [h.ivfix, h.ivlen], ivlen := congrArg (· + 1#16) h.ivlen }⟩
  | enc c v hp hc hiv hy =>
    obtain ⟨-, -, hk⟩ := (checksPass_iff s).1 hc
    have hlen := encBlock_length hy
    rw [h.ivin, ivDraws_congr h.bs] at hiv
    rw [h.cfg, seedBlock_congr h.bs h.filler h.ivfix h.ivin, window_congr hk h.klen h.key, h.bs] at hy
    exact ⟨_, .enc c v (h.phase ▸ hp) (checksPass_congr h.cfg h.klen h.bs ▸ hc) hiv hy,
      { h with
        dir := rfl, chain := rfl, ivsel := rfl, buf := nofun, phase := rfl, fill := rfl, done := rfl, err := rfl
        prev := fun _ => read_block_congr hs.prev_wf ht.prev_wf hlen
        off := by simp [tlen_congr h.klen h.bs, h.bs]
        out := by simp [h.out]
        ivin := by simp [h.ivin, ivDraws_congr h.bs] }⟩
  | encStalls c v hp hc hiv =>
    rw [h.ivin, ivDraws_congr h.bs] at hiv
    exact ⟨_, .encStalls c v (h.phase ▸ hp) (checksPass_congr h.cfg h.klen h.bs ▸ hc) hiv,
      { h with
        dir := rfl, chain := rfl, ivsel := rfl, buf := nofun, prev := nofun, phase := rfl, fill := rfl, done := rfl
        err := rfl, ivin := by simp [h.ivin] }⟩
  | dec c hp hc =>
    exact ⟨_, .dec c (h.phase ▸ hp) (checksPass_congr h.cfg h.klen h.bs ▸ hc),
      { h with
        dir := rfl, chain := rfl, buf := nofun, prev := nofun, phase := rfl, fill := rfl, off := rfl, done := rfl
        err := rfl }⟩
  | dataBuffers b hp hf =>
    exact ⟨_, .dataBuffers b (h.phase ▸ hp) (h.fill ▸ h.bs ▸ hf), bufferByte_sameSeen hs ht h (fill_lt_bs hs hp) b⟩
  | dataDrops b hp hf =>
    have hseen := bufferByte_sameSeen hs ht h (fill_lt_bs hs (.inl hp)) b
    have hfull : (bufferByte b s).fill.toNat = t.bs.toNat := by rw [← h.bs, ← hf]; rfl
    have hslice : sliceBytes (bufferByte b s) t.bs.toNat = sliceBytes (bufferByte b t) t.bs.toNat :=
      Memory.readRun_congr fun j hj => hseen.buf j (hj.trans_eq hfull.symm)
    exact ⟨_, .dataDrops b (h.phase ▸ hp) (h.fill ▸ h.bs ▸ hf),
      { h with
        buf := nofun, phase := rfl, fill := rfl
        prev := fun _ => by
          simpa [hslice, h.bs] using read_block_congr hs.prev_wf ht.prev_wf (sliceBytes_length (bufferByte b t) _)
        off := by simp [tlen_congr h.klen h.bs, h.bs] }⟩
  | dataBlock b hp hf hb =>
    obtain ⟨-, -, hk, hfill, -⟩ := hs.opened (.inr hp)
    obtain ⟨-, hlen⟩ := hb.length
    have hseen := bufferByte_sameSeen hs ht h hfill b
    have hb' := blockAt_congr hseen hk hp (congrArg BitVec.toNat hf).ge le_rfl hb
    rw [h.bs] at hb'
    exact ⟨_, .dataBlock b (h.phase ▸ hp) (h.fill ▸ h.bs ▸ hf) hb',
      { h with
        buf := nofun, fill := rfl
        prev := fun _ => read_block_congr hs.prev_wf ht.prev_wf hlen
        off := by simp [tlen_congr h.klen h.bs, h.bs, h.off]
        out := by simp [h.out] }⟩
  | finEmpty hp hf =>
    exact ⟨_, .finEmpty (h.phase ▸ hp) (h.fill ▸ hf),
      { h with prev := nofun, phase := rfl, done := rfl, out := by simp [h.out] }⟩
  | finTail hp hf hb =>
    obtain ⟨-, -, hk, hfill, -⟩ := hs.opened (.inr hp)
    have hb' := blockAt_congr h hk hp le_rfl hfill.le hb
    rw [h.fill] at hb'
    exact ⟨_, .finTail (h.phase ▸ hp) (h.fill ▸ hf) hb',
      { h with
        buf := nofun, prev := nofun, phase := rfl, fill := rfl, done := rfl
        off := by simp [tlen_congr h.klen h.bs, h.bs, h.off]
        out := by simp [h.out] }⟩

theorem exec_sameSeen (hs : s.Inv) (ht : t.Inv) (h : s.SameSeen t) (i : Instr) :
    ∃ s' t', exec i s = .next s' ∧ exec i t = .next t' ∧ s'.SameSeen t' := by
  obtain ⟨e, he, hx⟩ | ⟨-, s', ha, hx⟩ := exec_cases i s
  · exact ⟨_, _, hx, exec_of_errorOf (errorOf_congr h i ▸ he), raised_sameSeen h e⟩
  · obtain ⟨t', ha', h'⟩ := accepted_sameSeen hs ht h ha
    exact ⟨s', t', hx, exec_of_accepted ha', h'⟩

end

/-! ### Accesses and steps -/

/-- Two outcomes no host can tell apart. -/
inductive SameOutcome : Result → Result → Prop
  | next {s t : State} (h : s.SameSeen t) : SameOutcome (.next s) (.next t)
  | fault (f : Fault) : SameOutcome (.fault f) (.fault f)
  | refused (r : Refusal) : SameOutcome (.refused r) (.refused r)

section
variable {s t : State} {r : Result}

theorem SameOutcome.of_next (h : SameOutcome (.next s) r) : ∃ t, r = .next t ∧ s.SameSeen t := by
  cases h with
  | next h => exact ⟨_, rfl, h⟩

theorem SameOutcome.of_fault {f : Fault} (h : SameOutcome (.fault f) r) : r = .fault f := by
  cases h
  rfl

theorem SameOutcome.of_refused {e : Refusal} (h : SameOutcome (.refused e) r) : r = .refused e := by
  cases h
  rfl

theorem runWord_sameOutcome (hs : s.Inv) (ht : t.Inv) (h : s.SameSeen t) (w : Word) :
    SameOutcome (runWord w s) (runWord w t) := by
  cases hd : decode w with
  | ok i =>
    rw [runWord_of_decode hd, runWord_of_decode hd]
    obtain ⟨s', t', hx, hx', h'⟩ := exec_sameSeen hs ht h i
    rw [hx, hx']
    exact .next h'
  | error f =>
    rw [runWord_of_illegal hd, runWord_of_illegal hd]
    exact .next (raised_sameSeen h .illegalCommand)

theorem writeWindow_sameOutcome (hs : s.Inv) (ht : t.Inv) (h : s.SameSeen t) (addr : Nat) (w : Word) :
    SameOutcome (writeWindow addr w s) (writeWindow addr w t) := by
  cases addr with
  | zero => exact runWord_sameOutcome hs ht h w
  | succ n => exact .next h

theorem reply_sameSeen (h : s.SameSeen t) (w : Word) : (reply w s).SameSeen (reply w t) :=
  { h with replies := congrArg (· ++ [w]) h.replies }

/-- No register shows one of the bytes that are not seen. -/
theorem readWindow_sameSeen (h : s.SameSeen t) (addr : Nat) :
    (readWindow addr s).1 = (readWindow addr t).1 ∧ (readWindow addr s).2.SameSeen (readWindow addr t).2 := by
  have hstalled : stalled s = stalled t := by rw [stalled, stalled, h.phase]
  unfold readWindow
  split
  · refine ⟨?_, h⟩
    rw [statusRead, statusRead, hstalled, h.replies, statusWord, statusWord, outValid, outValid, h.err, h.out, h.done,
      h.ivsel, h.chain, h.dir, h.phase]
  · exact ⟨by rw [configWord, configWord, h.filler, h.bs], h⟩
  · exact ⟨by rw [lengthsWord, lengthsWord, h.ivlen, h.klen], h⟩
  · cases ho : t.out with
    | nil =>
      rw [readOut_empty (h.out.trans ho), readOut_empty ho]
      exact ⟨rfl, h⟩
    | cons k q =>
      rw [readOut_cons (h.out.trans ho), readOut_cons ho]
      exact ⟨rfl, { h with out := rfl }⟩
  · exact ⟨by rw [offsetRead, offsetRead, hstalled, h.replies, offsetWord, offsetWord, h.off], h⟩
  · exact ⟨by rw [fillcntRead, fillcntRead, hstalled, h.replies, fillcntWord, fillcntWord, h.fill], h⟩
  · exact ⟨rfl, h⟩

theorem serve_sameOutcome (hs : s.Inv) (ht : t.Inv) (h : s.SameSeen t) (a : HostEvent) :
    SameOutcome (serve a s) (serve a t) := by
  cases a with
  | hardReset => exact .next (resetState_sameSeen h)
  | write addr bytes w =>
    simp only [serve]
    split
    · exact .next h
    · split
      · exact writeWindow_sameOutcome hs ht h addr w
      · exact .refused _
  | read addr bytes =>
    obtain ⟨hw, h'⟩ := readWindow_sameSeen h addr
    simp only [serve]
    split
    · exact .next h
    · split
      · rw [hw]
        exact .next (reply_sameSeen h' _)
      · exact .refused _

theorem step_sameOutcome (hs : s.Inv) (ht : t.Inv) (h : s.SameSeen t) : SameOutcome (step s) (step t) := by
  have hblocked : blocked s = blocked t := by rw [blocked, blocked, stalled, stalled, h.phase, h.inbox]
  rw [step, step, hblocked, h.inbox]
  split
  · rw [awaitReset, awaitReset, h.inbox]
    split
    · rename_i rest _
      exact .next (resetState_sameSeen (s := { s with inbox := rest }) { h with inbox := rfl })
    · exact .fault _
  · split
    · exact .next h
    · rename_i a rest _
      exact serve_sameOutcome (s := { s with inbox := rest }) (t := { t with inbox := rest }) { hs with } { ht with }
        { h with inbox := rfl } a

end

/-- Settles O26: the two steps have the same outcome, state by state that the host cannot tell apart. -/
theorem unreadBytesAreUnobservable : Obligations.UnreadBytesAreUnobservable := by
  unfold Obligations.UnreadBytesAreUnobservable
  intro s t hs ht h
  have hstep := step_sameOutcome hs ht h
  exact ⟨fun _ hx => (hx ▸ hstep).of_next, fun _ hx => (hx ▸ hstep).of_fault, fun _ hx => (hx ▸ hstep).of_refused⟩

theorem accepted_of_checksPass {s s' : State} {i : Instr} (hi : clearsFlags i = true) (hp : s.phase = .idle)
    (hc : checksPass s = true) (hx : exec i s = .next s') : Accepted s i s' := by
  obtain ⟨hallowed, hroom, hfin⟩ := allowedIn_of_clearsFlags (s := s) hi
  have hnone := errorOf_none_iff.2 ⟨hallowed.2 hp, hroom, fun _ => hc, fun h => hfin h.1⟩
  obtain ⟨e, he, -⟩ | ⟨-, ha⟩ := exec_next_cases hx
  · cases hnone.symm.trans he
  · exact ha

/-- Settles O27: the arms that open an operation write what they write from the inputs named, and append to OUT. -/
theorem operationsStartFromTheirInputsOnly : Obligations.OperationsStartFromTheirInputsOnly := by
  unfold Obligations.OperationsStartFromTheirInputsOnly
  intro s t i hs ht hp hp' hi hc hcfg hklen hbs hfiller hivfix hivin hkey s' hx
  have hclears : clearsFlags i = true := by obtain ⟨c, v, rfl⟩ | ⟨c, rfl⟩ := hi <;> rfl
  have hc' : checksPass t = true := checksPass_congr hcfg hklen hbs ▸ hc
  have ha := accepted_of_checksPass hclears hp hc hx
  cases ha with
  | enc c v _ _ hiv hy =>
    obtain ⟨-, -, hk⟩ := (checksPass_iff s).1 hc
    have hlen := encBlock_length hy
    have hoff : BitVec.ofNat 24 (s.bs.toNat % tlen s) = BitVec.ofNat 24 (t.bs.toNat % tlen t) := by
      rw [tlen_congr hklen hbs, hbs]
    have hport : IvPort.advance s.ivin (ivDraws v s) = IvPort.advance t.ivin (ivDraws v t) := by
      rw [hivin, ivDraws_congr hbs]
    rw [hivin, ivDraws_congr hbs] at hiv
    rw [hcfg, seedBlock_congr hbs hfiller hivfix hivin, window_congr hk hklen hkey, hbs] at hy
    exact ⟨_, _, exec_of_accepted (.enc c v hp' hc' hiv hy), rfl, rfl, rfl, rfl, rfl, rfl, fun _ => hoff, rfl, rfl,
      hport, fun _ => read_block_congr hs.prev_wf ht.prev_wf hlen⟩
  | encStalls c v _ _ hiv =>
    have hport : IvPort.advance s.ivin s.ivin.offered.length = IvPort.advance t.ivin t.ivin.offered.length := by
      rw [hivin]
    rw [hivin, ivDraws_congr hbs] at hiv
    exact ⟨_, [], exec_of_accepted (.encStalls c v hp' hc' hiv), (List.append_nil _).symm, (List.append_nil _).symm,
      rfl, rfl, rfl, rfl, fun hne => absurd rfl hne, rfl, rfl, hport, nofun⟩
  | dec c =>
    exact ⟨_, [], exec_of_accepted (.dec c hp' hc'), (List.append_nil _).symm, (List.append_nil _).symm, rfl, rfl, rfl,
      rfl, fun _ => rfl, rfl, rfl, hivin, nofun⟩
  | nop | srst | keyclr | keyb | kwin | setbs | setfill | ivclr | ivb | dataBuffers | dataDrops | dataBlock | finEmpty
  | finTail => simp at hi

end Sys2Proof.Machine
end

section
/-! SUPPORT. The slices of a stream and the encryption call slice by slice (42_segmentation_iv.md R112, R113,
43_chaining_engine.md R141, R142): the statements about them settled. -/

namespace Sys2Proof.Machine

/-! ### The slices (R112) -/

section
variable {bs : Nat}

theorem slices_flatten (hb : 1 ≤ bs) (S : List Byte) : (slices bs S).flatten = S := by
  induction S using slice_induction hb with
  | nil => rw [slices_nil hb]; rfl
  | slice S hS ih => rw [slices_of_ne_nil hb hS, List.flatten_cons, ih, List.take_append_drop]

theorem slices_length (bs : Nat) (S : List Byte) : (slices bs S).length = (S.length + bs - 1) / bs := by
  simp [slices]

/-- There are ceil(len / bs) slices. -/
theorem slices_count (hb : 1 ≤ bs) (S : List Byte) :
    (slices bs S).length * bs < S.length + bs ∧ S.length ≤ (slices bs S).length * bs := by
  rw [slices_length]
  have hle := Nat.div_mul_le_self (S.length + bs - 1) bs
  have hlt := Nat.lt_div_mul_add (a := S.length + bs - 1) hb
  omega

theorem slices_getD {i : Nat} (S : List Byte) (hi : i < (slices bs S).length) :
    (slices bs S).getD i [] = (S.drop (i * bs)).take bs := by
  rw [List.getD_eq_getElem _ _ hi]
  simp [slices]

end

/-- Settles O50: the pieces by induction on the stream, the lengths from where each begins. -/
theorem slicesCutTheStream : Obligations.SlicesCutTheStream := by
  unfold Obligations.SlicesCutTheStream
  intro bs S hb
  obtain ⟨hlt, hle⟩ := slices_count hb S
  refine ⟨slices_flatten hb S, ⟨hlt, hle⟩, fun i hi => ?_⟩
  have hstart : i * bs < S.length := by
    have := Nat.mul_le_mul_right bs (Nat.succ_le_of_lt hi)
    rw [Nat.succ_mul] at this
    omega
  rw [slices_getD S hi, List.length_take, List.length_drop]
  omega

/-! ### Encryption without chaining (R142) -/

section
variable {x : Xform} {K : List Byte} {bs o : Nat} {prev S out : List Byte}

/-- Without chaining the loop does not look at the block before. -/
theorem encryptSlices_ecb_prev (x : Xform) (K : List Byte) (bs o : Nat) (prev prev' : List Byte)
    (L : List (List Byte)) : encryptSlices x K false bs o prev L = encryptSlices x K false bs o prev' L := by
  cases L <;> rfl

theorem encryptSlices_ecb_first (hb : 1 ≤ bs) (hp : prev.length = bs) (hS : S ≠ [])
    (h : encryptSlices x K false bs o prev (slices bs S) = .ok out) :
    forward x (S.take bs) (keyWindow K o (S.take bs).length) = .ok (out.take bs) ∧
    encryptSlices x K false bs (o + bs) prev (slices bs (S.drop bs)) = .ok (out.drop bs) := by
  obtain ⟨C, hC, hClen, -, heq⟩ := encryptSlices_of_ne_nil x K false o hb hS hp
  obtain ⟨out', hout', holen, -⟩ := encryptSlices_ok x K false (o + bs) hb (S.drop bs) fun _ => hp
  rw [heq, encryptSlices_ecb_prev x K bs (o + bs) C prev, hout'] at h
  cases h
  obtain ⟨htake, hdrop⟩ := take_drop_append_of_lengths hClen holen
  rw [htake, hdrop]
  exact ⟨hC, hout'⟩

theorem encryptSlices_ecb_slice (hb : 1 ≤ bs) (hp : prev.length = bs)
    (h : encryptSlices x K false bs o prev (slices bs S) = .ok out) {i : Nat} (hi : i * bs < S.length) :
    forward x ((S.drop (i * bs)).take bs) (keyWindow K (o + i * bs) ((S.drop (i * bs)).take bs).length) =
      .ok ((out.drop (i * bs)).take bs) := by
  induction i generalizing S o out with
  | zero =>
    obtain ⟨hfirst, -⟩ := encryptSlices_ecb_first hb hp (List.length_pos_iff.1 (Nat.zero_lt_of_lt hi)) h
    simpa using hfirst
  | succ i ih =>
    obtain ⟨-, hrest⟩ := encryptSlices_ecb_first hb hp (List.length_pos_iff.1 (Nat.zero_lt_of_lt hi)) h
    rw [Nat.succ_mul] at hi ⊢
    have hslice := ih hrest (by rw [List.length_drop]; omega)
    rwa [List.drop_drop, List.drop_drop, Nat.add_comm bs, Nat.add_assoc, Nat.add_comm bs] at hslice

end

/-! ### Two IVs (R141) -/

/-- XORing bytes of the same length into a block loses nothing. -/
theorem xorBytes_injective {u v v' : List Byte} (hv : v.length = u.length) (hv' : v'.length = u.length)
    (h : xorBytes u v = xorBytes u v') : v = v' := by
  rw [xorBytes_comm u, xorBytes_comm u] at h
  rw [← xorBytes_cancel hv.le, h, xorBytes_cancel hv'.le]

/-- Settles O54: XOR and `forward` under one key block are injective; without chaining the loop goes on alike. -/
theorem leadingBlocksDifferExactlyWithTheIvs : Obligations.LeadingBlocksDifferExactlyWithTheIvs := by
  unfold Obligations.LeadingBlocksDifferExactlyWithTheIvs
  intro x P K c bs f iv iv' C C' hb hK hiv hiv' h h'
  obtain ⟨C0, out, hC0, hlen, hout, -, -, hE⟩ := encryptStream_ok x c P f hb hK hiv
  obtain ⟨C0', out', hC0', hlen', hout', -, -, hE'⟩ := encryptStream_ok x c P f hb hK hiv'
  cases hE.symm.trans h
  cases hE'.symm.trans h'
  rw [List.take_left' hlen, List.take_left' hlen', List.drop_left' hlen, List.drop_left' hlen']
  refine ⟨not_congr ⟨fun heq => ?sameIv, fun heq => ?sameBlock⟩, fun hc => ?ecb⟩
  case sameIv =>
    have hforward := hC0.trans ((congrArg Except.ok heq).trans hC0'.symm)
    have hxor := forward_injective x (by simp [hiv]) (by simp [hiv']) hforward
    exact xorBytes_injective (by simp [hiv]) (by simp [hiv']) hxor
  case sameBlock =>
    subst heq
    cases hC0.symm.trans hC0'
    rfl
  case ecb =>
    subst hc
    rw [encryptSlices_ecb_prev x K bs bs C0 C0'] at hout
    cases hout.symm.trans hout'
    rfl

/-- Settles O55: past the block made from the IV, ciphertext slice i is the loop's. -/
theorem ecbSlicesAreIndependent : Obligations.EcbSlicesAreIndependent := by
  unfold Obligations.EcbSlicesAreIndependent
  intro x P K bs f iv C i hb hK hiv h hi
  obtain ⟨C0, out, -, hlen, hout, -, -, hE⟩ := encryptStream_ok x false P f hb hK hiv
  cases hE.symm.trans h
  have hdrop : (C0 ++ out).drop ((i + 1) * bs) = out.drop (i * bs) := by
    rw [Nat.succ_mul, Nat.add_comm, ← List.drop_drop, List.drop_left' hlen]
  rw [hdrop, Nat.succ_mul, Nat.add_comm]
  exact encryptSlices_ecb_slice hb hlen hout hi

end Sys2Proof.Machine
end

section
/-! SUPPORT. The machine against the call level (43_chaining_engine.md R138): commands issued one after another run as
the commands themselves, the DATA of a slice and the FIN of a stream do what the loop of the call does with it, and the
statements about whole operations settled. -/

namespace Sys2Proof.Machine

/-! ### Commands issued one after another (R59) -/

/-- The commands executed in order, none of them met by a stall. -/
inductive Execs : List Instr → State → State → Prop
  | nil (s : State) : Execs [] s s
  | cons {i : Instr} {is : List Instr} {s s' t : State} (hp : s.phase ≠ .ivseed) (hx : exec i s = .next s')
      (h : Execs is s' t) : Execs (i :: is) s t

section
variable {i : Instr} {is js : List Instr} {s s' t u : State}

theorem Execs.append (h : Execs is s t) (h' : Execs js t u) : Execs (is ++ js) s u := by
  induction h with
  | nil => exact h'
  | cons hp hx _ ih => exact .cons hp hx (ih h')

theorem Execs.single (hp : s.phase ≠ .ivseed) (ha : Accepted s i t) : Execs [i] s t :=
  .cons hp (exec_of_accepted ha) (.nil t)

theorem execs_inv (h : Execs is s t) (hs : s.Inv) : t.Inv := by
  induction h with
  | nil => exact hs
  | cons _ hx _ ih => exact ih (exec_inv hs hx)

theorem Accepted.withInbox (h : Accepted s i t) (l : List HostEvent) :
    Accepted { s with inbox := l } i { t with inbox := l } := by
  cases h with
  | nop => exact .nop
  | srst => exact .srst
  | keyclr hp => exact .keyclr hp
  | keyb b hp hroom => exact .keyb b hp hroom
  | kwin o hp hc => exact .kwin o hp hc
  | setbs n hp => exact .setbs n hp
  | setfill b hp => exact .setfill b hp
  | ivclr hp => exact .ivclr hp
  | ivb b hp hroom => exact .ivb b hp hroom
  | enc c v hp hc hiv hy => exact .enc (s := { s with inbox := l }) c v hp hc hiv hy
  | encStalls c v hp hc hiv => exact .encStalls c v hp hc hiv
  | dec c hp hc => exact .dec c hp hc
  | dataBuffers b hp hf => exact .dataBuffers b hp hf
  | dataDrops b hp hf => exact .dataDrops b hp hf
  | dataBlock b hp hf hb => exact .dataBlock (s := { s with inbox := l }) b hp hf hb
  | finEmpty hp hf => exact .finEmpty hp hf
  | finTail hp hf hb => exact .finTail (s := { s with inbox := l }) hp hf hb

/-- A command reads nothing of the accesses behind it. -/
theorem exec_withInbox (h : exec i s = .next t) (l : List HostEvent) :
    exec i { s with inbox := l } = .next { t with inbox := l } := by
  obtain ⟨e, he, rfl⟩ | ⟨-, ha⟩ := exec_next_cases h
  · exact exec_of_errorOf (s := { s with inbox := l }) he
  · exact exec_of_accepted (ha.withInbox l)

theorem exec_issue (h : exec i s = .next t) (is : List Instr) : exec i (issue is s) = .next (issue is t) := by
  obtain ⟨-, hinbox, -⟩ := exec_host h
  rw [issue, issue, hinbox]
  exact exec_withInbox h _

theorem run_of_execs (h : Execs is s t) : core.run is.length (issue is s) = .next t := by
  induction h with
  | nil => rfl
  | @cons i is s s' t hp hx _ ih =>
    have hstep : core.step (issue (i :: is) s) = .next (issue is s') :=
      (step_issue_cons (decode_encode i) is ((stalled_eq_false_iff s).2 hp)).trans (exec_issue hx is)
    simp only [List.length_cons, Host.Core.run, hstep]
    exact ih

end

/-! ### The bytes of a slice (R110) -/

/-- The state once the bytes `l` of a slice are in BUF. -/
def buffered (l : List Byte) (s : State) : State :=
  { s with buf := Memory.writeRun s.buf 0 l, fill := BitVec.ofNat 16 l.length }

theorem Memory.writeRun_append (m : Memory) (i : Nat) (l l' : List Byte) :
    Memory.writeRun m i (l ++ l') = Memory.writeRun (Memory.writeRun m i l) (i + l.length) l' := by
  induction l generalizing m i with
  | nil => rfl
  | cons v l ih =>
    rw [List.cons_append, Memory.writeRun, ih, List.length_cons, Nat.add_assoc, Nat.add_comm 1]
    rfl

section
variable {s : State} {l S : List Byte} {b : Byte}

theorem buffered_fill (h : l.length < s.bs.toNat) : (buffered l s).fill.toNat = l.length := by
  have := s.bs.isLt
  exact Nat.mod_eq_of_lt (by omega)

theorem bufferByte_buffered (h : l.length < s.bs.toNat) : bufferByte b (buffered l s) = buffered (l ++ [b]) s := by
  have hbuf : Memory.write (buffered l s).buf (buffered l s).fill.toNat b = Memory.writeRun s.buf 0 (l ++ [b]) := by
    rw [buffered_fill h, Memory.writeRun_append, Nat.zero_add]
    rfl
  have hfill : (buffered l s).fill + 1#16 = BitVec.ofNat 16 (l ++ [b]).length := by
    rw [List.length_append, BitVec.ofNat_add]
    rfl
  rw [bufferByte, hbuf, hfill]
  rfl

/-- What was buffered is the slice. -/
theorem sliceBytes_buffered (h : s.Inv) (l : List Byte) : sliceBytes (buffered l s) l.length = l :=
  Memory.readRun_writeRun h.buf_wf l

/-- The bytes of a slice but the last are only buffered. -/
theorem execs_buffered (hp : s.phase = .drop ∨ s.phase = .main) (hf : s.fill = 0#16) (hl : l.length < s.bs.toNat) :
    Execs (l.map .data) s (buffered l s) := by
  induction l using List.reverseRecOn with
  | nil =>
    have : buffered [] s = s := by rw [buffered, Memory.writeRun, List.length_nil, ← hf]
    rw [this]
    exact .nil s
  | append_singleton l b ih =>
    rw [List.length_append, List.length_singleton] at hl
    have hlast := buffered_fill (l := l) (Nat.lt_of_succ_lt hl)
    have hopen : (buffered l s).fill + 1#16 ≠ s.bs := fun hfull =>
      hl.ne (hlast ▸ (slice_complete_iff (s := buffered l s) (hlast.trans_lt (Nat.lt_of_succ_lt hl))).1 hfull)
    have hbyte := Accepted.dataBuffers (s := buffered l s) b hp hopen
    have hsnoc : bufferByte b (buffered l s) = _ := bufferByte_buffered (Nat.lt_of_succ_lt hl)
    rw [List.map_append, ← hsnoc]
    exact (ih (Nat.lt_of_succ_lt hl)).append (.single (by rcases hp with hp | hp <;> simp [buffered, hp]) hbyte)

/-- The last byte of a slice finds the others buffered. -/
theorem execs_buffered_full (hp : s.phase = .drop ∨ s.phase = .main) (hf : s.fill = 0#16)
    (hS : S.length = s.bs.toNat) (hne : S ≠ []) : ∃ l b, S = l ++ [b] ∧ Execs (l.map .data) s (buffered l s) ∧
      (buffered l s).fill + 1#16 = s.bs ∧ bufferByte b (buffered l s) = buffered S s := by
  obtain rfl | ⟨l, b, rfl⟩ := List.eq_nil_or_concat' S
  · exact absurd rfl hne
  rw [List.length_append, List.length_singleton] at hS
  have hlt : l.length < s.bs.toNat := by omega
  have hfill := buffered_fill hlt
  exact ⟨l, b, rfl, execs_buffered hp hf hlt,
    (slice_complete_iff (s := buffered l s) (hfill.trans_lt hlt)).2 (by rw [hfill]; exact hS), bufferByte_buffered hlt⟩

end

/-! ### The loop of the call, as a relation

The two loops of R136 differ in the arm of the block step only; on the machine DIR selects it. -/

/-- From the key offset `o` and the cipher block before, the stream `S` gives `out`. -/
inductive Streamed (x : Xform) (K : List Byte) (c : Bool) (bs : Nat) (d : Dir) :
    Nat → List Byte → List Byte → List Byte → Prop
  | nil (o : Nat) (prev : List Byte) : Streamed x K c bs d o prev [] []
  | slice {o : Nat} {prev S e q out : List Byte} (hS : S ≠ [])
      (hb : BlockOf x c (keyWindow K o (S.take bs).length) prev (S.take bs) d e q)
      (h : Streamed x K c bs d (o + bs) q (S.drop bs) out) : Streamed x K c bs d o prev S (e ++ out)

section
variable {x : Xform} {K : List Byte} {c : Bool} {bs o : Nat} {prev S out : List Byte}

theorem streamed_of_encryptSlices (hb : 1 ≤ bs) (hp : S ≠ [] → prev.length = bs)
    (h : encryptSlices x K c bs o prev (slices bs S) = .ok out) : Streamed x K c bs .encrypt o prev S out := by
  induction S using slice_induction hb generalizing o prev out with
  | nil =>
    rw [slices_nil hb] at h
    cases h
    exact .nil o prev
  | slice S hS ih =>
    obtain ⟨C, hC, hlen, -, heq⟩ := encryptSlices_of_ne_nil x K c o hb hS (hp hS)
    have hfull : S.drop bs ≠ [] → C.length = bs := fun hne => hlen.trans (take_length_of_drop_ne_nil hne)
    obtain ⟨out', hout', -, -⟩ := encryptSlices_ok x K c (o + bs) hb (S.drop bs) hfull
    rw [heq, hout'] at h
    cases h
    exact .slice hS (.encrypt hC) (ih hfull hout')

theorem streamed_of_decryptSlices (hb : 1 ≤ bs) (hp : S ≠ [] → prev.length = bs)
    (h : decryptSlices x K c bs o prev (slices bs S) = .ok out) : Streamed x K c bs .decrypt o prev S out := by
  induction S using slice_induction hb generalizing o prev out with
  | nil =>
    rw [slices_nil hb] at h
    cases h
    exact .nil o prev
  | slice S hS ih =>
    obtain ⟨Y, hY, -, -, heq⟩ := decryptSlices_of_ne_nil x K c o hb hS (hp hS)
    obtain ⟨out', hout', -⟩ := decryptSlices_ok x K c (o + bs) hb (S.drop bs) take_length_of_drop_ne_nil
    rw [heq, hout'] at h
    cases h
    exact .slice hS (.decrypt hY) (ih take_length_of_drop_ne_nil hout')

end

/-! ### A block step on the bytes buffered -/

section
variable {x : Xform} {c : Bool} {kb prev l e q : List Byte} {d : Dir}

theorem chainWith_take {n : Nat} (h : l.length ≤ n) : chainWith c l (prev.take n) = chainWith c l prev := by
  simp [chainWith, List.take_take, h]

/-- Of the block before, only as many bytes count as the slice has (R131). -/
theorem BlockOf.take_prev (h : BlockOf x c kb prev l d e q) (hk : kb.length = l.length) :
    BlockOf x c kb (prev.take l.length) l d e q := by
  cases h with
  | encrypt hf => exact .encrypt (by rwa [chainWith_take le_rfl])
  | @decrypt y hi =>
    obtain ⟨y', hy', hlen, -⟩ := inverse_ok x hk
    cases hy'.symm.trans hi
    have hblock := BlockOf.decrypt (c := c) (prev := prev.take l.length) hi
    rwa [chainWith_take hlen.le] at hblock

theorem Memory.readRun_take (m : Memory) {k n : Nat} (h : k ≤ n) :
    (Memory.readRun m n).take k = Memory.readRun m k := by
  simp [Memory.readRun, ← List.map_take, List.take_range, h]

end

/-- In MAIN, between two slices: the call's loop stands at `o`, with `prev` the cipher block before. -/
structure Ready (x : Xform) (K : List Byte) (c : Bool) (bs : Nat) (d : Dir) (o : Nat) (prev : List Byte) (s : State) :
    Prop where
  inv : s.Inv
  phase : s.phase = .main
  fill : s.fill = 0#16
  xform : s.cfg.xform = x
  key : Memory.readRun s.key s.klen.toNat = K
  chain : s.chain = c
  bs : s.bs.toNat = bs
  dir : s.dir = d
  off : s.off.toNat ≡ o [MOD s.klen.toNat]
  prev : prevBytes s s.bs.toNat = prev

/-- `t` is `s` with the operation closed, `out` and End emitted. -/
structure Closed (out : List Byte) (s t : State) : Prop where
  out : t.out = s.out ++ out.map Token.byte ++ [Token.endMark]
  phase : t.phase = .idle
  done : t.done = true
  err : t.err = s.err
  inbox : t.inbox = s.inbox
  key : t.key = s.key
  klen : t.klen = s.klen
  bs : t.bs = s.bs
  cfg : t.cfg = s.cfg

/-- The state after a block step that emits `e` and puts `q` into PREV. -/
def afterBlock (e q : List Byte) (s : State) : State :=
  { s with
    fill := 0#16, out := s.out ++ e.map Token.byte, prev := Memory.writeRun s.prev 0 q
    off := BitVec.ofNat 24 ((s.off.toNat + s.bs.toNat) % tlen s) }

section
variable {x : Xform} {K : List Byte} {c : Bool} {bs o : Nat} {d : Dir} {prev S e q out : List Byte} {s : State}

theorem Ready.checks (h : Ready x K c bs d o prev s) : checksPass s = true := inv_checksPass h.inv (by simp [h.phase])

theorem Ready.blockAt (h : Ready x K c bs d o prev s) (hle : S.length ≤ bs)
    (hb : BlockOf x c (keyWindow K o S.length) prev S d e q) : BlockAt S.length (buffered S s) e q := by
  obtain ⟨-, -, hk⟩ := (checksPass_iff s).1 h.checks
  have hwin : window s s.off.toNat S.length = keyWindow K o S.length := by
    rw [window_eq_of_mod_eq h.off, window_eq_keyWindow s hk, h.key]
  have hprev : prevBytes s S.length = prev.take S.length := by
    rw [← h.prev, prevBytes, prevBytes, Memory.readRun_take _ (h.bs ▸ hle)]
  have hblock := hb.take_prev (keyWindow_length ..)
  rw [← hwin, ← hprev, ← h.xform, ← h.chain, ← h.dir] at hblock
  rw [BlockAt, sliceBytes_buffered h.inv]
  exact hblock

/-- The DATA commands of a full slice end in the block step on it. -/
theorem Ready.execs_slice (h : Ready x K c bs d o prev s) (hS : S.length = bs)
    (hb : BlockAt S.length (buffered S s) e q) : Execs (S.map .data) s (afterBlock e q (buffered S s)) := by
  obtain ⟨hpos, -, -⟩ := (checksPass_iff s).1 h.checks
  rw [← h.bs] at hS
  obtain ⟨l, b, rfl, hl, hfull, hbyte⟩ :=
    execs_buffered_full (.inr h.phase) h.fill hS (List.length_pos_iff.1 (hS ▸ hpos))
  rw [← hbyte, hS] at hb
  rw [List.map_append, ← hbyte]
  exact hl.append (.single (by simp [buffered, h.phase]) (.dataBlock (s := buffered l s) b h.phase hfull hb))

/-- OFF holds the loop's key offset modulo TLEN, which is enough for the window. -/
theorem offset_modEq (h : s.Inv) (hc : checksPass s = true) (n : Nat) :
    (BitVec.ofNat 24 (n % tlen s)).toNat ≡ n [MOD s.klen.toNat] := by
  rw [off_toNat h hc]
  exact (Nat.mod_modEq n (tlen s)).of_dvd (Nat.dvd_mul_right ..)

theorem Ready.after_slice (h : Ready x K c bs d o prev s) (hS : S.length = bs)
    (hb : BlockAt S.length (buffered S s) e q) : Ready x K c bs d (o + bs) q (afterBlock e q (buffered S s)) where
  inv := execs_inv (h.execs_slice hS hb) h.inv
  phase := h.phase
  fill := rfl
  xform := h.xform
  key := h.key
  chain := h.chain
  bs := h.bs
  dir := h.dir
  off := by
    rw [← h.bs]
    exact (offset_modEq h.inv h.checks _).trans (h.off.add_right _)
  prev := by
    obtain ⟨-, hlen⟩ := hb.length
    have hq : q.length = s.bs.toNat := by rw [hlen, hS, h.bs]
    exact hq ▸ Memory.readRun_writeRun h.inv.prev_wf q

/-- The DATA commands of a tail, and FIN. -/
theorem Ready.execs_tail (h : Ready x K c bs d o prev s) (hne : S ≠ []) (hS : S.length < bs)
    (hb : BlockAt S.length (buffered S s) e q) :
    ∃ t, Execs (S.map .data ++ [.fin]) s t ∧ Closed e s t := by
  rw [← h.bs] at hS
  have hfill := buffered_fill hS
  have hpos : (buffered S s).fill ≠ 0#16 := fill_ne_zero (hfill ▸ List.length_pos_iff.2 hne)
  rw [← hfill] at hb
  exact ⟨_, (execs_buffered (.inr h.phase) h.fill hS).append
    (.single (by simp [buffered, h.phase]) (.finTail (s := buffered S s) h.phase hpos hb)),
    ⟨rfl, rfl, rfl, rfl, rfl, rfl, rfl, rfl, rfl⟩⟩

/-- The machine emits what the loop answers: slice by slice. -/
theorem Streamed.execs (hst : Streamed x K c bs d o prev S out) (h : Ready x K c bs d o prev s) :
    ∃ t, Execs (S.map .data ++ [.fin]) s t ∧ Closed out s t := by
  induction hst generalizing s with
  | nil o prev =>
    exact ⟨_, .single (by simp [h.phase]) (.finEmpty h.phase h.fill), by simp, rfl, rfl, rfl, rfl, rfl, rfl, rfl, rfl⟩
  | @slice o prev S e q out hne hb hrest ih =>
    have hblock := h.blockAt (List.length_take_le bs S) hb
    obtain hlt | hge := Nat.lt_or_ge S.length bs
    · rw [List.take_of_length_le hlt.le] at hblock
      rw [List.drop_eq_nil_of_le hlt.le] at hrest
      cases hrest with
      | nil =>
        rw [List.append_nil]
        exact h.execs_tail hne hlt hblock
      | slice hS => exact absurd rfl hS
    · have hfull : (S.take bs).length = bs := by simpa using hge
      obtain ⟨t, ht, hclosed⟩ := ih (h.after_slice hfull hblock)
      have hall := (h.execs_slice hfull hblock).append ht
      rw [← List.append_assoc, ← List.map_append, List.take_append_drop] at hall
      exact ⟨t, hall, { hclosed with out := by simp [hclosed.out, afterBlock, buffered] }⟩

end

/-! ### Whole operations (R138) -/

section
variable {s : State} {C : List Byte} {v : Bool}

theorem loadedKey_ne_nil (hc : checksPass s = true) : Memory.readRun s.key s.klen.toNat ≠ [] := by
  obtain ⟨-, -, hk⟩ := (checksPass_iff s).1 hc
  rw [← List.length_pos_iff, Memory.readRun_length]
  exact hk

/-- An encryption on the machine: what it emits is the call's answer. -/
theorem execs_encryption (h : s.Inv) (hp : s.phase = .idle) (hc : checksPass s = true)
    (hiv : IvPort.canSupply s.ivin (ivDraws v s) = true) (c : Bool) (P : List Byte) : ∃ t C,
    Execs (.enc c v :: (P.map .data ++ [.fin])) s t ∧
    encryptStream s.cfg.xform P (Memory.readRun s.key s.klen.toNat) c s.bs.toNat s.filler (ivBlock v s) = .ok C ∧
    Closed C { s with err := none } t := by
  obtain ⟨hb, -, hk⟩ := (checksPass_iff s).1 hc
  obtain ⟨C0, out, hC0, hlen, hout, -, -, hE⟩ := encryptStream_ok s.cfg.xform c P s.filler hb (loadedKey_ne_nil hc)
    (ivBlock_length v s)
  rw [← window_eq_keyWindow s hk] at hC0
  have hopen := Accepted.enc c v hp hc hiv hC0
  have hready : Ready s.cfg.xform (Memory.readRun s.key s.klen.toNat) c s.bs.toNat .encrypt s.bs.toNat C0 _ :=
    { inv := accepted_inv h hopen, phase := rfl, fill := rfl, xform := rfl, key := rfl, chain := rfl, bs := rfl
      dir := rfl, off := offset_modEq h hc _
      prev := hlen ▸ Memory.readRun_writeRun h.prev_wf C0 }
  obtain ⟨t, ht, hclosed⟩ := (streamed_of_encryptSlices hb (fun _ => hlen) hout).execs hready
  exact ⟨t, C0 ++ out, .cons (by simp [hp]) (exec_of_accepted hopen) ht, hE,
    { hclosed with out := by simp [hclosed.out] }⟩

/-- The first block of a decryption only seeds the chain (R127). -/
theorem execs_drop (h : s.Inv) (hp : s.phase = .drop) (hf : s.fill = 0#16) (hd : s.dir = .decrypt)
    (hC : C.length = s.bs.toNat) : ∃ t, Execs (C.map .data) s t ∧
      Ready s.cfg.xform (Memory.readRun s.key s.klen.toNat) s.chain s.bs.toNat .decrypt s.bs.toNat C t ∧
      t = { s with buf := t.buf, prev := t.prev, off := t.off, fill := t.fill, phase := t.phase } := by
  have hc := inv_checksPass h (by simp [hp])
  obtain ⟨hb, -⟩ := (checksPass_iff s).1 hc
  obtain ⟨l, b, rfl, hl, hfull, hbyte⟩ := execs_buffered_full (.inl hp) hf hC (List.length_pos_iff.1 (hC ▸ hb))
  have hexecs := hl.append (.single (by simp [buffered, hp]) (.dataDrops (s := buffered l s) b hp hfull))
  have hslice : sliceBytes (bufferByte b (buffered l s)) s.bs.toNat = l ++ [b] := by
    rw [hbyte, ← hC]
    exact sliceBytes_buffered h _
  refine ⟨_, by simpa using hexecs, ?_, rfl⟩
  exact
    { inv := execs_inv hexecs h, phase := rfl, fill := rfl, xform := rfl, key := rfl, chain := rfl, bs := rfl, dir := hd
      off := offset_modEq h hc _
      prev := by
        have hread := Memory.readRun_writeRun h.prev_wf (l ++ [b])
        rw [hC, ← hslice] at hread
        exact hread.trans hslice }

/-- A decryption on the machine: what it emits is the call's answer. -/
theorem execs_decryption (h : s.Inv) (hp : s.phase = .idle) (hc : checksPass s = true) (c : Bool)
    (hC : s.bs.toNat ≤ C.length) : ∃ t D,
    Execs (.dec c :: (C.map .data ++ [.fin])) s t ∧
    decryptStream s.cfg.xform C (Memory.readRun s.key s.klen.toNat) c s.bs.toNat = .ok D ∧
    Closed D { s with err := none } t := by
  obtain ⟨hb, -, hk⟩ := (checksPass_iff s).1 hc
  obtain ⟨D, hD, -⟩ := decryptStream_ok s.cfg.xform c hb (loadedKey_ne_nil hc) hC
  have hopen := Accepted.dec c hp hc
  have hfirst : (C.take s.bs.toNat).length = s.bs.toNat := by simpa using hC
  obtain ⟨s', hdrop, hready, hs'⟩ := execs_drop (accepted_inv h hopen) rfl rfl rfl hfirst
  have hloop := (decryptStream_eq s.cfg.xform c hb (loadedKey_ne_nil hc) hC).symm.trans hD
  obtain ⟨t, ht, hclosed⟩ := (streamed_of_decryptSlices hb (fun _ => hfirst) hloop).execs hready
  have hall := hdrop.append ht
  rw [← List.append_assoc, ← List.map_append, List.take_append_drop] at hall
  refine ⟨t, D, .cons (by simp [hp]) (exec_of_accepted hopen) hall, hD, ?_⟩
  rw [hs'] at hclosed
  exact { hclosed with }

end

/-- Settles O58: ENC leaves the machine where the call's loop begins, and the two go on slice by slice. -/
theorem encryptionRunsAgreeWithTheCall : Obligations.EncryptionRunsAgreeWithTheCall := by
  unfold Obligations.EncryptionRunsAgreeWithTheCall
  intro s c v P h hp hc hiv
  obtain ⟨t, C, ht, hC, hclosed⟩ := execs_encryption h hp hc (canSupply_of hiv) c P
  have hrun := run_of_execs ht
  exact ⟨t, C, by simpa using hrun, hC, hclosed.out, hclosed.phase, hclosed.done, hclosed.err, hclosed.inbox,
    hclosed.key, hclosed.klen, hclosed.bs, hclosed.cfg⟩

/-- Settles O59: DEC and the dropped block leave the machine where the call's loop begins. -/
theorem decryptionRunsAgreeWithTheCall : Obligations.DecryptionRunsAgreeWithTheCall := by
  unfold Obligations.DecryptionRunsAgreeWithTheCall
  intro s c C h hp hc hC
  obtain ⟨t, D, ht, hD, hclosed⟩ := execs_decryption h hp hc c hC
  have hrun := run_of_execs ht
  exact ⟨t, D, by simpa using hrun, hD, hclosed.out, hclosed.phase, hclosed.done, hclosed.err, hclosed.inbox,
    hclosed.key, hclosed.klen, hclosed.bs, hclosed.cfg⟩

/-- Settles O60: both runs are their calls, and the calls undo each other. -/
theorem theMachineDecryptsWhatItEncrypts : Obligations.TheMachineDecryptsWhatItEncrypts := by
  unfold Obligations.TheMachineDecryptsWhatItEncrypts
  intro s c v P h hp hc hiv
  obtain ⟨t, C, ht, hC, hclosed⟩ := execs_encryption h hp hc (canSupply_of hiv) c P
  obtain ⟨hb, -, -⟩ := (checksPass_iff s).1 hc
  have hlen := encryptStream_length hb (loadedKey_ne_nil hc) (ivBlock_length v s) hC
  have hc' : checksPass t = true := checksPass_congr hclosed.cfg.symm hclosed.klen.symm hclosed.bs.symm ▸ hc
  have hle : t.bs.toNat ≤ C.length := by
    rw [hclosed.bs, hlen]
    exact Nat.le_add_right ..
  obtain ⟨u, D, hu, hD, hclosed'⟩ := execs_decryption (execs_inv ht h) hclosed.phase hc' c hle
  rw [hclosed.cfg, hclosed.key, hclosed.klen, hclosed.bs] at hD
  obtain ⟨C', hC', hP⟩ := decryptionUndoesEncryption s.cfg.xform P (Memory.readRun s.key s.klen.toNat) c s.bs.toNat
    s.filler (ivBlock v s) hb (loadedKey_ne_nil hc) (ivBlock_length v s)
  cases hC'.symm.trans hC
  cases hP.symm.trans hD
  exact ⟨t, u, C, by simpa using run_of_execs ht, hclosed.out, hlen, by simpa using run_of_execs hu, hclosed'.out⟩

end Sys2Proof.Machine
end
